-- ==== Sys2Proof/Word.lean ====
section
/-! DEFINITION. The words of LX-HUF: bytes, counts, bit strings, paths and packets (00_scope.md section 5). -/

namespace Sys2Proof

/-- A byte: 8 bits, read as an unsigned integer 0 to 255; also a symbol (R2: one byte value). -/
abbrev Byte := BitVec 8

/-- A bit count as the two wide counters hold it (`CW` = 64 bits, 00_scope.md section 4). -/
abbrev Count := BitVec 64

/-- A bit string in transmission order: element `i` is bit `c[i]`, bit 0 first transmitted
(00_scope.md section 5.2); `true` is the bit 1. -/
abbrev Bits := List Bool

/-- A code: the bit string assigned to a symbol (R11). Its `LEN` is its length. -/
abbrev Code := Bits

/-- A path: the bit string that names a tree node, `[]` the root, `false` left, `true` right
(00_scope.md section 5.2). -/
abbrev Path := Bits

/-- A packet of the command port: a finite sequence of bytes whose length the out-of-band framing
gives (R60). -/
abbrev Packet := List Byte

end Sys2Proof
end

