-- ==== Sys2Proof/Config.lean ====
section
/-! DEFINITION. What one implementation of LX-HUF fixes (00_scope.md section 4) and the model's one free value. -/

namespace Sys2Proof.Config

/-- `NSYM`: the number of symbols, entries of `CT` (R2); the model's index type `Byte` has this many
values. -/
def nsym : Nat := 256

/-- `LMIN`: the least code length (decision D6, R83). -/
def lmin : Nat := 1

/-- `LMAX`: the greatest code length `CT` can hold (decision D6, R13). -/
def lmax : Nat := 255

/-- `NNODES`: the node capacity of the tree store, 1 + 256 x 255; it never binds (decision D22, R16). -/
def nnodes : Nat := 1 + nsym * lmax

/-- The value `EBITS` takes when a push would carry it past 2^64 - 1: "outside this spec" (R21, R96,
93 U9). A FREE VALUE, drawn by `State.freeIdx`; nothing constrains it (DESIGN CHOICE, log entry 1). -/
opaque ebitsPastMax : Nat → Count

/-- The code the reference host gives the only symbol of a one-symbol input (R125, decision D24);
the block itself takes any non-empty code. -/
def singleCode : Code := [false]

end Sys2Proof.Config
end

