-- ==== Sys2Proof/Syntax.lean ====
section
/-! DEFINITION. The LX-HUF command set: one constructor per row of spec/opcode_table.json (R63). -/

namespace Sys2Proof

/-- The ten commands of R63 with their operands (R62, R68). -/
inductive Instr where
  /-- `NOP` (0x00): R80. -/
  | nop
  /-- `CLR` (0x01): R81. -/
  | clr
  /-- `LDC SYM, LEN, c` (0x10): R83. `LEN` is the length of the code string `c` (R75: "`LEN` is not
  written, it is the string's length"; R74 takes `len(c) = LEN`). -/
  | ldc (sym : Byte) (code : Code)
  /-- `EBEGIN` (0x20): R90. -/
  | ebegin
  /-- `ENC SYM` (0x21): R91. -/
  | enc (sym : Byte)
  /-- `EEND` (0x22): R93. -/
  | eend
  /-- `DBEGIN` (0x30): R103. -/
  | dbegin
  /-- `DBEGINL N` (0x31): R104. -/
  | dbeginl (n : Count)
  /-- `DEC DATA` (0x32): R106. -/
  | dec (data : Byte)
  /-- `DEND` (0x33): R107. -/
  | dend
deriving DecidableEq, Repr

end Sys2Proof
end

