-- ==== Sys2Proof/WellFormed.lean ====
section
/-! DEFINITION. Which commands a packet can carry. -/

namespace Sys2Proof

/-- A command is well formed when a packet can encode it. The types bound every operand except the
code of `LDC`, whose length must fit the one-byte `LEN` field (R62, R74: "`len(c) = LEN <= 255`").
Length 0 is well formed: it decodes and faults when executed (R77). -/
def Instr.wf : Instr → Bool
  | .nop => true
  | .clr => true
  | .ldc _ code => decide (code.length ≤ Config.lmax)
  | .ebegin => true
  | .enc _ => true
  | .eend => true
  | .dbegin => true
  | .dbeginl _ => true
  | .dec _ => true
  | .dend => true

end Sys2Proof
end

