-- ==== Sys2Proof/Decode.lean ====
section
/-! DEFINITION. The decoder (R60 to R73, R77), total on every packet, and after it the encoder (R74).
The bit and byte order helpers they use stand here too (R46, R47, R48, R65, R67). -/

namespace Sys2Proof

/-! ### Bit and byte order -/

/-- The 8 bits of a byte in the order bit 7 down to bit 0 (R46, R65). -/
def byteBits (d : Byte) : Bits :=
  [d.getLsbD 7, d.getLsbD 6, d.getLsbD 5, d.getLsbD 4,
   d.getLsbD 3, d.getLsbD 2, d.getLsbD 1, d.getLsbD 0]

/-- The first 8 bits of a bit string as one byte, the first in bit 7, zeros where there is no bit
(R46). -/
def packByte (c : Bits) : Byte :=
  (List.range 8).foldl (fun v i => (v <<< 1) ||| (if c.getD i false then 1#8 else 0#8)) 0#8

/-- `ceil(n/8)`: the number of bytes that `n` bits fill (R46, R64). -/
def bytesFor (n : Nat) : Nat := (n + 7) / 8

/-- `pack(e)`: byte `j` holds `e[8j]` in bit 7 to `e[8j+7]` in bit 0, the last byte zero-padded on its
low bits (R46, R47, R94). -/
def pack (e : Bits) : List Byte :=
  (List.range (bytesFor e.length)).map fun j => packByte (e.drop (8 * j))

/-- The bits of a byte sequence, each byte from bit 7 down to bit 0 (R65). -/
def unpack (bs : List Byte) : Bits := bs.flatMap byteBits

/-- A byte sequence as a number, most significant byte first (R48, R67). -/
def beNat (bs : List Byte) : Nat := bs.foldl (fun v b => v * 256 + b.toNat) 0

/-- Operand `N` of `DBEGINL` from its 8 bytes (R67). -/
def countOfBytes (bs : List Byte) : Count := BitVec.ofNat 64 (beNat bs)

/-- The 8 bytes of a count, most significant first (R48, R74). -/
def bytesOfCount (n : Count) : List Byte :=
  (List.range 8).map fun k => (n >>> (8 * (7 - k))).setWidth 8

/-! ### Decoding -/

/-- Why a packet is `ILLEGAL` (R70, R71). The block reports only that it is. -/
inductive Illegal where
  /-- The empty packet (R71). -/
  | emptyPacket
  /-- One of the 246 reserved opcodes (R70). -/
  | reservedOpcode
  /-- A defined opcode with the wrong length (R64, R71). -/
  | wrongLength
  /-- An `LDC` packet with a pad bit that is 1 (R66, R71). -/
  | nonzeroPad
deriving DecidableEq, Repr

/-- The result of `Decode`: one of the ten commands with its operands, or `ILLEGAL` (R69). -/
inductive Decoded where
  | instr (i : Instr)
  | illegal (why : Illegal)
deriving DecidableEq, Repr

/-- Format `Z`: no operand, length 1 (R62, R64). -/
def decodeZ (i : Instr) : List Byte → Decoded
  | [] => .instr i
  | _ :: _ => .illegal .wrongLength

/-- Format `B`: one byte operand, length 2 (R62, R64, R68). -/
def decodeB (f : Byte → Instr) : List Byte → Decoded
  | [x] => .instr (f x)
  | _ => .illegal .wrongLength

/-- Format `Q`: one 64-bit operand, length 9 (R62, R64, R67). -/
def decodeQ (f : Count → Instr) (ops : List Byte) : Decoded :=
  if ops.length = 8 then .instr (f (countOfBytes ops)) else .illegal .wrongLength

/-- The pad-bit rule of `LDC`: if `LEN mod 8 != 0`, the low `8 - (LEN mod 8)` bits of the last code byte
are 0 (R66, with the mask of R69). -/
def padClean (len : Nat) (cb : List Byte) : Bool :=
  (len % 8 == 0) || ((cb.getLastD 0#8 &&& BitVec.ofNat 8 (2 ^ (8 - len % 8) - 1)) == 0#8)

/-- Format `T`: `SYM`, `LEN` and `ceil(LEN/8)` code bytes (R62, R64, R65, R66). -/
def decodeT : List Byte → Decoded
  | sym :: len :: cb =>
    if cb.length = bytesFor len.toNat then
      if padClean len.toNat cb then .instr (.ldc sym ((unpack cb).take len.toNat))
      else .illegal .nonzeroPad
    else .illegal .wrongLength
  | _ => .illegal .wrongLength

/-- `Decode` (R69): the first byte alone selects the command and the format (R61). It reads no state
(R72). -/
def decode : Packet → Decoded
  | [] => .illegal .emptyPacket
  | op :: ops =>
    if op = 0x00#8 then decodeZ .nop ops
    else if op = 0x01#8 then decodeZ .clr ops
    else if op = 0x10#8 then decodeT ops
    else if op = 0x20#8 then decodeZ .ebegin ops
    else if op = 0x21#8 then decodeB .enc ops
    else if op = 0x22#8 then decodeZ .eend ops
    else if op = 0x30#8 then decodeZ .dbegin ops
    else if op = 0x31#8 then decodeQ .dbeginl ops
    else if op = 0x32#8 then decodeB .dec ops
    else if op = 0x33#8 then decodeZ .dend ops
    else .illegal .reservedOpcode

/-! ### Encoding -/

/-- The opcode of a command (R63). -/
def opcode : Instr → Byte
  | .nop => 0x00#8
  | .clr => 0x01#8
  | .ldc _ _ => 0x10#8
  | .ebegin => 0x20#8
  | .enc _ => 0x21#8
  | .eend => 0x22#8
  | .dbegin => 0x30#8
  | .dbeginl _ => 0x31#8
  | .dec _ => 0x32#8
  | .dend => 0x33#8

/-- The operand bytes of a command (R62, R74). -/
def operandBytes : Instr → List Byte
  | .nop => []
  | .clr => []
  | .ldc sym code => sym :: BitVec.ofNat 8 code.length :: pack code
  | .ebegin => []
  | .enc sym => [sym]
  | .eend => []
  | .dbegin => []
  | .dbeginl n => bytesOfCount n
  | .dec data => [data]
  | .dend => []

/-- `Encode` (R74): the packet of a command. -/
def encode (i : Instr) : Packet := opcode i :: operandBytes i

/-! ### The opcode table's numbering of a packet's bits -/

/-- The packet length that an opcode and the `LEN` byte ask for (R64, R73); 1 for a reserved opcode. -/
def requiredLength (op len : Byte) : Nat :=
  if op = 0x10#8 then 3 + bytesFor len.toNat
  else if op = 0x21#8 ∨ op = 0x32#8 then 2
  else if op = 0x31#8 then 9
  else 1

/-- Byte `k` of a packet whose bits are numbered from the least significant bit of its first byte. -/
def tableByte (w k : Nat) : Byte := BitVec.ofNat 8 (w / 2 ^ (8 * k))

/-- The packet of an instruction whose first `nbits` bits are `w` and whose other bits are 0: as long as
`nbits` asks for, and at least as long as its opcode and `LEN` byte ask for (DESIGN CHOICE, log entry 7: the
table does not give the framing's length). -/
def tablePacket (nbits w : Nat) : Packet :=
  let v := w % 2 ^ nbits
  (List.range (max ((nbits + 7) / 8) (requiredLength (tableByte v 0) (tableByte v 2)))).map (tableByte v)

/-- The instruction the decoder reads from such a packet; `none` where it refuses. -/
def decodeTableWord (nbits w : Nat) : Option Instr :=
  match decode (tablePacket nbits w) with
  | .instr i => some i
  | .illegal _ => none

end Sys2Proof
end

