-- ==== Sys2Proof/Machine/State.lean ====
section
/-! DEFINITION. The state of LX-HUF as plain data: the twelve items of R10, the two ports as the block's
environment sees them, and the counter that draws the model's free value; reset (R31). -/

namespace Sys2Proof.Machine

/-- The sequencer state (R24). -/
inductive Phase where
  /-- 0: no run is active; the table may be loaded. -/
  | load
  /-- 1: an encode run is active. -/
  | enc
  /-- 2: a decode run is active. -/
  | dec
  /-- 3: a fault has been raised and not yet cleared. -/
  | fault
deriving DecidableEq, Repr

/-- The five kinds of fault the block raises (R150). They are next states of the machine
(`ERR`, `PHASE = FAULT`), not stops of the model. -/
inductive FaultKind where
  /-- 1: the table has an empty code, or is not prefix-free. -/
  | corruptCodeTable
  /-- 2: a payload bit leads to an absent child, or a counted payload ends early or inside a code. -/
  | malformedPayload
  /-- 3: the symbol to encode has no code. -/
  | unmappedSymbol
  /-- 4: the packet is not a well-formed command. -/
  | illegalCommand
  /-- 5: a well-formed command in a phase where it is not legal. -/
  | sequenceError
deriving DecidableEq, Repr

/-- `ERR`: the code of the fault that put the block into `FAULT`, or `NONE` (R25). Six values; the 3-bit
field is their encoding (93 U18). -/
inductive Err where
  | none
  | raised (k : FaultKind)
deriving DecidableEq, Repr

/-- A node kind of the decode tree (R15). -/
inductive Node where
  /-- `INT`: an internal node. -/
  | int
  /-- `LEAF(s)`. -/
  | leaf (sym : Byte)
deriving DecidableEq, Repr

/-- The decode tree. R15 gives it as a partial map from paths to node kinds; the map is
`Tree.nodeAt` (Machine/Ops.lean), and this inductive form holds the same map closed under parents
(R16 (a), (b); 93 U11 allows "an inductive tree"; DEDUCED, log entry 5). `absent` is a child the map does not
define. -/
inductive Tree where
  | absent
  | leaf (sym : Byte)
  | node (left right : Tree)
deriving DecidableEq, Repr

/-- The code-table ROM `CT` (R11, R12): for each symbol with `V = 1` its code, whose length is `LEN`; a
symbol that is not listed has `V = 0`. One canonical form: symbols strictly ascending
(`tableCanonical`, Machine/Ops.lean; DEDUCED, log entry 4). The index type makes exactly 256 locations
(R41). -/
abbrev CodeTable := List (Byte × Code)

/-- What the host does to the block, in the order it reaches the block (R55, R134): packets on the
command port and the reset input. The model's own input record, not state of the block (DESIGN CHOICE, log
entries 2 and 3). -/
inductive HostEvent where
  /-- One packet on the command port (R60). -/
  | packet (p : Packet)
  /-- The reset input, asserted and released between two commands (R170). -/
  | reset
  /-- The reset input in the middle of the command that packet `p` carries, when the command has
  emitted at most `k` of its bytes (R170, 93 U26). -/
  | resetDuring (p : Packet) (k : Nat)
deriving DecidableEq, Repr

/-- The machine. The first twelve fields are the architectural state of R10; `out` and `port` are its
output port and its input still to come; `freeIdx` is the model's own. -/
structure State where
  /-- `CT` (R11). -/
  ct : CodeTable
  /-- `TREE`: `NONE` or the decode tree (R15). -/
  tree : Option Tree
  /-- `POS`: the walker's current node, as a path (R17). -/
  pos : Path
  /-- `SR`: the serializer's shift register (R18). -/
  sr : BitVec 8
  /-- `CNT`: the number of bits held in `SR` (R19). -/
  cnt : BitVec 3
  /-- `EBITS`: bits pushed since the last `EBEGIN` (R21). -/
  ebits : Count
  /-- `LIM`: 1 = counted decode mode (R22). -/
  lim : Bool
  /-- `DREM`: payload bits still to walk in counted mode (R22). -/
  drem : Count
  /-- `DANY`: this decode run has consumed a payload byte (R23). -/
  dany : Bool
  /-- `AMB`: the ambiguous-padding warning (R23, R161). -/
  amb : Bool
  /-- `PHASE` (R24). -/
  phase : Phase
  /-- `ERR` (R25). -/
  err : Err
  /-- `OUT`: every byte emitted so far, oldest first (R45). Not state of the block (R30). -/
  out : List Byte
  /-- What the host has still to do to the block, next first. Not state of the block (R10). -/
  port : List HostEvent
  /-- How many free values have been drawn (log entry 1). The model's own. -/
  freeIdx : Nat
deriving DecidableEq, Repr

/-- Why the model would stop with a fault. LX-HUF never stops: "every packet in every state has exactly
one outcome" (93 section 2, R185), and its faults are next states. So nobody raises a fault, and the
type has no constructor. -/
inductive Fault where
deriving DecidableEq, Repr

/-- Why the model would refuse. -/
inductive Refusal where
  /-- Raised by an arm of `exec` whose command has no meaning yet, with its mnemonic; no arm does. Safe:
  the model stops where the block goes on. -/
  | notModelled (mnemonic : String)
deriving DecidableEq, Repr

/-- The machine right after reset (R31, R171), before the host has sent anything. `out`, `port` and
`freeIdx` are the environment's and the model's own (log entries 1, 2, 3). -/
def State.reset : State :=
  { ct := [], tree := none, pos := [], sr := 0#8, cnt := 0#3, ebits := 0#64, lim := false, drem := 0#64,
    dany := false, amb := false, phase := .load, err := .none, out := [], port := [], freeIdx := 0 }

end Sys2Proof.Machine
end

