-- ==== Sys2Proof/Machine/Ops.lean ====
section
/-! DEFINITION. The named operations the ten commands share: the code table, the tree store, the
serializer, the walker, raising a fault, and reset. -/

namespace Sys2Proof.Machine

/-! ### The code table (R11, R41) -/

/-- `code(x)`: the code of a symbol, `none` when `V = 0` (R12). -/
def lookupCode (x : Byte) : CodeTable → Option Code
  | [] => none
  | (y, c) :: t => if y = x then some c else lookupCode x t

/-- Write one entry; a symbol that already has a code gets the new one (R83 (b)). Keeps the canonical
form. -/
def storeCode (x : Byte) (c : Code) : CodeTable → CodeTable
  | [] => [(x, c)]
  | (y, d) :: t =>
    if x < y then (x, c) :: (y, d) :: t
    else if x = y then (x, c) :: t
    else (y, d) :: storeCode x c t

/-- The one canonical form of a code table: symbols strictly ascending, so that equal tables are equal
data. -/
def tableCanonical (t : CodeTable) : Bool :=
  decide (t.Pairwise fun a b => a.1 < b.1)

/-- The table entry of a symbol. -/
def State.codeOf (s : State) (x : Byte) : Option Code := lookupCode x s.ct

/-- `CT[x] <- {V = 1, LEN, CODE = c}`. -/
def setCode (x : Byte) (c : Code) (s : State) : State := { s with ct := storeCode x c s.ct }

/-! ### Output, faults, phases -/

/-- `Emit(b)`: append a byte to `OUT` (R45). -/
def emit (b : Byte) (s : State) : State := { s with out := s.out ++ [b] }

/-- `raise K` (R153): `ERR` and `PHASE` and nothing else. The caller does nothing after it. -/
def raise (k : FaultKind) (s : State) : State := { s with err := .raised k, phase := .fault }

/-- `PHASE <- p`. -/
def setPhase (p : Phase) (s : State) : State := { s with phase := p }

/-- The checks common to the commands that are legal in one phase only, in the order of R156: in `FAULT`
the command is discarded (R155); in another phase than the legal one it raises `SEQUENCE_ERROR` (R32,
R154); else its body runs. -/
def command (legal : Phase) (body : State → State) (s : State) : State :=
  if s.phase = .fault then s
  else if s.phase = legal then body s
  else raise .sequenceError s

/-- The block returns to its reset state (R31, R81, R170); bytes already emitted stay emitted (R30, R172)
and the host's further input is still to come. There is no other exit from `FAULT` (R158). -/
def resetBlock (s : State) : State :=
  { State.reset with out := s.out, port := s.port, freeIdx := s.freeIdx }

/-- Reset in the middle of a command that would have taken the block from `s` to `t`: the command is
abandoned when at most `k` of its bytes have been emitted; these stay emitted (R170, R172, 93 U26). -/
def cutByReset (s : State) (k : Nat) (t : State) : State :=
  resetBlock { t with out := s.out ++ (t.out.drop s.out.length).take k }

/-! ### The serializer (R18 to R21, R92) -/

/-- `SR <- r; CNT <- c`. -/
def setSerializer (r : BitVec 8) (c : BitVec 3) (s : State) : State := { s with sr := r, cnt := c }

/-- `EBITS <- EBITS + 1`; past 2^64 - 1 the value is free (R21, R96; log entry 1). -/
def countPushed (s : State) : State :=
  if s.ebits = BitVec.allOnes 64 then
    { s with ebits := Config.ebitsPastMax s.freeIdx, freeIdx := s.freeIdx + 1 }
  else { s with ebits := s.ebits + 1#64 }

/-- `SR[6:0] ++ b`: the shift register after a bit has entered at bit 0 (R92). -/
def shiftIn (r : BitVec 8) (b : Bool) : BitVec 8 := (r <<< 1) ||| (if b then 1#8 else 0#8)

/-- `PushBit(b)` (R92). -/
def pushBit (b : Bool) (s : State) : State :=
  countPushed
    (if s.cnt = 7#3 then setSerializer 0#8 0#3 (emit (shiftIn s.sr b) s)
     else setSerializer (shiftIn s.sr b) (s.cnt + 1#3) s)

/-- The loop of `ENC` (R91): push the bits of a code, first bit first. -/
def pushBits : Bits → State → State
  | [], s => s
  | b :: bs, s => pushBits bs (pushBit b s)

/-- The flush of `EEND` (R93): emit the partial byte, if any, left-aligned and zero-padded; empty the
serializer. -/
def flush (s : State) : State :=
  setSerializer 0#8 0#3 (if s.cnt = 0#3 then s else emit (s.sr <<< (8 - s.cnt.toNat)) s)

/-! ### The tree store (R15, R16, R42, R100) -/

/-- `TREE[p]`: the partial map from paths to node kinds (R15). -/
def Tree.nodeAt : Tree → Path → Option Node
  | .absent, _ => none
  | .leaf x, [] => some (.leaf x)
  | .leaf _, _ :: _ => none
  | .node _ _, [] => some .int
  | .node l r, b :: p => (if b then r else l).nodeAt p

/-- The number of nodes of a tree (R16, `NNODES`). -/
def Tree.size : Tree → Nat
  | .absent => 0
  | .leaf _ => 1
  | .node l r => 1 + l.size + r.size

/-- The bare root: `{ ε -> INT }`, "a single unattached root" (R100). -/
def Tree.bareRoot : Tree := .node .absent .absent

/-- The inner loop of `BuildTree` (R100), from node `p` with the bits of the code still to follow: `none`
is `raise CORRUPT_CODE_TABLE`. A leaf on the way is check (A); a defined node at the end is check (B);
an undefined node on the way becomes `INT`. -/
def insertCode (x : Byte) : Code → Tree → Option Tree
  | [], .absent => some (.leaf x)
  | [], .leaf _ => none
  | [], .node _ _ => none
  | _ :: _, .leaf _ => none
  | b :: c, .absent =>
    (insertCode x c .absent).map fun t => if b then .node .absent t else .node t .absent
  | b :: c, .node l r =>
    if b then (insertCode x c r).map fun t => .node l t else (insertCode x c l).map fun t => .node t r

/-- The outer loop of `BuildTree` (R100): insert the listed codes in order. -/
def insertAll : CodeTable → Tree → Option Tree
  | [], t => some t
  | (x, c) :: rest, t =>
    match insertCode x c t with
    | none => none
    | some t' => insertAll rest t'

/-- `BuildTree()` (R100): the loaded codes in ascending order of the symbol (the canonical order of
`CT`), from the bare root, on a scratch tree. -/
def buildTree (ct : CodeTable) : Option Tree := insertAll ct .bareRoot

/-- `TREE[q]` of the machine; nothing is defined when `TREE = NONE` (DEDUCED, log entry 10: no run walks then). -/
def State.nodeAt (s : State) (q : Path) : Option Node := s.tree.bind fun t => t.nodeAt q

/-! ### The walker (R105, R106) -/

/-- `POS <- p`. -/
def moveTo (p : Path) (s : State) : State := { s with pos := p }

/-- `if LIM = 1 then DREM <- DREM - 1` (R106). -/
def countWalked (s : State) : State := if s.lim then { s with drem := s.drem - 1#64 } else s

/-- `WalkBit(b)` (R105); `none` is `raise MALFORMED_PAYLOAD`, on which nothing has changed. -/
def walkBit (b : Bool) (s : State) : Option State :=
  match s.nodeAt (s.pos ++ [b]) with
  | none => none
  | some (.leaf x) => some (moveTo [] (emit x s))
  | some .int => some (moveTo (s.pos ++ [b]) s)

/-- The loop of `DEC` (R106): in counted mode it exits when `DREM` is 0; an absent child ends the command
at that bit (R157). -/
def walkBits : Bits → State → State
  | [], s => s
  | b :: bs, s =>
    if s.lim = true ∧ s.drem = 0#64 then s
    else
      match walkBit b s with
      | none => raise .malformedPayload s
      | some t => walkBits bs (countWalked t)

/-- The common part of `DBEGIN` and `DBEGINL` (R103, R104): build the tree and open a decode run; a bad
table changes nothing but `ERR` and `PHASE` (R157). -/
def openDecode (lim : Bool) (n : Count) (s : State) : State :=
  match buildTree s.ct with
  | none => raise .corruptCodeTable s
  | some t =>
    { s with tree := some t, pos := [], lim := lim, drem := n, dany := false, amb := false, phase := .dec }

/-- The end of a decode run (R107): the tree is discarded, the block returns to `LOAD`. -/
def closeDecode (s : State) : State := { s with tree := none, pos := [], phase := .load }

end Sys2Proof.Machine
end

