-- ==== Sys2Proof/Machine/Operands.lean ====
section
/-! DEFINITION. The operand forms a command uses when it runs (R62, R68, R83, R91, R106). The assembly of
operands from packet bytes (R65 to R68) is the decoder's (Decode.lean). -/

namespace Sys2Proof.Machine

/-- `LEN` of an `LDC` operand: the length of the code string (R75, R83). -/
def ldcLen (code : Code) : Nat := code.length

/-- The bits of a `DEC` operand in the order they are walked, `DATA[7]` first (R106). -/
def dataBits (d : Byte) : Bits := byteBits d

end Sys2Proof.Machine
end

