-- ==== Sys2Proof/Machine/Flags.lean ====
section
/-! DEFINITION. The flags, the end checks and the status port (R22, R23, R25 to R27, R107, R160). -/

namespace Sys2Proof.Machine

/-- `ATROOT`: 1 when `POS = ε` (R26). -/
def State.atRoot (s : State) : Bool := s.pos.isEmpty

/-- `DANY <- 1`, by every `DEC` that passes its phase check (R23, R106). -/
def markAny (s : State) : State := { s with dany := true }

/-- The end check of `DEND` fails: counted mode and (`DREM != 0` or `POS != ε`) (R107). -/
def State.endsEarly (s : State) : Bool := s.lim && (s.drem != 0#64 || !s.atRoot)

/-- `if LIM = 0 and DANY = 1 then AMB <- 1` (R107). -/
def markAmbiguous (s : State) : State := if !s.lim && s.dany then { s with amb := true } else s

/-- The 2-bit encoding of `PHASE` (R24). -/
def Phase.bits : Phase → BitVec 2
  | .load => 0#2
  | .enc => 1#2
  | .dec => 2#2
  | .fault => 3#2

/-- The code of a fault kind (R150). -/
def FaultKind.code : FaultKind → BitVec 3
  | .corruptCodeTable => 1#3
  | .malformedPayload => 2#3
  | .unmappedSymbol => 3#3
  | .illegalCommand => 4#3
  | .sequenceError => 5#3

/-- The 3-bit encoding of `ERR` (R25). -/
def Err.bits : Err → BitVec 3
  | .none => 0#3
  | .raised k => k.code

/-- The level output `fault`: 1 exactly when `ERR != 0` (R160). -/
def State.faultOutput (s : State) : Bool := s.err.bits != 0#3

/-- Status register 0, `STATUS`, by the layout of R26 (bit 31 on the left). -/
def State.status (s : State) : BitVec 32 :=
  0#8 ++ s.sr ++ 0#4 ++ BitVec.ofBool s.atRoot ++ s.cnt ++ BitVec.ofBool s.dany ++ BitVec.ofBool s.lim
    ++ BitVec.ofBool s.amb ++ s.err.bits ++ s.phase.bits

/-- A read of the status port by register number (R26, R27): 0 `STATUS`, 1 `EBITS`, 2 `DREM`, any other
number 0. A read has no side effect (R52), so it is a function of the state and no step (DEDUCED, log
entry 6). -/
def State.readStatus (s : State) : Nat → BitVec 64
  | 0 => s.status.setWidth 64
  | 1 => s.ebits
  | 2 => s.drem
  | _ => 0#64

end Sys2Proof.Machine
end

