-- ==== Sys2Proof/Machine/DecodeRun.lean ====
section
/-! DEFINITION. The meanings of `DBEGIN`, `DBEGINL`, `DEC` and `DEND` (42_decode.md). -/

namespace Sys2Proof.Machine

/-- `DBEGIN` (R103): legacy mode. -/
def execDbegin (s : State) : Host.Outcome State Fault Refusal :=
  .next (command .load (openDecode false 0#64) s)

/-- `DBEGINL N` (R104): counted mode. -/
def execDbeginl (n : Count) (s : State) : Host.Outcome State Fault Refusal :=
  .next (command .load (openDecode true n) s)

/-- The body of `DEC` (R106). -/
def decodeByte (d : Byte) (s : State) : State := walkBits (dataBits d) (markAny s)

/-- `DEC DATA` (R106). -/
def execDec (d : Byte) (s : State) : Host.Outcome State Fault Refusal :=
  .next (command .dec (decodeByte d) s)

/-- The body of `DEND` (R107). -/
def endDecode (s : State) : State :=
  if s.endsEarly then raise .malformedPayload s else closeDecode (markAmbiguous s)

/-- `DEND` (R107). -/
def execDend (s : State) : Host.Outcome State Fault Refusal := .next (command .dec endDecode s)

end Sys2Proof.Machine
end

