-- ==== Sys2Proof/Machine/Encode.lean ====
section
/-! DEFINITION. The meanings of `EBEGIN`, `ENC` and `EEND` (41_encode.md). -/

namespace Sys2Proof.Machine

/-- The body of `EBEGIN` (R90). -/
def openEncode (s : State) : State := setPhase .enc { setSerializer 0#8 0#3 s with ebits := 0#64 }

/-- `EBEGIN` (R90). -/
def execEbegin (s : State) : Host.Outcome State Fault Refusal := .next (command .load openEncode s)

/-- The body of `ENC` (R91): an absent entry is refused before any bit is pushed. -/
def encodeSymbol (sym : Byte) (s : State) : State :=
  match s.codeOf sym with
  | none => raise .unmappedSymbol s
  | some code => pushBits code s

/-- `ENC SYM` (R91). -/
def execEnc (sym : Byte) (s : State) : Host.Outcome State Fault Refusal :=
  .next (command .enc (encodeSymbol sym) s)

/-- The body of `EEND` (R93). `EBITS` keeps its value. -/
def closeEncode (s : State) : State := setPhase .load (flush s)

/-- `EEND` (R93). -/
def execEend (s : State) : Host.Outcome State Fault Refusal := .next (command .enc closeEncode s)

end Sys2Proof.Machine
end

