-- ==== Sys2Proof/Machine/Housekeeping.lean ====
section
/-! DEFINITION. The meanings of `NOP`, `CLR` and `LDC` (40_table_load.md). -/

namespace Sys2Proof.Machine

/-- `NOP` (R80): no effect in any phase; in `FAULT` it is discarded, which is no effect too. -/
def execNop (s : State) : Host.Outcome State Fault Refusal := .next s

/-- `CLR` (R81): the reset state, from every phase. -/
def execClr (s : State) : Host.Outcome State Fault Refusal := .next (resetBlock s)

/-- The body of `LDC` (R83): the empty code is refused, any other is stored. -/
def loadCode (sym : Byte) (code : Code) (s : State) : State :=
  if ldcLen code = 0 then raise .corruptCodeTable s else setCode sym code s

/-- `LDC SYM, LEN, c` (R83). -/
def execLdc (sym : Byte) (code : Code) (s : State) : Host.Outcome State Fault Refusal :=
  .next (command .load (loadCode sym code) s)

end Sys2Proof.Machine
end

