-- ==== Sys2Proof/Machine/Dispatch.lean ====
section
/-! DEFINITION. One arm per command. -/

namespace Sys2Proof.Machine

/-- The effect of one decoded command. -/
def exec (i : Instr) (s : State) : Host.Outcome State Fault Refusal :=
  match i with
  | .nop => Sys2Proof.Machine.execNop s
  | .clr => Sys2Proof.Machine.execClr s
  | .ldc sym code => Sys2Proof.Machine.execLdc sym code s
  | .ebegin => Sys2Proof.Machine.execEbegin s
  | .enc sym => Sys2Proof.Machine.execEnc sym s
  | .eend => Sys2Proof.Machine.execEend s
  | .dbegin => Sys2Proof.Machine.execDbegin s
  | .dbeginl n => Sys2Proof.Machine.execDbeginl n s
  | .dec data => Sys2Proof.Machine.execDec data s
  | .dend => Sys2Proof.Machine.execDend s

end Sys2Proof.Machine
end

