-- ==== Sys2Proof/Machine/Port.lean ====
section
/-! DEFINITION. What the block does with a packet before any command runs: steps (1) and (2) of R156. -/

namespace Sys2Proof.Machine

/-- What a packet leads to. -/
inductive PortAction where
  /-- Consumed without being decoded, no change of state (R155). -/
  | discard
  /-- Raises `ILLEGAL_COMMAND` (R69, R150). -/
  | illegal
  /-- Runs a command. -/
  | run (i : Instr)
deriving DecidableEq, Repr

/-- In `FAULT` every packet is discarded undecoded, except the exact one-byte packet `01`, which executes
`CLR` (R155); in the other phases the packet is decoded (R69), which depends on nothing else (R72). -/
def portAction (phase : Phase) (p : Packet) : PortAction :=
  if phase = .fault then (if p = [0x01#8] then .run .clr else .discard)
  else
    match decode p with
    | .illegal _ => .illegal
    | .instr i => .run i

/-- The packet has left the command port. -/
def consume (rest : List HostEvent) (s : State) : State := { s with port := rest }

/-- `withFetchWord`'s work: the packet of a table word becomes the next one on the command port. -/
def offerTableWord (nbits w : Nat) (s : State) : State :=
  { s with port := .packet (tablePacket nbits w) :: s.port }

/-- The host sends packets after what it has already sent. -/
def sendPackets (ps : List Packet) (s : State) : State := { s with port := s.port ++ ps.map .packet }

end Sys2Proof.Machine
end

