-- ==== Sys2Proof/Machine/Step.lean ====
section
/-! DEFINITION. One step: the block takes the next thing the host does to it (R3, R55). -/

namespace Sys2Proof.Machine

/-- One packet, whole: discarded, refused as `ILLEGAL_COMMAND`, or run (R156). -/
def runPacket (p : Packet) (s : State) : Host.Outcome State Fault Refusal :=
  match portAction s.phase p with
  | .discard => .next s
  | .illegal => .next (raise .illegalCommand s)
  | .run i => exec i s

/-- One step of the machine. With nothing on its inputs the block waits, its state held (R168, R186). -/
def step (s : State) : Host.Outcome State Fault Refusal :=
  match s.port with
  | [] => .next s
  | .packet p :: rest => runPacket p (consume rest s)
  | .reset :: rest => .next (resetBlock (consume rest s))
  | .resetDuring p k :: rest =>
    match runPacket p (consume rest s) with
    | .next t => .next (cutByReset (consume rest s) k t)
    | .fault r => .fault r
    | .refused r => .refused r

/-- `s` with that instruction's packet next on the command port. -/
def State.withFetchWord (s : State) (nbits w : Nat) : State := offerTableWord nbits w s

end Sys2Proof.Machine
end

