-- ==== Sys2Proof/Machine/Run.lean ====
section
/-! DEFINITION. Runs: the block taking several things in a row, and the host sending commands as packets
(R55, R60, R134). -/

namespace Sys2Proof.Machine

/-- `n` steps, ending at the first stop of the model (there is none: `Fault` has no value and no arm of
`exec` refuses). -/
def runSteps : Nat → State → Host.Outcome State Fault Refusal
  | 0, s => .next s
  | n + 1, s =>
    match step s with
    | .next t => runSteps n t
    | .fault r => .fault r
    | .refused r => .refused r

/-- The packets of a command sequence, as the host sends them (R60: one packet carries one command). -/
def packetsOf (cmds : List Instr) : List HostEvent := cmds.map fun i => .packet (encode i)

/-- The host sends a command sequence and the block takes it all. -/
def runCommands (cmds : List Instr) (s : State) : Host.Outcome State Fault Refusal :=
  runSteps cmds.length (sendPackets (cmds.map encode) s)

end Sys2Proof.Machine
end

