-- ==== Sys2Proof/Machine/Pseudo.lean ====
section
/-! DEFINITION. The pseudo-commands (R76) and the assembler syntax (R75). The block never sees either: a
pseudo-command expands to commands, and a line of text to at most one command. -/

namespace Sys2Proof.Machine

/-- The pseudo-commands of R76; a text is the list of its bytes. -/
inductive Pseudo where
  /-- `ENCS "text"`. -/
  | encs (text : List Byte)
  /-- `DECS b0, b1, ...`. -/
  | decs (data : List Byte)
  /-- `LDT` with a list of symbol and code pairs, ascending. -/
  | ldt (table : CodeTable)
  /-- `COMPRESS "text"`. -/
  | compress (text : List Byte)
  /-- `DECOMPRESS n; b0, b1, ...`. -/
  | decompress (n : Count) (data : List Byte)
  /-- `DECOMPRESS_LEGACY b0, b1, ...`. -/
  | decompressLegacy (data : List Byte)
deriving DecidableEq, Repr

/-- The expansion of a pseudo-command (R76). -/
def Pseudo.expand : Pseudo → List Instr
  | .encs text => text.map .enc
  | .decs data => data.map .dec
  | .ldt table => .clr :: table.map fun e => .ldc e.1 e.2
  | .compress text => .ebegin :: (text.map .enc ++ [.eend])
  | .decompress n data => .dbeginl n :: (data.map .dec ++ [.dend])
  | .decompressLegacy data => .dbegin :: (data.map .dec ++ [.dend])

/-! ### Assembler text (R75) -/

/-- The tokens of a line. -/
inductive Token where
  | word (chars : List Char)
  | comma
  /-- A character in single quotes. -/
  | quoted (c : Char)
  /-- A bit string in double quotes. -/
  | bits (c : Bits)
deriving DecidableEq, Repr

/-- The word read so far (last character first) as a token, if there is one. -/
def wordToken : List Char → List Token
  | [] => []
  | c :: w => [.word (c :: w).reverse]

/-- The tokens of a line; `none` for a bad bit string. The second argument is the word read so far, last
character first, or the bit string being read, last bit first. A `;` outside quotes starts a comment. R75 fixes
no more of the lexical form (DESIGN CHOICE, log entry 9). -/
def tokens : List Char → List Char ⊕ Bits → Option (List Token)
  | [], .inl w => some (wordToken w)
  | [], .inr _ => none
  | '\'' :: c :: '\'' :: rest, .inl w =>
    (tokens rest (.inl [])).map fun ts => wordToken w ++ .quoted c :: ts
  | ch :: rest, .inl w =>
    if ch = ';' then some (wordToken w)
    else if ch = ',' then (tokens rest (.inl [])).map fun ts => wordToken w ++ .comma :: ts
    else if ch = '"' then (tokens rest (.inr [])).map fun ts => wordToken w ++ ts
    else if ch.isWhitespace then (tokens rest (.inl [])).map fun ts => wordToken w ++ ts
    else tokens rest (.inl (ch :: w))
  | ch :: rest, .inr b =>
    if ch = '0' then tokens rest (.inr (false :: b))
    else if ch = '1' then tokens rest (.inr (true :: b))
    else if ch = '"' then (tokens rest (.inl [])).map fun ts => .bits b.reverse :: ts
    else none

/-- The value of a digit in a base of at most 16. -/
def digitValue (base : Nat) (c : Char) : Option Nat :=
  let v :=
    if '0' ≤ c ∧ c ≤ '9' then c.toNat - '0'.toNat
    else if 'a' ≤ c ∧ c ≤ 'f' then c.toNat - 'a'.toNat + 10
    else if 'A' ≤ c ∧ c ≤ 'F' then c.toNat - 'A'.toNat + 10
    else base
  if v < base then some v else none

/-- A sequence of digits as a number, after the value `v` of the digits before it. -/
def digitsValue (base : Nat) : Nat → List Char → Option Nat
  | v, [] => some v
  | v, c :: cs => (digitValue base c).bind fun d => digitsValue base (v * base + d) cs

/-- A number: decimal, or hexadecimal after `0x` (R75). -/
def numberValue : List Char → Option Nat
  | '0' :: 'x' :: c :: cs => digitsValue 16 0 (c :: cs)
  | c :: cs => digitsValue 10 0 (c :: cs)
  | [] => none

/-- A byte operand: a number up to 255, or an ASCII character in single quotes (R75). -/
def byteOperand : Token → Option Byte
  | .word w => (numberValue w).bind fun v => if v < 256 then some (BitVec.ofNat 8 v) else none
  | .quoted c => if c.toNat < 128 then some (BitVec.ofNat 8 c.toNat) else none
  | .comma => none
  | .bits _ => none

/-- One line of text as the commands it stands for: none for an empty or a comment line, one for a command,
`Option.none` for a line that is neither (R75). -/
def assembleLine (line : List Char) : Option (List Instr) :=
  (tokens line (.inl [])).bind fun
    | [] => some []
    | [.word ['N', 'O', 'P']] => some [.nop]
    | [.word ['C', 'L', 'R']] => some [.clr]
    | [.word ['E', 'B', 'E', 'G', 'I', 'N']] => some [.ebegin]
    | [.word ['E', 'E', 'N', 'D']] => some [.eend]
    | [.word ['D', 'B', 'E', 'G', 'I', 'N']] => some [.dbegin]
    | [.word ['D', 'E', 'N', 'D']] => some [.dend]
    | [.word ['E', 'N', 'C'], x] => (byteOperand x).map fun b => [.enc b]
    | [.word ['D', 'E', 'C'], x] => (byteOperand x).map fun b => [.dec b]
    | [.word ['D', 'B', 'E', 'G', 'I', 'N', 'L'], .word w] =>
      (numberValue w).bind fun v => if v < 2 ^ 64 then some [.dbeginl (BitVec.ofNat 64 v)] else none
    | [.word ['L', 'D', 'C'], x, .comma, .bits c] =>
      (byteOperand x).bind fun b => if (Instr.ldc b c).wf then some [.ldc b c] else none
    | _ => none

end Sys2Proof.Machine
end

