-- ==== Sys2Proof/Machine/Codec.lean ====
section
/-! DEFINITION. The reference host (45_host_codec.md): the software around the block that makes the code
table, drives the block through its command port, and keeps the bit count and the container. None of it is
a command or state of the block. -/

namespace Sys2Proof.Codec

open Sys2Proof.Machine

/-! ### Frequencies and the tree (R120 to R123) -/

/-- `freq(S)[b]`: how often a byte value occurs in the input (R121). -/
def freq (input : List Byte) (b : Byte) : Nat := input.count b

/-- The 256 byte values in ascending order (R2). -/
def byteValues : List Byte := (List.range Config.nsym).map (BitVec.ofNat 8)

/-- The host's node: a leaf or an internal node with exactly two children (R120). -/
inductive HostTree where
  | leaf (sym : Byte)
  | node (left right : HostTree)
deriving DecidableEq, Repr

/-- An entry of the priority queue: a node, its weight (R120) and its insertion sequence number (R123). -/
structure Entry where
  weight : Nat
  seq : Nat
  tree : HostTree
deriving DecidableEq, Repr

/-- The order among equal weights, on sequence numbers: a parameter of the host (R123, decision D23). -/
abbrev TieBreak := Nat → Nat → Bool

/-- The reference host's choice: FIFO, the node inserted earlier first (R123). -/
def fifo : TieBreak := fun i j => decide (i < j)

/-- The queue's order: weight ascending, then the tie-break (R122, R123). -/
def Entry.before (tie : TieBreak) (a b : Entry) : Bool :=
  decide (a.weight < b.weight) || (decide (a.weight = b.weight) && tie a.seq b.seq)

/-- Insert into a queue kept in order. -/
def enqueue (tie : TieBreak) (e : Entry) : List Entry → List Entry
  | [] => [e]
  | f :: q => if e.before tie f then e :: f :: q else f :: enqueue tie e q

/-- The seeds: one leaf per byte value that occurs, in ascending order, numbered from 0 (R122, R123). -/
def seeds (input : List Byte) : List Entry :=
  ((byteValues.filter fun b => freq input b != 0).zipIdx).map fun (b, i) =>
    { weight := freq input b, seq := i, tree := .leaf b }

/-- The loop of `buildFromFrequencies` (R122), at most `fuel` times: remove the two lowest, first removed
left, second removed right, insert their parent with the next sequence number. -/
def mergeLoop (tie : TieBreak) : Nat → Nat → List Entry → List Entry
  | 0, _, q => q
  | _ + 1, _, [] => []
  | _ + 1, _, [e] => [e]
  | fuel + 1, seq, a :: b :: q =>
    mergeLoop tie fuel (seq + 1)
      (enqueue tie { weight := a.weight + b.weight, seq := seq, tree := .node a.tree b.tree } q)

/-- `buildFromFrequencies(freq(S))` (R122); no tree for the empty input (R126). -/
def buildFromFrequencies (tie : TieBreak) (input : List Byte) : Option HostTree :=
  let start := seeds input
  match mergeLoop tie start.length start.length (start.foldl (fun q e => enqueue tie e q) []) with
  | [] => none
  | e :: _ => some e.tree

/-! ### Codes (R124 to R127) -/

/-- The recursive walk of the code generator: "0" for left, "1" for right (R124). -/
def leafCodes : HostTree → Path → List (Byte × Code)
  | .leaf x, p => [(x, p)]
  | .node l r, p => leafCodes l (p ++ [false]) ++ leafCodes r (p ++ [true])

/-- The codes of a tree; the only symbol of a one-leaf tree gets a non-empty code (R125). -/
def generateCodes : HostTree → List (Byte × Code)
  | .leaf x => [(x, Config.singleCode)]
  | .node l r => leafCodes (.node l r) []

/-- The code table of an input, in ascending order of the symbol (R124 to R126, R128). -/
def codeTableFor (tie : TieBreak) (input : List Byte) : CodeTable :=
  match buildFromFrequencies tie input with
  | none => []
  | some t => (generateCodes t).foldl (fun ct e => storeCode e.1 e.2 ct) []

/-! ### The two file forms (R129, R130) -/

/-- The bytes of one table entry: bytes 1 onward of its `LDC` packet (R129). -/
def entryBytes (e : Byte × Code) : List Byte := operandBytes (.ldc e.1 e.2)

/-- `NENT` and the entries (R129). -/
def tableBytes (ct : CodeTable) : List Byte :=
  BitVec.ofNat 8 (ct.length / 256) :: BitVec.ofNat 8 ct.length :: ct.flatMap entryBytes

/-- The file of option (a): `NENT`, the entries, `NBITS`, the payload (R129, R130). -/
def container (ct : CodeTable) (nbits : Count) (payload : List Byte) : List Byte :=
  tableBytes ct ++ bytesOfCount nbits ++ payload

/-- The file of option (b): the same without `NBITS` (R130). -/
def legacyContainer (ct : CodeTable) (payload : List Byte) : List Byte := tableBytes ct ++ payload

/-- Read `n` table entries from the front of a file; `none` where it is no such table: the file ends inside an
entry, or a pad bit of an entry is not 0 (DESIGN CHOICE, log entry 12: the host does not forward such an entry).
An entry of length 0 is read, and the block refuses its `LDC`. -/
def readEntries : Nat → List Byte → Option (CodeTable × List Byte)
  | 0, bs => some ([], bs)
  | n + 1, sym :: len :: bs =>
    match decodeT (sym :: len :: bs.take (bytesFor len.toNat)) with
    | .instr (.ldc x c) =>
      (readEntries n (bs.drop (bytesFor len.toNat))).map fun r => ((x, c) :: r.1, r.2)
    | _ => none
  | _ + 1, _ => none

/-- Read `NENT` and that many entries: the table in file order and the rest of the file (R129). R129 gives `NENT`
the range 0 to 256; a larger one is read as that many entries (DESIGN CHOICE, log entry 11). -/
def readTable : List Byte → Option (CodeTable × List Byte)
  | hi :: lo :: bs => readEntries (hi.toNat * 256 + lo.toNat) bs
  | _ => none

/-- Read the file of option (a): the table in file order, the bit count and the payload bytes, which are all that
is left (R129, R131; DESIGN CHOICE, log entry 8: their number is not held against the bit count). -/
def readContainer (file : List Byte) : Option (CodeTable × Count × List Byte) :=
  (readTable file).bind fun r =>
    if 8 ≤ r.2.length then some (r.1, countOfBytes (r.2.take 8), r.2.drop 8) else none

/-- Read the file of option (b): the table in file order and the payload bytes (R130, R132). -/
def readLegacyContainer (file : List Byte) : Option (CodeTable × List Byte) := readTable file

/-! ### Driving the block (R128, R130 to R133) -/

/-- The command sequence of compress (R128). -/
def compressCommands (ct : CodeTable) (input : List Byte) : List Instr :=
  (Pseudo.ldt ct).expand ++ (Pseudo.compress input).expand

/-- The command sequence of decompress, counted mode (R131). -/
def decompressCommands (ct : CodeTable) (nbits : Count) (payload : List Byte) : List Instr :=
  (Pseudo.ldt ct).expand ++ (Pseudo.decompress nbits payload).expand

/-- The command sequence of the legacy host (R132). -/
def legacyCommands (ct : CodeTable) (payload : List Byte) : List Instr :=
  (Pseudo.ldt ct).expand ++ (Pseudo.decompressLegacy payload).expand

/-- What the host reports to its caller instead of an output (R131, R133 (c)). -/
inductive HostError where
  /-- `STATUS.ERR` at the end of the run: which fault the block raised. -/
  | blockFault (k : FaultKind)
  /-- The file is not one of the host's form; no command was sent (log entries 8 and 12). -/
  | unreadableFile
  /-- A step of the model was refused; no run of the block ends so, since no arm of `exec` refuses. -/
  | modelStopped (why : Refusal)
deriving DecidableEq, Repr

/-- The end of a run that began with `before` emitted: the host reads `STATUS.ERR`. With no fault it releases the
bytes of the run and keeps the block's state for its further reads; else it reports the fault and discards every
byte (R128, R131, R133 (b), (c)). -/
def finishRun (before : List Byte) (t : State) : Except HostError (List Byte × State) :=
  match t.err with
  | .none => .ok (t.out.drop before.length, t)
  | .raised k => .error (.blockFault k)

/-- The host runs a command sequence once, with no retry (R133 (c)). -/
def drive (cmds : List Instr) (s : State) : Except HostError (List Byte × State) :=
  match runCommands cmds s with
  | .next t => finishRun s.out t
  | .fault r => nomatch r
  | .refused r => .error (.modelStopped r)

/-! ### Option (a): the bit count is persisted (R130) -/

/-- `compress(input)` on a block in state `s`: the container of the table, the `EBITS` value read after
`EEND`, and the payload (R128 to R130). -/
def compress (tie : TieBreak) (s : State) (input : List Byte) : Except HostError (List Byte) :=
  (drive (compressCommands (codeTableFor tie input) input) s).map fun r =>
    container (codeTableFor tie input) (r.2.readStatus 1) r.1

/-- `decompress(file)` on a block in state `s` (R131). -/
def decompress (s : State) (file : List Byte) : Except HostError (List Byte) :=
  match readContainer file with
  | none => .error .unreadableFile
  | some (ct, nbits, payload) => (drive (decompressCommands ct nbits payload) s).map Prod.fst

/-! ### Option (b): no bit count (R130, R132) -/

/-- What the legacy host gives its user: the decoded bytes, and `STATUS.AMB` after `DEND`, the notice that they may
carry up to 7 spurious trailing symbols (R130, R132). -/
structure LegacyOutput where
  bytes : List Byte
  mayOverRead : Bool
deriving DecidableEq, Repr

/-- `compress(input)` of the legacy host: the same run, and the file without the bit count (R128, R130). -/
def compressLegacy (tie : TieBreak) (s : State) (input : List Byte) : Except HostError (List Byte) :=
  (drive (compressCommands (codeTableFor tie input) input) s).map fun r =>
    legacyContainer (codeTableFor tie input) r.1

/-- `decompress(file)` of the legacy host, which looks at `STATUS.AMB` (R130, R132). -/
def decompressLegacy (s : State) (file : List Byte) : Except HostError LegacyOutput :=
  match readLegacyContainer file with
  | none => .error .unreadableFile
  | some (ct, payload) =>
    (drive (legacyCommands ct payload) s).map fun r => { bytes := r.1, mayOverRead := r.2.amb }

end Sys2Proof.Codec
end

