-- ==== Sys2Proof/Safety.lean ====
section
/-! DEFINITION. What a safe run of LX-HUF is, in the terms the statements use: the block's state apart from
its ports, prefix-freeness, the trie of a table, what a table spells, and the invariant of the machine. -/

namespace Sys2Proof.Machine

/-- The twelve items of R10 alone: the output, the host's further input and the model's own counter are set
to their reset values. `s.block = State.reset` says that the block is in its reset state (R31). -/
def State.block (s : State) : State := { s with out := [], port := [], freeIdx := 0 }

/-- The next thing the block takes is `CLR`'s packet or the reset input: what gives it its reset state (R31,
R155, R158). -/
def State.clearsNext (s : State) : Prop :=
  ∃ rest, s.port = .packet [0x01#8] :: rest ∨ s.port = .reset :: rest ∨ ∃ p k, s.port = .resetDuring p k :: rest

/-- A run is safe as long as no fault has been raised (R25, R174: a run that faulted "is void"). -/
def State.safe (s : State) : Prop := s.err = .none

/-- The phases in which a command is legal (R32, R63). -/
def legalIn : Instr → Phase → Bool
  | .nop, p => p != .fault
  | .clr, _ => true
  | .ldc _ _, p => p == .load
  | .ebegin, p => p == .load
  | .enc _, p => p == .enc
  | .eend, p => p == .enc
  | .dbegin, p => p == .load
  | .dbeginl _, p => p == .load
  | .dec _, p => p == .dec
  | .dend, p => p == .dec

/-- The ten opcodes of R63. -/
def definedOpcodes : List Byte :=
  [0x00#8, 0x01#8, 0x10#8, 0x20#8, 0x21#8, 0x22#8, 0x30#8, 0x31#8, 0x32#8, 0x33#8]

/-- The length law of R64. -/
def LengthLaw (p : Packet) : Prop :=
  (∃ op ∈ [0x00#8, 0x01#8, 0x20#8, 0x22#8, 0x30#8, 0x33#8], p = [op]) ∨
  (∃ op ∈ [0x21#8, 0x32#8], ∃ x, p = [op, x]) ∨
  (∃ ops : List Byte, ops.length = 8 ∧ p = 0x31#8 :: ops) ∨
  (∃ (sym len : Byte) (cb : List Byte), cb.length = (len.toNat + 7) / 8 ∧ p = 0x10#8 :: sym :: len :: cb)

/-- The pad-bit rule of R66: in an `LDC` packet the low `8 - (LEN mod 8)` bits of the last code byte are 0
when `LEN mod 8 != 0`. -/
def PadBitsZero (p : Packet) : Prop :=
  ∀ (sym len : Byte) (cb : List Byte), p = 0x10#8 :: sym :: len :: cb → len.toNat % 8 ≠ 0 →
    ∀ last, cb.getLast? = some last → ∀ k, k < 8 - len.toNat % 8 → last.getLsbD k = false

/-- The loaded codes are prefix-free in the strong sense (R102). -/
def PrefixFree (ct : CodeTable) : Prop :=
  ∀ x y c d, lookupCode x ct = some c → lookupCode y ct = some d → x ≠ y → ¬ c <+: d

/-- Every loaded code has a legal length (R11). -/
def LengthsLegal (ct : CodeTable) : Prop :=
  ∀ e ∈ ct, Config.lmin ≤ e.2.length ∧ e.2.length ≤ Config.lmax

/-- A path that is the root or a proper prefix of a loaded code: where the trie has an internal node
(R102). -/
def IsInternal (ct : CodeTable) (p : Path) : Prop :=
  p = [] ∨ ∃ x c, lookupCode x ct = some c ∧ p <+: c ∧ p ≠ c

/-- A path that is a loaded code: where the trie has a leaf (R102). -/
def IsCode (ct : CodeTable) (p : Path) : Prop := ∃ x, lookupCode x ct = some p

/-- `t` is the trie of the loaded codes (R102): leaves exactly at the codes, internal nodes exactly at the
root and the proper prefixes of codes, nothing elsewhere. -/
def IsTrie (ct : CodeTable) (t : Tree) : Prop :=
  (∀ p x, t.nodeAt p = some (.leaf x) ↔ lookupCode x ct = some p) ∧
  (∀ p, t.nodeAt p = some .int ↔ IsInternal ct p)

/-- `code(s1) ++ ... ++ code(sk)`; `none` when a symbol has no code (R94). -/
def spell (ct : CodeTable) : List Byte → Option Bits
  | [] => some []
  | x :: xs => (lookupCode x ct).bind fun c => (spell ct xs).map fun e => c ++ e

/-- The bits held in the serializer, oldest first: the low `CNT` bits of `SR` (R18, R19). -/
def State.heldBits (s : State) : Bits := (byteBits s.sr).drop (8 - s.cnt.toNat)

/-- The bits of a payload byte that `DEC` walks: all 8 in legacy mode, at most `DREM` in counted mode
(R106). -/
def State.walkable (s : State) (d : Byte) : Bits :=
  (byteBits d).take (if s.lim then s.drem.toNat else 8)

/-- `DREM` after `n` bits have been walked: it counts in counted mode only (R106). -/
def State.dremAfter (s : State) (n : Nat) : Count :=
  if s.lim then s.drem - BitVec.ofNat 64 n else s.drem

/-- The number of pad bits after `n` payload bits (R93 (b), R108). -/
def padBits (n : Nat) : Nat := (8 - n % 8) % 8

/-- A command sequence given to the block one command after another, apart from the command port. -/
def execAll : List Instr → State → Host.Outcome State Fault Refusal
  | [], s => .next s
  | i :: is, s =>
    match exec i s with
    | .next t => execAll is t
    | .fault r => .fault r
    | .refused r => .refused r

/-- The invariant of the machine: what holds after reset and after every step. -/
structure Inv (s : State) : Prop where
  /-- The code table is in its canonical form. -/
  canonical : tableCanonical s.ct = true
  /-- Every present code has length 1 to 255 (R11, R12). -/
  lengths : LengthsLegal s.ct
  /-- `SR[7:CNT] = 0` (R20). -/
  serializer : s.sr.toNat < 2 ^ s.cnt.toNat
  /-- `ERR != 0` exactly when `PHASE = FAULT` (R25). -/
  errIffFault : s.err ≠ .none ↔ s.phase = .fault
  /-- A tree exists in `DEC` (R15). -/
  treeInDec : s.phase = .dec → s.tree ≠ none
  /-- No tree exists in `LOAD` and `ENC` (R15, R33). -/
  noTreeOutside : s.phase = .load ∨ s.phase = .enc → s.tree = none
  /-- `TREE` is what `BuildTree` makes of `CT`: the two never disagree (R57). -/
  treeOfTable : ∀ t, s.tree = some t → buildTree s.ct = some t
  /-- `POS = ε` when `TREE` is `NONE` (R17). -/
  posAtRoot : s.tree = none → s.pos = []
  /-- `POS` names an `INT` node of `TREE` when `TREE` is not `NONE` (R17). -/
  posInternal : s.tree ≠ none → s.nodeAt s.pos = some .int
  /-- Outside an encode run the serializer is empty (R33). -/
  serializerIdle : s.phase = .load ∨ s.phase = .dec → s.sr = 0#8 ∧ s.cnt = 0#3
  /-- While `LIM = 0`, `DREM` stays 0 (R22). -/
  legacyCount : s.lim = false → s.drem = 0#64

/-- The moves of `PHASE` that the table of R32 lists for a command. -/
def phaseMove : Phase → Instr → Phase → Bool
  | _, .clr, q => q == .load
  | .fault, _, q => q == .fault
  | p, .nop, q => q == p
  | .load, .ldc _ _, q => q == .load || q == .fault
  | .load, .ebegin, q => q == .enc
  | .load, .dbegin, q => q == .dec || q == .fault
  | .load, .dbeginl _, q => q == .dec || q == .fault
  | .enc, .enc _, q => q == .enc || q == .fault
  | .enc, .eend, q => q == .load
  | .dec, .dec _, q => q == .dec || q == .fault
  | .dec, .dend, q => q == .load || q == .fault
  | .load, .enc _, q => q == .fault
  | .load, .eend, q => q == .fault
  | .load, .dec _, q => q == .fault
  | .load, .dend, q => q == .fault
  | .enc, .ldc _ _, q => q == .fault
  | .enc, .ebegin, q => q == .fault
  | .enc, .dbegin, q => q == .fault
  | .enc, .dbeginl _, q => q == .fault
  | .enc, .dec _, q => q == .fault
  | .enc, .dend, q => q == .fault
  | .dec, .ldc _ _, q => q == .fault
  | .dec, .ebegin, q => q == .fault
  | .dec, .enc _, q => q == .fault
  | .dec, .eend, q => q == .fault
  | .dec, .dbegin, q => q == .fault
  | .dec, .dbeginl _, q => q == .fault

end Sys2Proof.Machine
end

