-- ==== Sys2Proof/Certificates/Slice0/Obligations.lean ====
section
/-! DEFINITION. The statements about the model. Each docstring names the rule or the sentence of the spec it
formalises. Where a statement speaks of `port`, `out` or `freeIdx` it speaks of the model's own record of the
block's environment and of its free value (log entries 1, 2 and 3). A statement about every command or every step
takes in the `ENC` that would carry `EBITS` past 2^64 - 1; what it says of that `ENC` is the model's choice (log
entry 1), since R21, R96 and 93 U9 put that push outside the spec. -/

open Sys2Proof Sys2Proof.Machine Sys2Proof.Codec

/-! ### Encoding -/

/-- 30_encoding.md section 4, "The encoding is canonical": the packets of `Encode`, `Decode(Encode(cmd)) = cmd`
for every command with `len(c) <= 255`, and `Encode(Decode(P)) = P` for every packet that decodes. -/
def Obligations.EncodingIsCanonical : Prop :=
  (∀ i : Instr, i.wf = true → decode (encode i) = .instr i) ∧
  (∀ (p : Packet) (i : Instr), decode p = .instr i → encode i = p) ∧
  encode .nop = [0x00#8] ∧ encode .clr = [0x01#8] ∧ encode .ebegin = [0x20#8] ∧ encode .eend = [0x22#8] ∧
  encode .dbegin = [0x30#8] ∧ encode .dend = [0x33#8] ∧ (∀ x, encode (.enc x) = [0x21#8, x]) ∧
  (∀ d, encode (.dec d) = [0x32#8, d]) ∧ (∀ n, encode (.dbeginl n) = 0x31#8 :: bytesOfCount n) ∧
  (∀ x c, encode (.ldc x c) = 0x10#8 :: x :: BitVec.ofNat 8 c.length :: pack c)

/-- R64, R66, R71: a packet decodes to a command exactly when it obeys the length law and, for `LDC`, its pad
bits are 0; every other packet, the empty one among them, is `ILLEGAL`. -/
def Obligations.PacketsDecodeExactlyWhenWellFormed : Prop :=
  ∀ p : Packet,
    ((∃ i, decode p = .instr i) ↔ (LengthLaw p ∧ PadBitsZero p)) ∧
    (¬ (LengthLaw p ∧ PadBitsZero p) → ∃ why, decode p = .illegal why)

/-- R70: a packet that starts with one of the 246 other opcode values is `ILLEGAL` whatever its length. -/
def Obligations.ReservedOpcodesAreIllegal : Prop :=
  definedOpcodes.Nodup ∧ definedOpcodes.length = 10 ∧
  ∀ (op : Byte) (ops : List Byte), op ∉ definedOpcodes → decode (op :: ops) = .illegal .reservedOpcode

/-- R65: `c[i] = CB[i div 8][7 - (i mod 8)]` for `0 <= i < LEN`. -/
def Obligations.LdcCodeBitsAreMsbFirst : Prop :=
  ∀ (p : Packet) (x : Byte) (code : Code), decode p = .instr (.ldc x code) →
    ∃ (len : Byte) (cb : List Byte), p = 0x10#8 :: x :: len :: cb ∧ code.length = len.toNat ∧
      ∀ i, i < len.toNat → ∃ v, cb[i / 8]? = some v ∧ code[i]? = some (v.getLsbD (7 - i % 8))

/-- R67: `N = sum over k = 1..8 of P[k] * 256^(8-k)`. -/
def Obligations.DbeginlCountIsBigEndian : Prop :=
  ∀ b1 b2 b3 b4 b5 b6 b7 b8 : Byte, ∃ n : Count,
    decode [0x31#8, b1, b2, b3, b4, b5, b6, b7, b8] = .instr (.dbeginl n) ∧
    n.toNat = b1.toNat * 256 ^ 7 + b2.toNat * 256 ^ 6 + b3.toNat * 256 ^ 5 + b4.toNat * 256 ^ 4 +
      b5.toNat * 256 ^ 3 + b6.toNat * 256 ^ 2 + b7.toNat * 256 + b8.toNat

/-- 30_encoding.md sections 1 and 4: whatever decodes is a well-formed command, so a code from a packet has at
most 255 bits. -/
def Obligations.DecodedCommandsAreWellFormed : Prop :=
  ∀ (p : Packet) (i : Instr), decode p = .instr i → i.wf = true

/-- 95_test_vectors.md sections 2.1 and 2.2, and section 7 (program P2) for the first: a few packets written out from the encoding decode to what they
stand for. -/
def Obligations.ListedPacketsDecode : Prop :=
  decode [0x10#8, 0x62#8, 0x03#8, 0xC0#8] = .instr (.ldc 0x62#8 [true, true, false]) ∧
  decode [0x10#8, 0x42#8, 0x09#8, 0xAA#8, 0x80#8] =
    .instr (.ldc 0x42#8 [true, false, true, false, true, false, true, false, true]) ∧
  decode [0x21#8, 0x61#8] = .instr (.enc 0x61#8) ∧
  decode [0x31#8, 0x00#8, 0x00#8, 0x00#8, 0x00#8, 0x00#8, 0x00#8, 0x01#8, 0x00#8] = .instr (.dbeginl 256#64) ∧
  decode [0x32#8, 0xE0#8] = .instr (.dec 0xE0#8) ∧
  decode [0x10#8, 0x61#8, 0x01#8, 0xC0#8] = .illegal .nonzeroPad

/-! ### A step -/

/-- 60_exceptions.md section 3 (the order of the checks): when the next packet decodes to a command and the
block is not in `FAULT`, a step takes the packet off the command port and is `exec` of that command. -/
def Obligations.StepRunsTheDecodedCommand : Prop :=
  ∀ (s : State) (p : Packet) (rest : List HostEvent) (i : Instr), s.port = .packet p :: rest →
    s.phase ≠ .fault → decode p = .instr i → step s = exec i { s with port := rest }

/-- 30_encoding.md section 4 and 60_exceptions.md sections 1 and 2: executing `ILLEGAL` raises
`ILLEGAL_COMMAND` and changes nothing but `ERR` and `PHASE`. -/
def Obligations.IllegalPacketRaisesIllegalCommand : Prop :=
  ∀ (s : State) (p : Packet) (rest : List HostEvent) (why : Illegal), s.port = .packet p :: rest →
    s.phase ≠ .fault → decode p = .illegal why →
    step s = .next { s with port := rest, err := .raised .illegalCommand, phase := .fault }

/-- R155: in `FAULT` every packet is consumed and discarded without being decoded and without any change of
state, except the packet that is exactly the byte `0x01`, which executes `CLR`; so no command but `CLR` has an
effect there. -/
def Obligations.FaultPhaseDiscardsPackets : Prop :=
  (∀ (s : State) (p : Packet) (rest : List HostEvent), s.phase = .fault → s.port = .packet p :: rest →
    (p ≠ [0x01#8] → step s = .next { s with port := rest }) ∧
    (p = [0x01#8] → step s = exec .clr { s with port := rest })) ∧
  ∀ (i : Instr) (s : State), s.phase = .fault → i ≠ .clr → exec i s = .next s

/-- 70_reset_and_hazards.md section 4: between commands the block waits, holding its state. -/
def Obligations.WaitingHoldsTheState : Prop :=
  ∀ s : State, s.port = [] → step s = .next s

/-- R170, in the event form of log entry 3: the reset input gives the reset state whatever the block was doing;
in the middle of a command the bytes already emitted stay emitted and nothing further is emitted, and any number
of the command's bytes may have been emitted by then (93 U26). -/
def Obligations.ResetInputGivesTheResetState : Prop :=
  (∀ (s : State) (rest : List HostEvent), s.port = .reset :: rest →
    ∃ t, step s = .next t ∧ t.block = State.reset ∧ t.out = s.out ∧ t.port = rest) ∧
  (∀ (s : State) (p : Packet) (k : Nat) (rest : List HostEvent), s.port = .resetDuring p k :: rest →
    ∃ t u, step { s with port := .packet p :: rest } = .next u ∧ step s = .next t ∧ t.block = State.reset ∧
      t.port = rest ∧ s.out <+: t.out ∧ t.out <+: u.out) ∧
  (∀ (s u : State) (p : Packet) (rest : List HostEvent) (e : List Byte),
    step { s with port := .packet p :: rest } = .next u → s.out <+: e → e <+: u.out →
    ∃ k t, step { s with port := .resetDuring p k :: rest } = .next t ∧ t.block = State.reset ∧ t.out = e)

/-- 70_reset_and_hazards.md section 4 ("Determinism and termination"): every command in every state, and every
step, yields one next state. That an `ENC` yields one also where it would carry `EBITS` past 2^64 - 1 is the model's
choice (log entry 1): 93 section 2 (U9) refuses that push, and D15 allows a model that does. -/
def Obligations.EveryCommandAndStepCompletes : Prop :=
  (∀ (i : Instr) (s : State), ∃ t, exec i s = .next t) ∧ ∀ s : State, ∃ t, step s = .next t

/-- R31, R171: the value after reset and after every `CLR` of each of the twelve items, of `STATUS` and of the
`fault` output. -/
def Obligations.ResetStateIsAsListed : Prop :=
  (∀ x, State.reset.codeOf x = none) ∧ State.reset.tree = none ∧ State.reset.pos = [] ∧
  State.reset.sr = 0#8 ∧ State.reset.cnt = 0#3 ∧ State.reset.ebits = 0#64 ∧ State.reset.lim = false ∧
  State.reset.drem = 0#64 ∧ State.reset.dany = false ∧ State.reset.amb = false ∧
  State.reset.phase = .load ∧ State.reset.err = .none ∧ State.reset.status = 0x00000800#32 ∧
  State.reset.faultOutput = false ∧ ∀ s : State, ∃ t, exec .clr s = .next t ∧ t.block = State.reset.block

/-! ### The commands, each in every phase -/

/-- R80: `NOP` does nothing, in every phase; a command sequence with `NOP`s inserted anywhere gives the same output
and the same final state as the sequence without them. -/
def Obligations.NopChangesNothing : Prop :=
  encode .nop = [0x00#8] ∧ (∀ s : State, exec .nop s = .next s) ∧
  ∀ (cmds : List Instr) (s : State), execAll (cmds.filter fun i => i != .nop) s = execAll cmds s

/-- R81: `CLR` is legal in every phase and gives the block its reset state; bytes already emitted stay emitted. It
is the only command with an effect in `FAULT`. -/
def Obligations.ClrGivesTheResetState : Prop :=
  encode .clr = [0x01#8] ∧
  (∀ s : State, ∃ t, exec .clr s = .next t ∧ t.block = State.reset ∧ t.out = s.out ∧ t.port = s.port) ∧
  ∀ (i : Instr) (s t : State), s.phase = .fault → exec i s = .next t → t ≠ s → i = .clr

/-- R83: `LDC` in `LOAD` writes the one entry of its symbol, whether or not it had a code; the empty code faults
`CORRUPT_CODE_TABLE` and another phase `SEQUENCE_ERROR`, with the table unchanged. -/
def Obligations.LdcWritesOneEntry : Prop :=
  (∀ x c, encode (.ldc x c) = 0x10#8 :: x :: BitVec.ofNat 8 c.length :: pack c) ∧
  ∀ (x : Byte) (c : Code) (s : State),
    (s.phase = .fault → exec (.ldc x c) s = .next s) ∧
    (s.phase = .enc ∨ s.phase = .dec →
      exec (.ldc x c) s = .next { s with err := .raised .sequenceError, phase := .fault }) ∧
    (s.phase = .load → c = [] →
      exec (.ldc x c) s = .next { s with err := .raised .corruptCodeTable, phase := .fault }) ∧
    (s.phase = .load → c ≠ [] →
      ∃ t, exec (.ldc x c) s = .next t ∧ t.codeOf x = some c ∧ (∀ y, y ≠ x → t.codeOf y = s.codeOf y) ∧
        t = { s with ct := t.ct })

/-- R90: `EBEGIN` in `LOAD` empties the serializer, zeroes the bit count and enters `ENC`; everything else keeps
its value. -/
def Obligations.EbeginOpensAnEncodeRun : Prop :=
  encode .ebegin = [0x20#8] ∧
  ∀ s : State,
    (s.phase = .fault → exec .ebegin s = .next s) ∧
    (s.phase = .enc ∨ s.phase = .dec →
      exec .ebegin s = .next { s with err := .raised .sequenceError, phase := .fault }) ∧
    (s.phase = .load →
      exec .ebegin s = .next { s with sr := 0#8, cnt := 0#3, ebits := 0#64, phase := .enc })

/-- R91, with `PushBit` of R92: `ENC` of a symbol with a code appends the code to the bits held in the
serializer, emits every whole byte of these, first bit in bit 7, and keeps the rest; it emits
`(CNT_before + LEN) div 8` bytes and counts `LEN` bits; nothing else changes. The premise on `SR` is the
serializer invariant of R20 (10_state.md section 4). A symbol without a code faults `UNMAPPED_SYMBOL` with no bit
pushed. That all but the value of `EBITS` holds where the count would pass 2^64 - 1 is the
model's choice (log entry 1): R21, R96 and 93 U9 put that case outside the spec. -/
def Obligations.EncPushesTheCode : Prop :=
  (∀ x, encode (.enc x) = [0x21#8, x]) ∧
  ∀ (x : Byte) (s : State),
    (s.phase = .fault → exec (.enc x) s = .next s) ∧
    (s.phase = .load ∨ s.phase = .dec →
      exec (.enc x) s = .next { s with err := .raised .sequenceError, phase := .fault }) ∧
    (s.phase = .enc → s.codeOf x = none →
      exec (.enc x) s = .next { s with err := .raised .unmappedSymbol, phase := .fault }) ∧
    (s.phase = .enc → s.sr.toNat < 2 ^ s.cnt.toNat → ∀ c, s.codeOf x = some c →
      ∃ t n, exec (.enc x) s = .next t ∧ n = (s.cnt.toNat + c.length) / 8 ∧
        t.out = s.out ++ pack ((s.heldBits ++ c).take (8 * n)) ∧
        (pack ((s.heldBits ++ c).take (8 * n))).length = n ∧
        t.heldBits = (s.heldBits ++ c).drop (8 * n) ∧ t.cnt.toNat = (s.cnt.toNat + c.length) % 8 ∧
        t.sr.toNat < 2 ^ t.cnt.toNat ∧
        (s.ebits.toNat + c.length < 2 ^ 64 →
          t.ebits.toNat = s.ebits.toNat + c.length ∧ t.freeIdx = s.freeIdx) ∧
        t = { s with sr := t.sr, cnt := t.cnt, ebits := t.ebits, out := t.out, freeIdx := t.freeIdx })

/-- R93: `EEND` emits the partial byte, if any, left-aligned and zero-padded, empties the serializer and returns
to `LOAD`; `EBITS` and everything else keep their values. Where `SR[7:CNT] = 0` (R20) the byte is the held bits
packed. -/
def Obligations.EendFlushesThePartialByte : Prop :=
  encode .eend = [0x22#8] ∧
  ∀ s : State,
    (s.phase = .fault → exec .eend s = .next s) ∧
    (s.phase = .load ∨ s.phase = .dec →
      exec .eend s = .next { s with err := .raised .sequenceError, phase := .fault }) ∧
    (s.phase = .enc → s.cnt = 0#3 → exec .eend s = .next { s with sr := 0#8, phase := .load }) ∧
    (s.phase = .enc → s.cnt ≠ 0#3 →
      exec .eend s = .next { s with
        out := s.out ++ [s.sr <<< (8 - s.cnt.toNat)], sr := 0#8, cnt := 0#3, phase := .load }) ∧
    (s.phase = .enc → s.sr.toNat < 2 ^ s.cnt.toNat →
      exec .eend s = .next { s with
        out := s.out ++ pack s.heldBits, sr := 0#8, cnt := 0#3, phase := .load })

/-- R103: `DBEGIN` in `LOAD` builds the tree and opens a decode run in legacy mode; with a table that is not
prefix-free it faults `CORRUPT_CODE_TABLE` and nothing else changes. The premises on the table hold in every
state that meets `Inv`; that the tree is the trie of the codes is 42_decode.md, "Success criterion and order
independence". -/
def Obligations.DbeginOpensALegacyRun : Prop :=
  encode .dbegin = [0x30#8] ∧
  ∀ s : State,
    (s.phase = .fault → exec .dbegin s = .next s) ∧
    (s.phase = .enc ∨ s.phase = .dec →
      exec .dbegin s = .next { s with err := .raised .sequenceError, phase := .fault }) ∧
    (s.phase = .load → tableCanonical s.ct = true → LengthsLegal s.ct → PrefixFree s.ct →
      ∃ tr, IsTrie s.ct tr ∧
        exec .dbegin s = .next { s with
          tree := some tr, pos := [], lim := false, drem := 0#64, dany := false, amb := false, phase := .dec }) ∧
    (s.phase = .load → tableCanonical s.ct = true → LengthsLegal s.ct → ¬ PrefixFree s.ct →
      exec .dbegin s = .next { s with err := .raised .corruptCodeTable, phase := .fault })

/-- R104: `DBEGINL N` is `DBEGIN` in counted mode: `LIM = 1`, `DREM = N`. That the tree is the trie of the codes is
42_decode.md, "Success criterion and order independence". -/
def Obligations.DbeginlOpensACountedRun : Prop :=
  (∀ n, encode (.dbeginl n) = 0x31#8 :: bytesOfCount n) ∧
  ∀ (n : Count) (s : State),
    (s.phase = .fault → exec (.dbeginl n) s = .next s) ∧
    (s.phase = .enc ∨ s.phase = .dec →
      exec (.dbeginl n) s = .next { s with err := .raised .sequenceError, phase := .fault }) ∧
    (s.phase = .load → tableCanonical s.ct = true → LengthsLegal s.ct → PrefixFree s.ct →
      ∃ tr, IsTrie s.ct tr ∧
        exec (.dbeginl n) s = .next { s with
          tree := some tr, pos := [], lim := true, drem := n, dany := false, amb := false, phase := .dec }) ∧
    (s.phase = .load → tableCanonical s.ct = true → LengthsLegal s.ct → ¬ PrefixFree s.ct →
      exec (.dbeginl n) s = .next { s with err := .raised .corruptCodeTable, phase := .fault })

/-- `DEC` and `WalkBit` of 42_decode.md, said by the codes without a walker ("Laws of the decode side"): the bits that `DEC` walks, joined to the path already walked, are codes
of symbols in a row and then a path inside the tree: it emits those symbols and stands at that path. Or after
some codes and a path inside the tree the next bit leads to neither a code nor the inside of the tree, an absent
child: it has emitted those symbols, stands at that path, has counted the bits before the bad one, and faults
`MALFORMED_PAYLOAD`. One of the two is the case for every byte. `DANY` becomes 1 in both; everything else keeps
its value. -/
def Obligations.DecEmitsTheCompletedCodes : Prop :=
  (∀ d, encode (.dec d) = [0x32#8, d]) ∧
  ∀ (d : Byte) (s : State),
    (s.phase = .fault → exec (.dec d) s = .next s) ∧
    (s.phase = .load ∨ s.phase = .enc →
      exec (.dec d) s = .next { s with err := .raised .sequenceError, phase := .fault }) ∧
    (Inv s → s.phase = .dec →
      (∀ syms e q, spell s.ct syms = some e → s.pos ++ s.walkable d = e ++ q → IsInternal s.ct q →
        exec (.dec d) s = .next { s with
          dany := true, out := s.out ++ syms, pos := q, drem := s.dremAfter (s.walkable d).length }) ∧
      (∀ syms e q b more, spell s.ct syms = some e → s.pos ++ s.walkable d = e ++ q ++ b :: more →
        IsInternal s.ct q → ¬ IsInternal s.ct (q ++ [b]) → ¬ IsCode s.ct (q ++ [b]) →
        exec (.dec d) s = .next { s with
          dany := true, out := s.out ++ syms, pos := q, drem := s.dremAfter (e.length + q.length - s.pos.length),
          err := .raised .malformedPayload, phase := .fault }) ∧
      ((∃ syms e q, spell s.ct syms = some e ∧ s.pos ++ s.walkable d = e ++ q ∧ IsInternal s.ct q) ∨
        ∃ syms e q b more, spell s.ct syms = some e ∧ s.pos ++ s.walkable d = e ++ q ++ b :: more ∧
          IsInternal s.ct q ∧ ¬ IsInternal s.ct (q ++ [b]) ∧ ¬ IsCode s.ct (q ++ [b])))

/-- R107: `DEND` in counted mode faults when bits are missing or the count ends inside a code; else it discards
the tree and returns to `LOAD`, and in legacy mode sets `AMB` when the run has consumed a byte. -/
def Obligations.DendClosesTheDecodeRun : Prop :=
  encode .dend = [0x33#8] ∧
  ∀ s : State,
    (s.phase = .fault → exec .dend s = .next s) ∧
    (s.phase = .load ∨ s.phase = .enc →
      exec .dend s = .next { s with err := .raised .sequenceError, phase := .fault }) ∧
    (s.phase = .dec → s.lim = true → s.drem ≠ 0#64 ∨ s.pos ≠ [] →
      exec .dend s = .next { s with err := .raised .malformedPayload, phase := .fault }) ∧
    (s.phase = .dec → s.lim = true → s.drem = 0#64 → s.pos = [] →
      exec .dend s = .next { s with tree := none, pos := [], phase := .load }) ∧
    (s.phase = .dec → s.lim = false →
      exec .dend s = .next { s with amb := s.amb || s.dany, tree := none, pos := [], phase := .load })

/-- R154 ("`NOP` never", "`CLR` never", and the column of `SEQUENCE_ERROR`): a command outside its legal phases
changes nothing but `ERR` and `PHASE`. -/
def Obligations.OutOfPhaseCommandsRaiseSequenceError : Prop :=
  ∀ (i : Instr) (s : State), s.phase ≠ .fault → legalIn i s.phase = false →
    i ≠ .nop ∧ i ≠ .clr ∧ exec i s = .next { s with err := .raised .sequenceError, phase := .fault }

/-! ### The status port and the fault output -/

/-- R26, R27, with the codes of R24 and R25: the layout of `STATUS`, the two wide registers, and the registers that do not exist. -/
def Obligations.StatusPortLayout : Prop :=
  ∀ s : State,
    [Phase.load, .enc, .dec, .fault].map Phase.bits = [0#2, 1#2, 2#2, 3#2] ∧
    [Err.none, .raised .corruptCodeTable, .raised .malformedPayload, .raised .unmappedSymbol,
      .raised .illegalCommand, .raised .sequenceError].map Err.bits = [0#3, 1#3, 2#3, 3#3, 4#3, 5#3] ∧
    s.readStatus 0 = s.status.setWidth 64 ∧ s.readStatus 1 = s.ebits ∧ s.readStatus 2 = s.drem ∧
    (∀ n, 3 ≤ n → s.readStatus n = 0#64) ∧
    s.status.extractLsb' 0 2 = s.phase.bits ∧ s.status.extractLsb' 2 3 = s.err.bits ∧
    s.status.getLsbD 5 = s.amb ∧ s.status.getLsbD 6 = s.lim ∧ s.status.getLsbD 7 = s.dany ∧
    s.status.extractLsb' 8 3 = s.cnt ∧ (s.status.getLsbD 11 = true ↔ s.pos = []) ∧
    s.status.extractLsb' 12 4 = 0#4 ∧ s.status.extractLsb' 16 8 = s.sr ∧ s.status.extractLsb' 24 8 = 0#8

/-- 60_exceptions.md section 5: the level output `fault` is 1 exactly when `ERR != 0`, so in a state that meets
`Inv` exactly when `PHASE = FAULT`. -/
def Obligations.FaultOutputIsErr : Prop :=
  ∀ s : State, (s.faultOutput = true ↔ s.err ≠ .none) ∧
    (Inv s → (s.faultOutput = true ↔ s.phase = .fault))

/-! ### Whole-machine rules -/

/-- 10_state.md section 9: `PHASE` changes only as its table says, for every command, for every packet (an
undecodable one moves `LOAD`, `ENC` and `DEC` to `FAULT`), at a reset, and while the block waits. -/
def Obligations.PhaseMovesOnlyAsTheTableSays : Prop :=
  (∀ (i : Instr) (s t : State), exec i s = .next t → phaseMove s.phase i t.phase = true) ∧
  (∀ (s t : State) (p : Packet) (rest : List HostEvent), s.port = .packet p :: rest → step s = .next t →
    match decode p with
    | .instr i => phaseMove s.phase i t.phase = true
    | .illegal _ => t.phase = .fault) ∧
  ∀ s t : State, step s = .next t →
    (s.port = [] → t.phase = s.phase) ∧
    (∀ rest, s.port = .reset :: rest → t.phase = .load) ∧
    ∀ p k rest, s.port = .resetDuring p k :: rest → t.phase = .load

/-- 10_state.md section 1, the column "written by" of the state table: which commands can change each item, and so
the frame of every command but `CLR`. Of the code table an `LDC` changes the one entry of its operand. -/
def Obligations.EachItemIsWrittenOnlyByItsCommands : Prop :=
  ∀ (i : Instr) (s t : State), exec i s = .next t → i ≠ .clr →
    (t.ct = s.ct ∨
      ∃ x c, i = .ldc x c ∧ t.codeOf x = some c ∧ ∀ y, y ≠ x → t.codeOf y = s.codeOf y) ∧
    (t.tree = s.tree ∨ i = .dbegin ∨ (∃ n, i = .dbeginl n) ∨ i = .dend) ∧
    (t.pos = s.pos ∨ i = .dbegin ∨ (∃ n, i = .dbeginl n) ∨ (∃ d, i = .dec d) ∨ i = .dend) ∧
    (t.sr = s.sr ∨ i = .ebegin ∨ (∃ x, i = .enc x) ∨ i = .eend) ∧
    (t.cnt = s.cnt ∨ i = .ebegin ∨ (∃ x, i = .enc x) ∨ i = .eend) ∧
    (t.ebits = s.ebits ∨ i = .ebegin ∨ ∃ x, i = .enc x) ∧
    (t.lim = s.lim ∨ i = .dbegin ∨ ∃ n, i = .dbeginl n) ∧
    (t.drem = s.drem ∨ i = .dbegin ∨ (∃ n, i = .dbeginl n) ∨ ∃ d, i = .dec d) ∧
    (t.dany = s.dany ∨ i = .dbegin ∨ (∃ n, i = .dbeginl n) ∨ ∃ d, i = .dec d) ∧
    (t.amb = s.amb ∨ i = .dbegin ∨ (∃ n, i = .dbeginl n) ∨ i = .dend) ∧
    (t.phase = s.phase ∨ t.phase = .fault ∨ i = .ebegin ∨ i = .eend ∨ i = .dbegin ∨ (∃ n, i = .dbeginl n) ∨
      i = .dend) ∧
    (t.err = s.err ∨ t.phase = .fault) ∧
    (t.freeIdx = s.freeIdx ∨ ∃ x, i = .enc x) ∧
    (t.out = s.out ∨ (∃ x, i = .enc x) ∨ i = .eend ∨ ∃ d, i = .dec d) ∧
    t.port = s.port

/-- R150, R154: the cause of each fault a command can raise, in a state that meets `Inv`. For `DEC` the cause is a
walked bit `b` whose child is absent: `POS` stays inside the tree, and one bit further is neither inside it nor a
code. -/
def Obligations.EveryFaultHasItsListedCause : Prop :=
  ∀ (i : Instr) (s t : State) (k : FaultKind), Inv s → s.phase ≠ .fault → exec i s = .next t →
    t.err = .raised k →
    t.phase = .fault ∧
    match k with
    | .sequenceError => legalIn i s.phase = false
    | .corruptCodeTable =>
      s.phase = .load ∧
        ((∃ x, i = .ldc x []) ∨ ((i = .dbegin ∨ ∃ n, i = .dbeginl n) ∧ ¬ PrefixFree s.ct))
    | .unmappedSymbol => s.phase = .enc ∧ ∃ x, i = .enc x ∧ s.codeOf x = none
    | .malformedPayload =>
      s.phase = .dec ∧
        ((∃ d syms e b more, i = .dec d ∧ spell s.ct syms = some e ∧
            s.pos ++ s.walkable d = e ++ t.pos ++ b :: more ∧ s.pos.length ≤ e.length + t.pos.length ∧
            IsInternal s.ct t.pos ∧ ¬ IsInternal s.ct (t.pos ++ [b]) ∧ ¬ IsCode s.ct (t.pos ++ [b])) ∨
          (i = .dend ∧ s.lim = true ∧ (s.drem ≠ 0#64 ∨ s.pos ≠ [])))
    | .illegalCommand => False

/-- R157: at a fault of any command but a `DEC` that runs, and at an undecodable packet, nothing has changed but `ERR` and
`PHASE`; at a fault of `DEC` nothing but these, `DANY`, `POS`, `DREM` and the bytes emitted. -/
def Obligations.FaultsArePrecise : Prop :=
  (∀ (i : Instr) (s t : State), s.phase ≠ .fault → exec i s = .next t → t.phase = .fault →
    ((∀ d, i = .dec d → s.phase ≠ .dec) → t = { s with err := t.err, phase := .fault }) ∧
    (∀ d, i = .dec d → s.phase = .dec →
      s.out <+: t.out ∧
      t = { s with
        err := .raised .malformedPayload, phase := .fault, dany := true, pos := t.pos, drem := t.drem,
        out := t.out })) ∧
  ∀ (s t : State) (p : Packet) (rest : List HostEvent) (why : Illegal), s.phase ≠ .fault →
    s.port = .packet p :: rest → decode p = .illegal why → step s = .next t →
    t = { s with port := rest, err := t.err, phase := .fault }

/-- R158: the only exits from `FAULT` are `CLR` and the reset input, both to the reset state; without one of them
the block keeps every item, the first fault in `ERR` among them. -/
def Obligations.FaultIsLeftOnlyByClrOrReset : Prop :=
  ∀ s t : State, s.phase = .fault → step s = .next t →
    (t.phase = .fault → t.block = s.block) ∧
    (t.phase ≠ .fault → s.clearsNext ∧ t.block = State.reset) ∧
    (s.clearsNext → t.phase = .load ∧ t.block = State.reset)

/-- R14: `CT` is written only by `LDC`, in `LOAD`, and by `CLR` and reset; inside a run it does not change. -/
def Obligations.TableIsReadOnlyInsideARun : Prop :=
  ∀ s t : State, step s = .next t →
    (t.ct = s.ct ∨ (s.clearsNext ∧ t.block = State.reset) ∨
      ∃ x c rest, s.port = .packet (encode (.ldc x c)) :: rest ∧ s.phase = .load ∧ c ≠ [] ∧
        t.codeOf x = some c ∧ ∀ y, y ≠ x → t.codeOf y = s.codeOf y) ∧
    (s.phase = .enc ∨ s.phase = .dec → t.ct = s.ct ∨ (s.clearsNext ∧ t.block = State.reset))

/-- 20_memory.md sections 1 and 6 and 10_state.md section 7: `OUT` is append-only; no command, fault, `CLR` or
reset takes a byte back. -/
def Obligations.OutputOnlyGrows : Prop :=
  ∀ s t : State, step s = .next t → s.out <+: t.out

/-- 20_memory.md section 4 ("Access widths by command"): `ENC` emits 0 to 32 bytes, `EEND` 0 or 1, `DEC` 0 to 8,
every other command nothing. -/
def Obligations.EmissionBounds : Prop :=
  ∀ (i : Instr) (s t : State), Inv s → exec i s = .next t →
    ∃ e, t.out = s.out ++ e ∧
      match i with
      | .enc _ => e.length ≤ 32
      | .eend => e.length ≤ 1
      | .dec _ => e.length ≤ 8
      | .nop => e = []
      | .clr => e = []
      | .ldc _ _ => e = []
      | .ebegin => e = []
      | .dbegin => e = []
      | .dbeginl _ => e = []
      | .dend => e = []

/-- R161: `AMB` is set only by a `DEND` that ends a legacy-mode run which consumed a byte, and then neither
`PHASE = FAULT` nor `ERR` nor the `fault` output comes of it; it is cleared only by the next `DBEGIN` or
`DBEGINL`, by `CLR` and by reset. -/
def Obligations.AmbiguousPaddingIsAWarning : Prop :=
  ∀ s t : State, step s = .next t →
    (s.amb = false → t.amb = true →
      ∃ rest, s.port = .packet [0x33#8] :: rest ∧ s.phase = .dec ∧ s.lim = false ∧ s.dany = true ∧
        t.phase = .load ∧ t.err = s.err ∧ t.faultOutput = s.faultOutput) ∧
    (∀ rest, s.port = .packet [0x33#8] :: rest → s.phase = .dec → s.lim = false → s.dany = true →
      t.amb = true) ∧
    (s.amb = true → t.amb = false →
      (s.clearsNext ∧ t.block = State.reset) ∨
      ∃ p rest, s.port = .packet p :: rest ∧ s.phase = .load ∧ t.phase = .dec ∧
        (p = [0x30#8] ∨ ∃ n, p = encode (.dbeginl n))) ∧
    (s.clearsNext ∨ (s.phase = .load ∧ t.phase = .dec) → t.amb = false)

/-! ### The tree -/

/-- 42_decode.md, "Success criterion and order independence": `BuildTree` succeeds if and only if the loaded codes
are prefix-free; its result is the trie of the codes, the only tree that is; and every order of visiting the
symbols gives the same verdict and the same tree. -/
def Obligations.BuildTreeMakesTheTrie : Prop :=
  ∀ ct : CodeTable, tableCanonical ct = true → (∀ e ∈ ct, e.2 ≠ []) →
    ((∃ tr, buildTree ct = some tr) ↔ PrefixFree ct) ∧
    (∀ tr, buildTree ct = some tr → IsTrie ct tr ∧ ∀ tr', IsTrie ct tr' → tr' = tr) ∧
    ∀ visited : CodeTable, visited.Perm ct → insertAll visited .bareRoot = buildTree ct

/-- 10_state.md section 3, the shape of a built tree: (a) the root is internal; (b) parents are internal; (c)
every other internal node has a child; (d) the leaves are the codes; (e) no path is longer than 255; and there
are at most `NNODES` nodes. -/
def Obligations.BuiltTreeHasItsShape : Prop :=
  ∀ (ct : CodeTable) (tr : Tree), tableCanonical ct = true → LengthsLegal ct → buildTree ct = some tr →
    tr.nodeAt [] = some .int ∧
    (∀ p b, tr.nodeAt (p ++ [b]) ≠ none → tr.nodeAt p = some .int) ∧
    (∀ p, p ≠ [] → tr.nodeAt p = some .int → ∃ b, tr.nodeAt (p ++ [b]) ≠ none) ∧
    (∀ p x, tr.nodeAt p = some (.leaf x) ↔ lookupCode x ct = some p) ∧
    (∀ p, tr.nodeAt p ≠ none → p.length ≤ Config.lmax) ∧
    tr.size ≤ Config.nnodes

/-- 42_decode.md, "Streaming law and the path formulation": a walked bit by the codes alone, and walking a
concatenation of bits is walking its parts, unless the first part faults. -/
def Obligations.WalkIsThePathFormulation : Prop :=
  (∀ (s : State) (b : Bool), Inv s → s.phase = .dec →
    (∀ x, s.codeOf x = some (s.pos ++ [b]) → walkBit b s = some { s with out := s.out ++ [x], pos := [] }) ∧
    (IsInternal s.ct (s.pos ++ [b]) → walkBit b s = some { s with pos := s.pos ++ [b] }) ∧
    (¬ IsCode s.ct (s.pos ++ [b]) → ¬ IsInternal s.ct (s.pos ++ [b]) → walkBit b s = none)) ∧
  ∀ (s : State) (as bs : Bits), s.phase = .dec →
    walkBits (as ++ bs) s =
      if (walkBits as s).phase = .fault then walkBits as s else walkBits bs (walkBits as s)

/-! ### The invariant -/

/-- The reset state meets the invariant. -/
def Obligations.ResetMeetsTheInvariant : Prop := Inv State.reset

/-- 10_state.md: the serializer invariant (section 4), `ERR` and `FAULT` (section 6), the tree, the position and
the phase (sections 3 and 9), the counters (section 5) and the legal code lengths (section 2) hold again after
every step, from every state in which they hold. -/
def Obligations.EveryStepKeepsTheInvariant : Prop :=
  ∀ s t : State, Inv s → step s = .next t → Inv t

/-! ### Whole runs, through the command port -/

/-- 41_encode.md, "Pack law" and "Size law", for any table, prefix-free or not: the run `EBEGIN; ENC s1; ...;
ENC sk; EEND` emits exactly `pack(e)`, each byte by the command that pushes its last bit, and leaves `EBITS = n`;
`pack(e)` is `ceil(n/8)` bytes with `e[8j + t]` at bit `7 - t` of byte `j` and 0 elsewhere, and its first `n` bits
read most significant first are `e`. -/
def Obligations.EncodeRunEmitsThePackedCodes : Prop :=
  (∀ (s : State) (syms : List Byte) (e : Bits) (rest : List HostEvent), s.phase = .load →
    spell s.ct syms = some e → e.length < 2 ^ 64 →
    s.port = packetsOf (.ebegin :: (syms.map .enc ++ [.eend])) ++ rest →
    runSteps (syms.length + 2) s =
      .next { s with
        out := s.out ++ pack e, ebits := BitVec.ofNat 64 e.length, sr := 0#8, cnt := 0#3, port := rest } ∧
    ∀ k, k ≤ syms.length → ∃ ek u, spell s.ct (syms.take k) = some ek ∧ runSteps (k + 1) s = .next u ∧
      u.out = s.out ++ pack (ek.take (8 * (ek.length / 8)))) ∧
  (∀ e : Bits, (pack e).length = (e.length + 7) / 8 ∧
    (∀ j b, (pack e)[j]? = some b → ∀ t, t < 8 → b.getLsbD (7 - t) = e.getD (8 * j + t) false) ∧
    (unpack (pack e)).take e.length = e)

/-- 42_decode.md, "Counted-mode round-trip law": over the bytes of `pack(e)` with `N = n` the decode run emits
exactly the symbols, faults nowhere, and ends with `DREM = 0`, `POS = ε`, `AMB = 0`, `PHASE = LOAD`. -/
def Obligations.CountedRunDecodesExactly : Prop :=
  ∀ (s : State) (syms : List Byte) (e : Bits) (rest : List HostEvent), Inv s → s.phase = .load →
    PrefixFree s.ct → spell s.ct syms = some e → e.length < 2 ^ 64 →
    s.port = packetsOf (.dbeginl (BitVec.ofNat 64 e.length) :: ((pack e).map .dec ++ [.dend])) ++ rest →
    runSteps ((pack e).length + 2) s =
      .next { s with
        out := s.out ++ syms, lim := true, drem := 0#64, dany := !e.isEmpty, amb := false, port := rest }

/-- 42_decode.md, "Legacy-mode over-read law": the run emits the symbols and then the symbols `X` whose codes the
`z` zero pad bits complete, at most `z` of them; it ends without a fault, or the walk of the pad bits meets an
absent left child and the run faults `MALFORMED_PAYLOAD` after these symbols. With no pad bits the output is
exact; where a code of `d` zeros is loaded for `x`, `X` is `floor(z/d)` copies of `x`. -/
def Obligations.LegacyRunOverReadsThePadBits : Prop :=
  ∀ (s : State) (syms : List Byte) (e : Bits) (rest : List HostEvent), Inv s → s.phase = .load →
    PrefixFree s.ct → spell s.ct syms = some e →
    s.port = packetsOf (.dbegin :: ((pack e).map .dec ++ [.dend])) ++ rest →
    ∃ t extra f q, runSteps ((pack e).length + 2) s = .next t ∧ t.out = s.out ++ syms ++ extra ∧
      t.port = rest ∧ t.ct = s.ct ∧ spell s.ct extra = some f ∧ IsInternal s.ct q ∧
      extra.length ≤ padBits e.length ∧ padBits e.length ≤ 7 ∧
      ((t.phase = .load ∧ t.err = .none ∧ t.tree = none ∧ t.pos = [] ∧ t.amb = !e.isEmpty ∧
          f ++ q = List.replicate (padBits e.length) false) ∨
        (t.phase = .fault ∧ t.err = .raised .malformedPayload ∧ t.pos = q ∧
          f ++ q ++ [false] <+: List.replicate (padBits e.length) false ∧
          ¬ IsInternal s.ct (q ++ [false]) ∧ ¬ IsCode s.ct (q ++ [false]))) ∧
      (padBits e.length = 0 → extra = [] ∧ t.phase = .load) ∧
      ∀ x d, lookupCode x s.ct = some (List.replicate d false) →
        t.phase = .load ∧ extra = List.replicate (padBits e.length / d) x

/-- 70_reset_and_hazards.md section 3 ("The encode side trusts the table"): the pair `DBEGIN`, `DEND` faults
`CORRUPT_CODE_TABLE` exactly when the table is not prefix-free and otherwise changes nothing but setting `LIM`,
`DREM`, `DANY`, `AMB` to 0. -/
def Obligations.DryDecodeRunValidatesTheTable : Prop :=
  ∀ (s : State) (rest : List HostEvent), Inv s → s.phase = .load →
    s.port = packetsOf [.dbegin, .dend] ++ rest →
    (PrefixFree s.ct →
      runSteps 2 s =
        .next { s with lim := false, drem := 0#64, dany := false, amb := false, port := rest }) ∧
    (¬ PrefixFree s.ct →
      runSteps 2 s =
        .next { s with err := .raised .corruptCodeTable, phase := .fault, port := rest })

/-! ### The reference host -/

/-- 45_host_codec.md section 3, the table contract, for every tie-break: every byte value of the input has a code
and no other has one; every code has 1 to 255 bits; the codes are prefix-free. -/
def Obligations.HostTablesKeepTheContract : Prop :=
  ∀ (tie : TieBreak) (input : List Byte),
    tableCanonical (codeTableFor tie input) = true ∧
    (∀ b, b ∈ input ↔ ∃ c, lookupCode b (codeTableFor tie input) = some c) ∧
    LengthsLegal (codeTableFor tie input) ∧ PrefixFree (codeTableFor tie input)

/-- 45_host_codec.md section 7, "Round-trip", with "Empty input" and "Single distinct byte": from any two states
of the block, with nothing else on their inputs, decompressing in counted mode what the reference host compressed
gives the input back, for every tie-break. The premise keeps `EBITS` below 2^64 (93 U9). -/
def Obligations.DecompressOfCompressIsTheInput : Prop :=
  ∀ (tie : TieBreak) (s s' : State) (input : List Byte), s.port = [] → s'.port = [] →
    (∀ e, spell (codeTableFor tie input) input = some e → e.length < 2 ^ 64) →
    ∃ file, compress tie s input = .ok file ∧ decompress s' file = .ok input

/-- R132, with R130 (b): from any two states of the block, with nothing else on their inputs, what the legacy host
gives for the file that it compressed without a bit count is the input followed by at most 7 spurious symbols, and
it tells its user so, by `STATUS.AMB`, whenever the payload is not empty, that is for every input but the empty one
(R94). It never faults on its own files: a tree of the host's has no absent left child. The premise keeps `EBITS`
below 2^64 (93 U9). -/
def Obligations.LegacyHostOverReadsAndSaysSo : Prop :=
  ∀ (tie : TieBreak) (s s' : State) (input : List Byte), s.port = [] → s'.port = [] →
    (∀ e, spell (codeTableFor tie input) input = some e → e.length < 2 ^ 64) →
    ∃ file extra payload, compressLegacy tie s input = .ok file ∧
      file = legacyContainer (codeTableFor tie input) payload ∧ (payload = [] ↔ input = []) ∧ extra.length ≤ 7 ∧
      decompressLegacy s' file = .ok { bytes := input ++ extra, mayOverRead := !payload.isEmpty }

/-- 45_host_codec.md section 7 ("Corruption rejection") and section 6 (c): on a file whose code table is not
prefix-free both hosts report the block's `CORRUPT_CODE_TABLE` and give no output, whatever the count and the
payload. That the counted host reads, and sends, a file whose payload is not `ceil(NBITS/8)` bytes is the model's
choice (log entry 8): of such a file the first clause rests on it. The legacy file has no count to disagree with. -/
def Obligations.HostsReportACorruptTable : Prop :=
  ∀ (s : State) (ct : CodeTable) (nbits : Count) (payload : List Byte), s.port = [] →
    tableCanonical ct = true → LengthsLegal ct → ¬ PrefixFree ct →
    decompress s (container ct nbits payload) = .error (.blockFault .corruptCodeTable) ∧
    decompressLegacy s (legacyContainer ct payload) = .error (.blockFault .corruptCodeTable)
end

