-- ==== Sys2Proof/Laws/State.lean ====
section
/-! SUPPORT. One lemma per field per update of the state, so that no later proof unfolds a record update. -/

namespace Sys2Proof.Machine

/-! ### `setCode` -/

@[simp] theorem setCode_ct (x : Byte) (c : Code) (s : State) : (setCode x c s).ct = storeCode x c s.ct := rfl
@[simp] theorem setCode_tree (x : Byte) (c : Code) (s : State) : (setCode x c s).tree = s.tree := rfl
@[simp] theorem setCode_pos (x : Byte) (c : Code) (s : State) : (setCode x c s).pos = s.pos := rfl
@[simp] theorem setCode_sr (x : Byte) (c : Code) (s : State) : (setCode x c s).sr = s.sr := rfl
@[simp] theorem setCode_cnt (x : Byte) (c : Code) (s : State) : (setCode x c s).cnt = s.cnt := rfl
@[simp] theorem setCode_ebits (x : Byte) (c : Code) (s : State) : (setCode x c s).ebits = s.ebits := rfl
@[simp] theorem setCode_lim (x : Byte) (c : Code) (s : State) : (setCode x c s).lim = s.lim := rfl
@[simp] theorem setCode_drem (x : Byte) (c : Code) (s : State) : (setCode x c s).drem = s.drem := rfl
@[simp] theorem setCode_dany (x : Byte) (c : Code) (s : State) : (setCode x c s).dany = s.dany := rfl
@[simp] theorem setCode_amb (x : Byte) (c : Code) (s : State) : (setCode x c s).amb = s.amb := rfl
@[simp] theorem setCode_phase (x : Byte) (c : Code) (s : State) : (setCode x c s).phase = s.phase := rfl
@[simp] theorem setCode_err (x : Byte) (c : Code) (s : State) : (setCode x c s).err = s.err := rfl
@[simp] theorem setCode_out (x : Byte) (c : Code) (s : State) : (setCode x c s).out = s.out := rfl
@[simp] theorem setCode_port (x : Byte) (c : Code) (s : State) : (setCode x c s).port = s.port := rfl
@[simp] theorem setCode_freeIdx (x : Byte) (c : Code) (s : State) : (setCode x c s).freeIdx = s.freeIdx := rfl

/-! ### `emit` -/

@[simp] theorem emit_ct (b : Byte) (s : State) : (emit b s).ct = s.ct := rfl
@[simp] theorem emit_tree (b : Byte) (s : State) : (emit b s).tree = s.tree := rfl
@[simp] theorem emit_pos (b : Byte) (s : State) : (emit b s).pos = s.pos := rfl
@[simp] theorem emit_sr (b : Byte) (s : State) : (emit b s).sr = s.sr := rfl
@[simp] theorem emit_cnt (b : Byte) (s : State) : (emit b s).cnt = s.cnt := rfl
@[simp] theorem emit_ebits (b : Byte) (s : State) : (emit b s).ebits = s.ebits := rfl
@[simp] theorem emit_lim (b : Byte) (s : State) : (emit b s).lim = s.lim := rfl
@[simp] theorem emit_drem (b : Byte) (s : State) : (emit b s).drem = s.drem := rfl
@[simp] theorem emit_dany (b : Byte) (s : State) : (emit b s).dany = s.dany := rfl
@[simp] theorem emit_amb (b : Byte) (s : State) : (emit b s).amb = s.amb := rfl
@[simp] theorem emit_phase (b : Byte) (s : State) : (emit b s).phase = s.phase := rfl
@[simp] theorem emit_err (b : Byte) (s : State) : (emit b s).err = s.err := rfl
@[simp] theorem emit_out (b : Byte) (s : State) : (emit b s).out = s.out ++ [b] := rfl
@[simp] theorem emit_port (b : Byte) (s : State) : (emit b s).port = s.port := rfl
@[simp] theorem emit_freeIdx (b : Byte) (s : State) : (emit b s).freeIdx = s.freeIdx := rfl

/-! ### `raise` -/

@[simp] theorem raise_ct (k : FaultKind) (s : State) : (raise k s).ct = s.ct := rfl
@[simp] theorem raise_tree (k : FaultKind) (s : State) : (raise k s).tree = s.tree := rfl
@[simp] theorem raise_pos (k : FaultKind) (s : State) : (raise k s).pos = s.pos := rfl
@[simp] theorem raise_sr (k : FaultKind) (s : State) : (raise k s).sr = s.sr := rfl
@[simp] theorem raise_cnt (k : FaultKind) (s : State) : (raise k s).cnt = s.cnt := rfl
@[simp] theorem raise_ebits (k : FaultKind) (s : State) : (raise k s).ebits = s.ebits := rfl
@[simp] theorem raise_lim (k : FaultKind) (s : State) : (raise k s).lim = s.lim := rfl
@[simp] theorem raise_drem (k : FaultKind) (s : State) : (raise k s).drem = s.drem := rfl
@[simp] theorem raise_dany (k : FaultKind) (s : State) : (raise k s).dany = s.dany := rfl
@[simp] theorem raise_amb (k : FaultKind) (s : State) : (raise k s).amb = s.amb := rfl
@[simp] theorem raise_phase (k : FaultKind) (s : State) : (raise k s).phase = .fault := rfl
@[simp] theorem raise_err (k : FaultKind) (s : State) : (raise k s).err = .raised k := rfl
@[simp] theorem raise_out (k : FaultKind) (s : State) : (raise k s).out = s.out := rfl
@[simp] theorem raise_port (k : FaultKind) (s : State) : (raise k s).port = s.port := rfl
@[simp] theorem raise_freeIdx (k : FaultKind) (s : State) : (raise k s).freeIdx = s.freeIdx := rfl

/-! ### `setPhase` -/

@[simp] theorem setPhase_ct (p : Phase) (s : State) : (setPhase p s).ct = s.ct := rfl
@[simp] theorem setPhase_tree (p : Phase) (s : State) : (setPhase p s).tree = s.tree := rfl
@[simp] theorem setPhase_pos (p : Phase) (s : State) : (setPhase p s).pos = s.pos := rfl
@[simp] theorem setPhase_sr (p : Phase) (s : State) : (setPhase p s).sr = s.sr := rfl
@[simp] theorem setPhase_cnt (p : Phase) (s : State) : (setPhase p s).cnt = s.cnt := rfl
@[simp] theorem setPhase_ebits (p : Phase) (s : State) : (setPhase p s).ebits = s.ebits := rfl
@[simp] theorem setPhase_lim (p : Phase) (s : State) : (setPhase p s).lim = s.lim := rfl
@[simp] theorem setPhase_drem (p : Phase) (s : State) : (setPhase p s).drem = s.drem := rfl
@[simp] theorem setPhase_dany (p : Phase) (s : State) : (setPhase p s).dany = s.dany := rfl
@[simp] theorem setPhase_amb (p : Phase) (s : State) : (setPhase p s).amb = s.amb := rfl
@[simp] theorem setPhase_phase (p : Phase) (s : State) : (setPhase p s).phase = p := rfl
@[simp] theorem setPhase_err (p : Phase) (s : State) : (setPhase p s).err = s.err := rfl
@[simp] theorem setPhase_out (p : Phase) (s : State) : (setPhase p s).out = s.out := rfl
@[simp] theorem setPhase_port (p : Phase) (s : State) : (setPhase p s).port = s.port := rfl
@[simp] theorem setPhase_freeIdx (p : Phase) (s : State) : (setPhase p s).freeIdx = s.freeIdx := rfl

/-! ### `setSerializer` -/

@[simp] theorem setSerializer_ct (r : BitVec 8) (c : BitVec 3) (s : State) : (setSerializer r c s).ct = s.ct := rfl
@[simp] theorem setSerializer_tree (r : BitVec 8) (c : BitVec 3) (s : State) : (setSerializer r c s).tree = s.tree := rfl
@[simp] theorem setSerializer_pos (r : BitVec 8) (c : BitVec 3) (s : State) : (setSerializer r c s).pos = s.pos := rfl
@[simp] theorem setSerializer_sr (r : BitVec 8) (c : BitVec 3) (s : State) : (setSerializer r c s).sr = r := rfl
@[simp] theorem setSerializer_cnt (r : BitVec 8) (c : BitVec 3) (s : State) : (setSerializer r c s).cnt = c := rfl
@[simp] theorem setSerializer_ebits (r : BitVec 8) (c : BitVec 3) (s : State) : (setSerializer r c s).ebits = s.ebits := rfl
@[simp] theorem setSerializer_lim (r : BitVec 8) (c : BitVec 3) (s : State) : (setSerializer r c s).lim = s.lim := rfl
@[simp] theorem setSerializer_drem (r : BitVec 8) (c : BitVec 3) (s : State) : (setSerializer r c s).drem = s.drem := rfl
@[simp] theorem setSerializer_dany (r : BitVec 8) (c : BitVec 3) (s : State) : (setSerializer r c s).dany = s.dany := rfl
@[simp] theorem setSerializer_amb (r : BitVec 8) (c : BitVec 3) (s : State) : (setSerializer r c s).amb = s.amb := rfl
@[simp] theorem setSerializer_phase (r : BitVec 8) (c : BitVec 3) (s : State) : (setSerializer r c s).phase = s.phase := rfl
@[simp] theorem setSerializer_err (r : BitVec 8) (c : BitVec 3) (s : State) : (setSerializer r c s).err = s.err := rfl
@[simp] theorem setSerializer_out (r : BitVec 8) (c : BitVec 3) (s : State) : (setSerializer r c s).out = s.out := rfl
@[simp] theorem setSerializer_port (r : BitVec 8) (c : BitVec 3) (s : State) : (setSerializer r c s).port = s.port := rfl
@[simp] theorem setSerializer_freeIdx (r : BitVec 8) (c : BitVec 3) (s : State) : (setSerializer r c s).freeIdx = s.freeIdx := rfl

/-! ### `moveTo` -/

@[simp] theorem moveTo_ct (p : Path) (s : State) : (moveTo p s).ct = s.ct := rfl
@[simp] theorem moveTo_tree (p : Path) (s : State) : (moveTo p s).tree = s.tree := rfl
@[simp] theorem moveTo_pos (p : Path) (s : State) : (moveTo p s).pos = p := rfl
@[simp] theorem moveTo_sr (p : Path) (s : State) : (moveTo p s).sr = s.sr := rfl
@[simp] theorem moveTo_cnt (p : Path) (s : State) : (moveTo p s).cnt = s.cnt := rfl
@[simp] theorem moveTo_ebits (p : Path) (s : State) : (moveTo p s).ebits = s.ebits := rfl
@[simp] theorem moveTo_lim (p : Path) (s : State) : (moveTo p s).lim = s.lim := rfl
@[simp] theorem moveTo_drem (p : Path) (s : State) : (moveTo p s).drem = s.drem := rfl
@[simp] theorem moveTo_dany (p : Path) (s : State) : (moveTo p s).dany = s.dany := rfl
@[simp] theorem moveTo_amb (p : Path) (s : State) : (moveTo p s).amb = s.amb := rfl
@[simp] theorem moveTo_phase (p : Path) (s : State) : (moveTo p s).phase = s.phase := rfl
@[simp] theorem moveTo_err (p : Path) (s : State) : (moveTo p s).err = s.err := rfl
@[simp] theorem moveTo_out (p : Path) (s : State) : (moveTo p s).out = s.out := rfl
@[simp] theorem moveTo_port (p : Path) (s : State) : (moveTo p s).port = s.port := rfl
@[simp] theorem moveTo_freeIdx (p : Path) (s : State) : (moveTo p s).freeIdx = s.freeIdx := rfl

/-! ### `closeDecode` -/

@[simp] theorem closeDecode_ct (s : State) : (closeDecode s).ct = s.ct := rfl
@[simp] theorem closeDecode_tree (s : State) : (closeDecode s).tree = none := rfl
@[simp] theorem closeDecode_pos (s : State) : (closeDecode s).pos = [] := rfl
@[simp] theorem closeDecode_sr (s : State) : (closeDecode s).sr = s.sr := rfl
@[simp] theorem closeDecode_cnt (s : State) : (closeDecode s).cnt = s.cnt := rfl
@[simp] theorem closeDecode_ebits (s : State) : (closeDecode s).ebits = s.ebits := rfl
@[simp] theorem closeDecode_lim (s : State) : (closeDecode s).lim = s.lim := rfl
@[simp] theorem closeDecode_drem (s : State) : (closeDecode s).drem = s.drem := rfl
@[simp] theorem closeDecode_dany (s : State) : (closeDecode s).dany = s.dany := rfl
@[simp] theorem closeDecode_amb (s : State) : (closeDecode s).amb = s.amb := rfl
@[simp] theorem closeDecode_phase (s : State) : (closeDecode s).phase = .load := rfl
@[simp] theorem closeDecode_err (s : State) : (closeDecode s).err = s.err := rfl
@[simp] theorem closeDecode_out (s : State) : (closeDecode s).out = s.out := rfl
@[simp] theorem closeDecode_port (s : State) : (closeDecode s).port = s.port := rfl
@[simp] theorem closeDecode_freeIdx (s : State) : (closeDecode s).freeIdx = s.freeIdx := rfl

/-! ### `markAny` -/

@[simp] theorem markAny_ct (s : State) : (markAny s).ct = s.ct := rfl
@[simp] theorem markAny_tree (s : State) : (markAny s).tree = s.tree := rfl
@[simp] theorem markAny_pos (s : State) : (markAny s).pos = s.pos := rfl
@[simp] theorem markAny_sr (s : State) : (markAny s).sr = s.sr := rfl
@[simp] theorem markAny_cnt (s : State) : (markAny s).cnt = s.cnt := rfl
@[simp] theorem markAny_ebits (s : State) : (markAny s).ebits = s.ebits := rfl
@[simp] theorem markAny_lim (s : State) : (markAny s).lim = s.lim := rfl
@[simp] theorem markAny_drem (s : State) : (markAny s).drem = s.drem := rfl
@[simp] theorem markAny_dany (s : State) : (markAny s).dany = true := rfl
@[simp] theorem markAny_amb (s : State) : (markAny s).amb = s.amb := rfl
@[simp] theorem markAny_phase (s : State) : (markAny s).phase = s.phase := rfl
@[simp] theorem markAny_err (s : State) : (markAny s).err = s.err := rfl
@[simp] theorem markAny_out (s : State) : (markAny s).out = s.out := rfl
@[simp] theorem markAny_port (s : State) : (markAny s).port = s.port := rfl
@[simp] theorem markAny_freeIdx (s : State) : (markAny s).freeIdx = s.freeIdx := rfl

/-! ### `consume` -/

@[simp] theorem consume_ct (rest : List HostEvent) (s : State) : (consume rest s).ct = s.ct := rfl
@[simp] theorem consume_tree (rest : List HostEvent) (s : State) : (consume rest s).tree = s.tree := rfl
@[simp] theorem consume_pos (rest : List HostEvent) (s : State) : (consume rest s).pos = s.pos := rfl
@[simp] theorem consume_sr (rest : List HostEvent) (s : State) : (consume rest s).sr = s.sr := rfl
@[simp] theorem consume_cnt (rest : List HostEvent) (s : State) : (consume rest s).cnt = s.cnt := rfl
@[simp] theorem consume_ebits (rest : List HostEvent) (s : State) : (consume rest s).ebits = s.ebits := rfl
@[simp] theorem consume_lim (rest : List HostEvent) (s : State) : (consume rest s).lim = s.lim := rfl
@[simp] theorem consume_drem (rest : List HostEvent) (s : State) : (consume rest s).drem = s.drem := rfl
@[simp] theorem consume_dany (rest : List HostEvent) (s : State) : (consume rest s).dany = s.dany := rfl
@[simp] theorem consume_amb (rest : List HostEvent) (s : State) : (consume rest s).amb = s.amb := rfl
@[simp] theorem consume_phase (rest : List HostEvent) (s : State) : (consume rest s).phase = s.phase := rfl
@[simp] theorem consume_err (rest : List HostEvent) (s : State) : (consume rest s).err = s.err := rfl
@[simp] theorem consume_out (rest : List HostEvent) (s : State) : (consume rest s).out = s.out := rfl
@[simp] theorem consume_port (rest : List HostEvent) (s : State) : (consume rest s).port = rest := rfl
@[simp] theorem consume_freeIdx (rest : List HostEvent) (s : State) : (consume rest s).freeIdx = s.freeIdx := rfl

/-! ### `sendPackets` -/

@[simp] theorem sendPackets_ct (ps : List Packet) (s : State) : (sendPackets ps s).ct = s.ct := rfl
@[simp] theorem sendPackets_tree (ps : List Packet) (s : State) : (sendPackets ps s).tree = s.tree := rfl
@[simp] theorem sendPackets_pos (ps : List Packet) (s : State) : (sendPackets ps s).pos = s.pos := rfl
@[simp] theorem sendPackets_sr (ps : List Packet) (s : State) : (sendPackets ps s).sr = s.sr := rfl
@[simp] theorem sendPackets_cnt (ps : List Packet) (s : State) : (sendPackets ps s).cnt = s.cnt := rfl
@[simp] theorem sendPackets_ebits (ps : List Packet) (s : State) : (sendPackets ps s).ebits = s.ebits := rfl
@[simp] theorem sendPackets_lim (ps : List Packet) (s : State) : (sendPackets ps s).lim = s.lim := rfl
@[simp] theorem sendPackets_drem (ps : List Packet) (s : State) : (sendPackets ps s).drem = s.drem := rfl
@[simp] theorem sendPackets_dany (ps : List Packet) (s : State) : (sendPackets ps s).dany = s.dany := rfl
@[simp] theorem sendPackets_amb (ps : List Packet) (s : State) : (sendPackets ps s).amb = s.amb := rfl
@[simp] theorem sendPackets_phase (ps : List Packet) (s : State) : (sendPackets ps s).phase = s.phase := rfl
@[simp] theorem sendPackets_err (ps : List Packet) (s : State) : (sendPackets ps s).err = s.err := rfl
@[simp] theorem sendPackets_out (ps : List Packet) (s : State) : (sendPackets ps s).out = s.out := rfl
@[simp] theorem sendPackets_port (ps : List Packet) (s : State) : (sendPackets ps s).port = s.port ++ ps.map .packet := rfl
@[simp] theorem sendPackets_freeIdx (ps : List Packet) (s : State) : (sendPackets ps s).freeIdx = s.freeIdx := rfl

/-! ### `resetBlock` -/

@[simp] theorem resetBlock_ct (s : State) : (resetBlock s).ct = [] := rfl
@[simp] theorem resetBlock_tree (s : State) : (resetBlock s).tree = none := rfl
@[simp] theorem resetBlock_pos (s : State) : (resetBlock s).pos = [] := rfl
@[simp] theorem resetBlock_sr (s : State) : (resetBlock s).sr = 0#8 := rfl
@[simp] theorem resetBlock_cnt (s : State) : (resetBlock s).cnt = 0#3 := rfl
@[simp] theorem resetBlock_ebits (s : State) : (resetBlock s).ebits = 0#64 := rfl
@[simp] theorem resetBlock_lim (s : State) : (resetBlock s).lim = false := rfl
@[simp] theorem resetBlock_drem (s : State) : (resetBlock s).drem = 0#64 := rfl
@[simp] theorem resetBlock_dany (s : State) : (resetBlock s).dany = false := rfl
@[simp] theorem resetBlock_amb (s : State) : (resetBlock s).amb = false := rfl
@[simp] theorem resetBlock_phase (s : State) : (resetBlock s).phase = .load := rfl
@[simp] theorem resetBlock_err (s : State) : (resetBlock s).err = .none := rfl
@[simp] theorem resetBlock_out (s : State) : (resetBlock s).out = s.out := rfl
@[simp] theorem resetBlock_port (s : State) : (resetBlock s).port = s.port := rfl
@[simp] theorem resetBlock_freeIdx (s : State) : (resetBlock s).freeIdx = s.freeIdx := rfl

/-! ### `countPushed`: the fields it leaves alone -/

@[simp] theorem countPushed_ct (s : State) : (countPushed s).ct = s.ct := by unfold countPushed; split <;> rfl
@[simp] theorem countPushed_tree (s : State) : (countPushed s).tree = s.tree := by unfold countPushed; split <;> rfl
@[simp] theorem countPushed_pos (s : State) : (countPushed s).pos = s.pos := by unfold countPushed; split <;> rfl
@[simp] theorem countPushed_sr (s : State) : (countPushed s).sr = s.sr := by unfold countPushed; split <;> rfl
@[simp] theorem countPushed_cnt (s : State) : (countPushed s).cnt = s.cnt := by unfold countPushed; split <;> rfl
@[simp] theorem countPushed_lim (s : State) : (countPushed s).lim = s.lim := by unfold countPushed; split <;> rfl
@[simp] theorem countPushed_drem (s : State) : (countPushed s).drem = s.drem := by unfold countPushed; split <;> rfl
@[simp] theorem countPushed_dany (s : State) : (countPushed s).dany = s.dany := by unfold countPushed; split <;> rfl
@[simp] theorem countPushed_amb (s : State) : (countPushed s).amb = s.amb := by unfold countPushed; split <;> rfl
@[simp] theorem countPushed_phase (s : State) : (countPushed s).phase = s.phase := by unfold countPushed; split <;> rfl
@[simp] theorem countPushed_err (s : State) : (countPushed s).err = s.err := by unfold countPushed; split <;> rfl
@[simp] theorem countPushed_out (s : State) : (countPushed s).out = s.out := by unfold countPushed; split <;> rfl
@[simp] theorem countPushed_port (s : State) : (countPushed s).port = s.port := by unfold countPushed; split <;> rfl

/-! ### `countWalked`: the fields it leaves alone -/

@[simp] theorem countWalked_ct (s : State) : (countWalked s).ct = s.ct := by unfold countWalked; split <;> rfl
@[simp] theorem countWalked_tree (s : State) : (countWalked s).tree = s.tree := by unfold countWalked; split <;> rfl
@[simp] theorem countWalked_pos (s : State) : (countWalked s).pos = s.pos := by unfold countWalked; split <;> rfl
@[simp] theorem countWalked_sr (s : State) : (countWalked s).sr = s.sr := by unfold countWalked; split <;> rfl
@[simp] theorem countWalked_cnt (s : State) : (countWalked s).cnt = s.cnt := by unfold countWalked; split <;> rfl
@[simp] theorem countWalked_ebits (s : State) : (countWalked s).ebits = s.ebits := by unfold countWalked; split <;> rfl
@[simp] theorem countWalked_lim (s : State) : (countWalked s).lim = s.lim := by unfold countWalked; split <;> rfl
@[simp] theorem countWalked_dany (s : State) : (countWalked s).dany = s.dany := by unfold countWalked; split <;> rfl
@[simp] theorem countWalked_amb (s : State) : (countWalked s).amb = s.amb := by unfold countWalked; split <;> rfl
@[simp] theorem countWalked_phase (s : State) : (countWalked s).phase = s.phase := by unfold countWalked; split <;> rfl
@[simp] theorem countWalked_err (s : State) : (countWalked s).err = s.err := by unfold countWalked; split <;> rfl
@[simp] theorem countWalked_out (s : State) : (countWalked s).out = s.out := by unfold countWalked; split <;> rfl
@[simp] theorem countWalked_port (s : State) : (countWalked s).port = s.port := by unfold countWalked; split <;> rfl
@[simp] theorem countWalked_freeIdx (s : State) : (countWalked s).freeIdx = s.freeIdx := by unfold countWalked; split <;> rfl

/-! ### `markAmbiguous`: the fields it leaves alone -/

@[simp] theorem markAmbiguous_ct (s : State) : (markAmbiguous s).ct = s.ct := by unfold markAmbiguous; split <;> rfl
@[simp] theorem markAmbiguous_tree (s : State) : (markAmbiguous s).tree = s.tree := by unfold markAmbiguous; split <;> rfl
@[simp] theorem markAmbiguous_pos (s : State) : (markAmbiguous s).pos = s.pos := by unfold markAmbiguous; split <;> rfl
@[simp] theorem markAmbiguous_sr (s : State) : (markAmbiguous s).sr = s.sr := by unfold markAmbiguous; split <;> rfl
@[simp] theorem markAmbiguous_cnt (s : State) : (markAmbiguous s).cnt = s.cnt := by unfold markAmbiguous; split <;> rfl
@[simp] theorem markAmbiguous_ebits (s : State) : (markAmbiguous s).ebits = s.ebits := by unfold markAmbiguous; split <;> rfl
@[simp] theorem markAmbiguous_lim (s : State) : (markAmbiguous s).lim = s.lim := by unfold markAmbiguous; split <;> rfl
@[simp] theorem markAmbiguous_drem (s : State) : (markAmbiguous s).drem = s.drem := by unfold markAmbiguous; split <;> rfl
@[simp] theorem markAmbiguous_dany (s : State) : (markAmbiguous s).dany = s.dany := by unfold markAmbiguous; split <;> rfl
@[simp] theorem markAmbiguous_phase (s : State) : (markAmbiguous s).phase = s.phase := by unfold markAmbiguous; split <;> rfl
@[simp] theorem markAmbiguous_err (s : State) : (markAmbiguous s).err = s.err := by unfold markAmbiguous; split <;> rfl
@[simp] theorem markAmbiguous_out (s : State) : (markAmbiguous s).out = s.out := by unfold markAmbiguous; split <;> rfl
@[simp] theorem markAmbiguous_port (s : State) : (markAmbiguous s).port = s.port := by unfold markAmbiguous; split <;> rfl
@[simp] theorem markAmbiguous_freeIdx (s : State) : (markAmbiguous s).freeIdx = s.freeIdx := by unfold markAmbiguous; split <;> rfl

/-! ### `State.block` -/

@[simp] theorem block_ct (s : State) : s.block.ct = s.ct := rfl
@[simp] theorem block_tree (s : State) : s.block.tree = s.tree := rfl
@[simp] theorem block_pos (s : State) : s.block.pos = s.pos := rfl
@[simp] theorem block_sr (s : State) : s.block.sr = s.sr := rfl
@[simp] theorem block_cnt (s : State) : s.block.cnt = s.cnt := rfl
@[simp] theorem block_ebits (s : State) : s.block.ebits = s.ebits := rfl
@[simp] theorem block_lim (s : State) : s.block.lim = s.lim := rfl
@[simp] theorem block_drem (s : State) : s.block.drem = s.drem := rfl
@[simp] theorem block_dany (s : State) : s.block.dany = s.dany := rfl
@[simp] theorem block_amb (s : State) : s.block.amb = s.amb := rfl
@[simp] theorem block_phase (s : State) : s.block.phase = s.phase := rfl
@[simp] theorem block_err (s : State) : s.block.err = s.err := rfl
@[simp] theorem block_out (s : State) : s.block.out = [] := rfl
@[simp] theorem block_port (s : State) : s.block.port = [] := rfl
@[simp] theorem block_freeIdx (s : State) : s.block.freeIdx = 0 := rfl

@[simp] theorem resetBlock_block (s : State) : (resetBlock s).block = State.reset := rfl

@[simp] theorem reset_port : State.reset.port = [] := rfl

@[simp] theorem reset_phase : State.reset.phase = .load := rfl

end Sys2Proof.Machine
end

