-- ==== Sys2Proof/Laws/Bits.lean ====
section
/-! SUPPORT. Bit and byte order: lengths, and the two directions between a byte and its bits (R46, R65). -/

namespace Sys2Proof

@[simp] theorem byteBits_length (d : Byte) : (byteBits d).length = 8 := rfl

/-- Bit `t` in walking order is bit `7 - t` of the byte. -/
theorem byteBits_getElem (d : Byte) (t : Nat) (h : t < (byteBits d).length) :
    (byteBits d)[t] = d.getLsbD (7 - t) := by
  have : t < 8 := h
  interval_cases t <;> rfl

/-- A byte packed from its own bits. -/
theorem packByte_byteBits (d : Byte) : packByte (byteBits d) = d := by
  have : ∀ d : Byte, packByte (byteBits d) = d := by decide
  exact this d

/-- The bits of a packed byte: the first 8 of the string, 0 where there is none. -/
theorem packByte_getLsbD (c : Bits) (t : Nat) (h : t < 8) :
    (packByte c).getLsbD (7 - t) = c.getD t false := by
  have key : ∀ b0 b1 b2 b3 b4 b5 b6 b7 : Bool,
      (packByte [b0, b1, b2, b3, b4, b5, b6, b7]) = packByte c →
      c.getD 0 false = b0 → c.getD 1 false = b1 → c.getD 2 false = b2 → c.getD 3 false = b3 →
      c.getD 4 false = b4 → c.getD 5 false = b5 → c.getD 6 false = b6 → c.getD 7 false = b7 →
      (packByte c).getLsbD (7 - t) = c.getD t false := by
    intro b0 b1 b2 b3 b4 b5 b6 b7 hp h0 h1 h2 h3 h4 h5 h6 h7
    have bits : ∀ b0 b1 b2 b3 b4 b5 b6 b7 : Bool,
        byteBits (packByte [b0, b1, b2, b3, b4, b5, b6, b7]) = [b0, b1, b2, b3, b4, b5, b6, b7] := by
      decide
    have hb := bits b0 b1 b2 b3 b4 b5 b6 b7
    rw [hp] at hb
    have ht := byteBits_getElem (packByte c) t (by simpa using h)
    rw [← ht]
    simp only [hb]
    interval_cases t <;> simp_all
  refine key _ _ _ _ _ _ _ _ ?_ rfl rfl rfl rfl rfl rfl rfl rfl
  simp [packByte, List.range_succ]

@[simp] theorem pack_length (e : Bits) : (pack e).length = bytesFor e.length := by simp [pack]

@[simp] theorem pack_nil : pack [] = [] := rfl

/-- A packed string of more than no bits is its first byte and the rest packed. -/
theorem pack_eq_cons {e : Bits} (h : e ≠ []) : pack e = packByte e :: pack (e.drop 8) := by
  have hl : 0 < e.length := List.length_pos_iff.mpr h
  have hb : bytesFor e.length = bytesFor (e.drop 8).length + 1 := by
    simp only [bytesFor, List.length_drop]
    omega
  unfold pack
  rw [hb, List.range_succ_eq_map]
  simp only [List.map_cons, List.map_map, Nat.mul_zero, List.drop_zero, List.cons.injEq, true_and]
  apply List.map_congr_left
  intro j _
  simp only [Function.comp_apply, List.drop_drop]
  congr 2
  omega

@[simp] theorem unpack_length (bs : List Byte) : (unpack bs).length = 8 * bs.length := by
  induction bs with
  | nil => rfl
  | cons b bs ih =>
    simp only [unpack, List.flatMap_cons, List.length_append, byteBits_length, List.length_cons] at ih ⊢
    omega

@[simp] theorem bytesOfCount_length (n : Count) : (bytesOfCount n).length = 8 := rfl

end Sys2Proof
end

