-- ==== Sys2Proof/Laws/Command.lean ====
section
/-! SUPPORT. What the checks common to the commands can do (R156), and what a step can do. -/

namespace Sys2Proof.Machine

theorem command_of_fault {legal : Phase} {body : State → State} {s : State} (h : s.phase = .fault) :
    command legal body s = s := by simp [command, h]

theorem command_of_legal {legal : Phase} {body : State → State} {s : State} (h : s.phase = legal)
    (hl : legal ≠ .fault) : command legal body s = body s := by simp [command, h, hl]

theorem command_of_illegal {legal : Phase} {body : State → State} {s : State} (hf : s.phase ≠ .fault)
    (h : s.phase ≠ legal) : command legal body s = raise .sequenceError s := by simp [command, h, hf]

/-- A command is discarded, raises `SEQUENCE_ERROR`, or runs its body in its own phase. -/
theorem command_cases (legal : Phase) (body : State → State) (s : State) :
    (s.phase = .fault ∧ command legal body s = s) ∨
    (s.phase ≠ .fault ∧ s.phase ≠ legal ∧ command legal body s = raise .sequenceError s) ∨
    (s.phase ≠ .fault ∧ s.phase = legal ∧ command legal body s = body s) := by
  by_cases hf : s.phase = .fault
  · exact .inl ⟨hf, command_of_fault hf⟩
  · by_cases hl : s.phase = legal
    · exact .inr (.inr ⟨hf, hl, by rw [command, if_neg hf, if_pos hl]⟩)
    · exact .inr (.inl ⟨hf, hl, command_of_illegal hf hl⟩)

/-- What a packet can do: discarded in `FAULT`; `CLR` in `FAULT`; refused as illegal; or its command. -/
theorem runPacket_cases {p : Packet} {s t : State} (h : runPacket p s = .next t) :
    (s.phase = .fault ∧ p ≠ [0x01#8] ∧ t = s) ∨
    (s.phase = .fault ∧ p = [0x01#8] ∧ t = resetBlock s) ∨
    (s.phase ≠ .fault ∧ (∃ why, decode p = .illegal why) ∧ t = raise .illegalCommand s) ∨
    (s.phase ≠ .fault ∧ ∃ i, decode p = .instr i ∧ exec i s = .next t) := by
  unfold runPacket portAction at h
  by_cases hf : s.phase = .fault
  · by_cases hp : p = [0x01#8]
    · simp only [hf, hp, if_true, exec, execClr, Host.Outcome.next.injEq] at h
      exact .inr (.inl ⟨hf, hp, h.symm⟩)
    · simp only [hf, hp, if_true, if_false, Host.Outcome.next.injEq] at h
      exact .inl ⟨hf, hp, h.symm⟩
  · simp only [hf, if_false] at h
    cases hd : decode p with
    | instr i =>
      rw [hd] at h
      exact .inr (.inr (.inr ⟨hf, i, rfl, h⟩))
    | illegal why =>
      rw [hd] at h
      simp only [Host.Outcome.next.injEq] at h
      exact .inr (.inr (.inl ⟨hf, ⟨why, rfl⟩, h.symm⟩))

/-- What a step can do: wait; take a packet; reset; reset in the middle of a packet's command. -/
theorem step_cases {s t : State} (h : step s = .next t) :
    (s.port = [] ∧ t = s) ∨
    (∃ p rest, s.port = .packet p :: rest ∧ runPacket p (consume rest s) = .next t) ∨
    (∃ rest, s.port = .reset :: rest ∧ t = resetBlock (consume rest s)) ∨
    (∃ p k rest u, s.port = .resetDuring p k :: rest ∧ runPacket p (consume rest s) = .next u ∧
      t = cutByReset (consume rest s) k u) := by
  unfold step at h
  split at h
  · next hp =>
    simp only [Host.Outcome.next.injEq] at h
    exact .inl ⟨hp, h.symm⟩
  · next p rest hp => exact .inr (.inl ⟨p, rest, hp, h⟩)
  · next rest hp =>
    simp only [Host.Outcome.next.injEq] at h
    exact .inr (.inr (.inl ⟨rest, hp, h.symm⟩))
  · next p k rest hp =>
    split at h
    · next u hu =>
      simp only [Host.Outcome.next.injEq] at h
      exact .inr (.inr (.inr ⟨p, k, rest, u, hp, hu, h.symm⟩))
    · cases h
    · cases h

end Sys2Proof.Machine
end

