-- ==== Sys2Proof/Laws/PerInstr.lean ====
section
/-! SUPPORT. Per-command facts: the length of a command's packet (R62, R64). -/

namespace Sys2Proof.Laws.EncodingLength

/-- The number of bytes R64 gives the packet of a command. -/
def lawLength : Instr → Nat
  | .nop => 1
  | .clr => 1
  | .ldc _ code => 3 + (code.length + 7) / 8
  | .ebegin => 1
  | .enc _ => 2
  | .eend => 1
  | .dbegin => 1
  | .dbeginl _ => 9
  | .dec _ => 2
  | .dend => 1

/-- The packet of the command is as long as R64 says. -/
def Statement (i : Instr) : Prop := (encode i).length = lawLength i

theorem nop : Statement .nop := rfl
theorem clr : Statement .clr := rfl
theorem ldc (sym : Byte) (code : Code) : Statement (.ldc sym code) := by
  simp only [Statement, encode, operandBytes, lawLength, List.length_cons, pack_length, bytesFor]
  omega
theorem ebegin : Statement .ebegin := rfl
theorem enc (sym : Byte) : Statement (.enc sym) := rfl
theorem eend : Statement .eend := rfl
theorem dbegin : Statement .dbegin := rfl
theorem dbeginl (n : Count) : Statement (.dbeginl n) := rfl
theorem dec (data : Byte) : Statement (.dec data) := rfl
theorem dend : Statement .dend := rfl

end Sys2Proof.Laws.EncodingLength
end

