-- ==== Sys2Proof/Laws/Serializer.lean ====
section
/-! SUPPORT. The serializer (R92): what one pushed bit does, and what pushing any bits leaves alone. -/

namespace Sys2Proof.Machine

/-- One pushed bit: the eighth completes a byte, any other waits in the register. -/
theorem pushBit_cases (b : Bool) (s : State) :
    (s.cnt = 7#3 ∧ pushBit b s = countPushed (setSerializer 0#8 0#3 (emit (shiftIn s.sr b) s))) ∨
    (s.cnt ≠ 7#3 ∧ pushBit b s = countPushed (setSerializer (shiftIn s.sr b) (s.cnt + 1#3) s)) := by
  by_cases h : s.cnt = 7#3
  · exact .inl ⟨h, by simp [pushBit, h]⟩
  · exact .inr ⟨h, by simp [pushBit, h]⟩

/-- One pushed bit writes `SR`, `CNT`, `EBITS`, `OUT` and the counter of free values, and nothing else. -/
theorem pushBit_frame (b : Bool) (s : State) :
    pushBit b s = { s with
      sr := (pushBit b s).sr, cnt := (pushBit b s).cnt, ebits := (pushBit b s).ebits,
      out := (pushBit b s).out, freeIdx := (pushBit b s).freeIdx } := by
  rcases pushBit_cases b s with ⟨_, h⟩ | ⟨_, h⟩ <;> rw [h] <;> unfold countPushed <;> split <;> rfl

@[simp] theorem pushBit_ct (b : Bool) (s : State) : (pushBit b s).ct = s.ct :=
  (congrArg State.ct (pushBit_frame b s) :)
@[simp] theorem pushBit_tree (b : Bool) (s : State) : (pushBit b s).tree = s.tree :=
  (congrArg State.tree (pushBit_frame b s) :)
@[simp] theorem pushBit_pos (b : Bool) (s : State) : (pushBit b s).pos = s.pos :=
  (congrArg State.pos (pushBit_frame b s) :)
@[simp] theorem pushBit_lim (b : Bool) (s : State) : (pushBit b s).lim = s.lim :=
  (congrArg State.lim (pushBit_frame b s) :)
@[simp] theorem pushBit_drem (b : Bool) (s : State) : (pushBit b s).drem = s.drem :=
  (congrArg State.drem (pushBit_frame b s) :)
@[simp] theorem pushBit_dany (b : Bool) (s : State) : (pushBit b s).dany = s.dany :=
  (congrArg State.dany (pushBit_frame b s) :)
@[simp] theorem pushBit_amb (b : Bool) (s : State) : (pushBit b s).amb = s.amb :=
  (congrArg State.amb (pushBit_frame b s) :)
@[simp] theorem pushBit_phase (b : Bool) (s : State) : (pushBit b s).phase = s.phase :=
  (congrArg State.phase (pushBit_frame b s) :)
@[simp] theorem pushBit_err (b : Bool) (s : State) : (pushBit b s).err = s.err :=
  (congrArg State.err (pushBit_frame b s) :)
@[simp] theorem pushBit_port (b : Bool) (s : State) : (pushBit b s).port = s.port :=
  (congrArg State.port (pushBit_frame b s) :)

/-- Pushing bits writes what pushing one writes, and nothing else. -/
theorem pushBits_frame (bs : Bits) (s : State) :
    pushBits bs s = { s with
      sr := (pushBits bs s).sr, cnt := (pushBits bs s).cnt, ebits := (pushBits bs s).ebits,
      out := (pushBits bs s).out, freeIdx := (pushBits bs s).freeIdx } := by
  induction bs generalizing s with
  | nil => rfl
  | cons b bs ih =>
    rw [pushBits, ih (pushBit b s), pushBit_frame b s]

@[simp] theorem pushBits_ct (bs : Bits) (s : State) : (pushBits bs s).ct = s.ct :=
  (congrArg State.ct (pushBits_frame bs s) :)
@[simp] theorem pushBits_tree (bs : Bits) (s : State) : (pushBits bs s).tree = s.tree :=
  (congrArg State.tree (pushBits_frame bs s) :)
@[simp] theorem pushBits_pos (bs : Bits) (s : State) : (pushBits bs s).pos = s.pos :=
  (congrArg State.pos (pushBits_frame bs s) :)
@[simp] theorem pushBits_lim (bs : Bits) (s : State) : (pushBits bs s).lim = s.lim :=
  (congrArg State.lim (pushBits_frame bs s) :)
@[simp] theorem pushBits_drem (bs : Bits) (s : State) : (pushBits bs s).drem = s.drem :=
  (congrArg State.drem (pushBits_frame bs s) :)
@[simp] theorem pushBits_dany (bs : Bits) (s : State) : (pushBits bs s).dany = s.dany :=
  (congrArg State.dany (pushBits_frame bs s) :)
@[simp] theorem pushBits_amb (bs : Bits) (s : State) : (pushBits bs s).amb = s.amb :=
  (congrArg State.amb (pushBits_frame bs s) :)
@[simp] theorem pushBits_phase (bs : Bits) (s : State) : (pushBits bs s).phase = s.phase :=
  (congrArg State.phase (pushBits_frame bs s) :)
@[simp] theorem pushBits_err (bs : Bits) (s : State) : (pushBits bs s).err = s.err :=
  (congrArg State.err (pushBits_frame bs s) :)
@[simp] theorem pushBits_port (bs : Bits) (s : State) : (pushBits bs s).port = s.port :=
  (congrArg State.port (pushBits_frame bs s) :)

/-- Pushing a concatenation is pushing its parts in order. -/
theorem pushBits_append (as bs : Bits) (s : State) :
    pushBits (as ++ bs) s = pushBits bs (pushBits as s) := by
  induction as generalizing s with
  | nil => rfl
  | cons a as ih => simp [pushBits, ih]

/-- Below 2^64 - 1 a pushed bit counts one and draws no free value. -/
theorem countPushed_of_lt {s : State} (h : s.ebits.toNat + 1 < 2 ^ 64) :
    (countPushed s).ebits.toNat = s.ebits.toNat + 1 ∧ (countPushed s).freeIdx = s.freeIdx := by
  have hne : s.ebits ≠ BitVec.allOnes 64 := by
    intro he
    rw [he] at h
    simp at h
  unfold countPushed
  rw [if_neg hne]
  refine ⟨?_, rfl⟩
  simp only [BitVec.toNat_add, BitVec.toNat_ofNat]
  omega

/-- The shifted register as a number, while its top bit is 0. -/
theorem shiftIn_toNat (r : BitVec 8) (b : Bool) (h : r.toNat < 128) :
    (shiftIn r b).toNat = 2 * r.toNat + b.toNat := by
  have : ∀ r : BitVec 8, r.toNat < 128 → ∀ b : Bool, (shiftIn r b).toNat = 2 * r.toNat + b.toNat := by
    decide
  exact this r h b

/-- A pushed bit keeps `SR[7:CNT] = 0` (R20). -/
theorem pushBit_bound (b : Bool) {s : State} (h : s.sr.toNat < 2 ^ s.cnt.toNat) :
    (pushBit b s).sr.toNat < 2 ^ (pushBit b s).cnt.toNat := by
  have hb : b.toNat < 2 := Bool.toNat_lt b
  rcases pushBit_cases b s with ⟨hc, he⟩ | ⟨hc, he⟩
  · simp [he]
  · have hlt : s.cnt.toNat < 7 := by
      have := s.cnt.isLt
      have : s.cnt.toNat ≠ 7 := fun h7 => hc (BitVec.eq_of_toNat_eq h7)
      omega
    have hcnt : (s.cnt + 1#3).toNat = s.cnt.toNat + 1 := by
      rw [BitVec.toNat_add]
      simp
      omega
    have h128 : s.sr.toNat < 128 := by
      have : 2 ^ s.cnt.toNat ≤ 2 ^ 7 := Nat.pow_le_pow_right (by decide) (by omega)
      omega
    simp only [he, countPushed_sr, countPushed_cnt, setSerializer_sr, setSerializer_cnt, hcnt,
      shiftIn_toNat _ _ h128, Nat.pow_succ]
    omega

/-- Pushing any bits keeps `SR[7:CNT] = 0` (R20). -/
theorem pushBits_bound (bs : Bits) {s : State} (h : s.sr.toNat < 2 ^ s.cnt.toNat) :
    (pushBits bs s).sr.toNat < 2 ^ (pushBits bs s).cnt.toNat := by
  induction bs generalizing s with
  | nil => exact h
  | cons b bs ih => exact ih (pushBit_bound b h)

end Sys2Proof.Machine
end

