-- ==== Sys2Proof/Laws/Table.lean ====
section
/-! SUPPORT. The code table: a read after a write, the canonical form, and prefix-freeness from the listed
entries. -/

namespace Sys2Proof.Machine

/-- A read after a write: the written symbol has the new code, every other one its old code. -/
theorem lookupCode_storeCode (x y : Byte) (c : Code) (ct : CodeTable) :
    lookupCode y (storeCode x c ct) = if y = x then some c else lookupCode y ct := by
  induction ct with
  | nil => simp [storeCode, lookupCode, eq_comm]
  | cons e t ih =>
    obtain ⟨z, d⟩ := e
    unfold storeCode
    by_cases h1 : x < z
    · rw [if_pos h1]
      by_cases hy : y = x
      · simp [lookupCode, hy]
      · simp [lookupCode, hy, Ne.symm hy]
    · rw [if_neg h1]
      by_cases h2 : x = z
      · rw [if_pos h2]
        by_cases hy : y = x
        · simp [lookupCode, hy]
        · simp [lookupCode, hy, Ne.symm hy, h2 ▸ Ne.symm hy]
      · rw [if_neg h2]
        by_cases hz : z = y
        · simp [lookupCode, hz, hz ▸ Ne.symm h2]
        · simp [lookupCode, hz, ih]

/-- A write lists no entry but the written one and the old ones. -/
theorem mem_storeCode {x : Byte} {c : Code} {ct : CodeTable} {e : Byte × Code}
    (h : e ∈ storeCode x c ct) : e = (x, c) ∨ e ∈ ct := by
  induction ct with
  | nil => simpa [storeCode] using h
  | cons f t ih =>
    obtain ⟨z, d⟩ := f
    unfold storeCode at h
    split_ifs at h with h1 h2
    · simpa using h
    · rcases List.mem_cons.mp h with h | h
      · exact .inl h
      · exact .inr (List.mem_cons_of_mem _ h)
    · rcases List.mem_cons.mp h with h | h
      · exact .inr (h ▸ List.mem_cons_self)
      · exact (ih h).imp_right (List.mem_cons_of_mem _)

/-- A write keeps the canonical form. -/
theorem tableCanonical_storeCode (x : Byte) (c : Code) {ct : CodeTable} (h : tableCanonical ct = true) :
    tableCanonical (storeCode x c ct) = true := by
  simp only [tableCanonical, decide_eq_true_eq] at h ⊢
  induction ct with
  | nil => simp [storeCode]
  | cons f t ih =>
    obtain ⟨z, d⟩ := f
    rw [List.pairwise_cons] at h
    unfold storeCode
    split_ifs with h1 h2
    · rw [List.pairwise_cons]
      refine ⟨fun e he => ?_, List.pairwise_cons.mpr h⟩
      rcases List.mem_cons.mp he with rfl | he
      · exact h1
      · exact BitVec.lt_trans h1 (h.1 e he)
    · subst h2
      exact List.pairwise_cons.mpr ⟨h.1, h.2⟩
    · rw [List.pairwise_cons]
      refine ⟨fun e he => ?_, ih h.2⟩
      rcases mem_storeCode he with rfl | he
      · show z < x
        have hne : x ≠ z := h2
        have : x.toNat ≠ z.toNat := fun hx => hne (BitVec.eq_of_toNat_eq hx)
        have : ¬ x.toNat < z.toNat := h1
        show z.toNat < x.toNat
        omega
      · exact h.1 e he

/-- The empty table is canonical. -/
theorem tableCanonical_nil : tableCanonical [] = true := by decide

/-- A code that is found is listed. -/
theorem mem_of_lookupCode {x : Byte} {c : Code} {ct : CodeTable} (h : lookupCode x ct = some c) :
    (x, c) ∈ ct := by
  induction ct with
  | nil => simp [lookupCode] at h
  | cons e t ih =>
    obtain ⟨z, d⟩ := e
    unfold lookupCode at h
    split_ifs at h with hz
    · simp_all
    · exact List.mem_cons_of_mem _ (ih h)

/-- In a canonical table a code that is listed is found. -/
theorem lookupCode_of_mem {x : Byte} {c : Code} {ct : CodeTable} (hc : tableCanonical ct = true)
    (h : (x, c) ∈ ct) : lookupCode x ct = some c := by
  simp only [tableCanonical, decide_eq_true_eq] at hc
  induction ct with
  | nil => simp at h
  | cons e t ih =>
    obtain ⟨z, d⟩ := e
    rw [List.pairwise_cons] at hc
    rcases List.mem_cons.mp h with h | h
    · cases h
      simp [lookupCode]
    · have hz : z ≠ x := by
        rintro rfl
        exact absurd (hc.1 _ h) (BitVec.lt_irrefl _)
      simp [lookupCode, hz, ih h hc.2]

/-- Prefix-freeness from the listed entries. -/
theorem prefixFree_of_entries {ct : CodeTable}
    (h : ∀ e ∈ ct, ∀ f ∈ ct, e.1 ≠ f.1 → ¬ e.2 <+: f.2) : PrefixFree ct :=
  fun _ _ _ _ hx hy hne => h _ (mem_of_lookupCode hx) _ (mem_of_lookupCode hy) hne

/-- A path that no listed entry has is no code. -/
theorem not_isCode_of_entries {ct : CodeTable} {p : Path} (h : ∀ e ∈ ct, e.2 ≠ p) : ¬ IsCode ct p :=
  fun ⟨_, hx⟩ => h _ (mem_of_lookupCode hx) rfl

/-- A path that is not the root and no proper prefix of a listed entry is not internal. -/
theorem not_isInternal_of_entries {ct : CodeTable} {p : Path} (h0 : p ≠ [])
    (h : ∀ e ∈ ct, p <+: e.2 → p = e.2) : ¬ IsInternal ct p := by
  rintro (h | ⟨_, _, hx, hp, hne⟩)
  · exact h0 h
  · exact hne (h _ (mem_of_lookupCode hx) hp)

end Sys2Proof.Machine
end

