-- ==== Sys2Proof/Laws/Tree.lean ====
section
/-! SUPPORT. The tree store: the map from paths of a tree, and what inserting one code does to it (R100). -/

namespace Sys2Proof.Machine

@[simp] theorem nodeAt_absent (p : Path) : Tree.absent.nodeAt p = none := by cases p <;> rfl

@[simp] theorem nodeAt_leaf_nil (x : Byte) : (Tree.leaf x).nodeAt [] = some (.leaf x) := rfl

@[simp] theorem nodeAt_leaf_cons (x : Byte) (b : Bool) (p : Path) : (Tree.leaf x).nodeAt (b :: p) = none := rfl

@[simp] theorem nodeAt_node_nil (l r : Tree) : (Tree.node l r).nodeAt [] = some .int := rfl

@[simp] theorem nodeAt_node_cons (l r : Tree) (b : Bool) (p : Path) :
    (Tree.node l r).nodeAt (b :: p) = (if b then r else l).nodeAt p := rfl

/-- A tree is determined by its map from paths to node kinds. -/
theorem Tree.eq_of_nodeAt {t u : Tree} (h : ∀ p, t.nodeAt p = u.nodeAt p) : t = u := by
  induction t generalizing u with
  | absent =>
    cases u with
    | absent => rfl
    | leaf x => simpa using h []
    | node l r => simpa using h []
  | leaf x =>
    cases u with
    | absent => simpa using h []
    | leaf y => simpa using h []
    | node l r => simpa using h []
  | node l r ihl ihr =>
    cases u with
    | absent => simpa using h []
    | leaf y => simpa using h []
    | node l' r' =>
      rw [ihl fun p => by simpa using h (false :: p), ihr fun p => by simpa using h (true :: p)]

/-- The map closed under parents, and no leaf with a child (R16 (b)), for every tree. -/
theorem nodeAt_parent {t : Tree} {p : Path} {b : Bool} (h : t.nodeAt (p ++ [b]) ≠ none) :
    t.nodeAt p = some .int := by
  induction p generalizing t with
  | nil => cases t <;> simp_all
  | cons c p ih =>
    cases t with
    | absent => simp at h
    | leaf x => simp at h
    | node l r => simpa using ih (by simpa using h)

/-- What inserting a code does when it succeeds: the code is a leaf, its proper prefixes are internal, every
other path is as before; before, no proper prefix was a leaf and the code's own place was undefined. -/
theorem insertCode_some {x : Byte} {c : Code} {t u : Tree} (h : insertCode x c t = some u) :
    (∀ p, u.nodeAt p = if p = c then some (.leaf x) else if p <+: c then some .int else t.nodeAt p) ∧
    t.nodeAt c = none ∧ ∀ p y, p <+: c → t.nodeAt p ≠ some (.leaf y) := by
  induction c generalizing t u with
  | nil =>
    cases t with
    | absent =>
      simp only [insertCode, Option.some.injEq] at h
      subst h
      refine ⟨fun p => ?_, rfl, by simp⟩
      cases p <;> simp
    | leaf y => simp [insertCode] at h
    | node l r => simp [insertCode] at h
  | cons b c ih =>
    cases t with
    | leaf y => simp [insertCode] at h
    | absent =>
      simp only [insertCode, Option.map_eq_some_iff] at h
      obtain ⟨v, hv, rfl⟩ := h
      obtain ⟨h1, h2, h3⟩ := ih hv
      refine ⟨fun p => ?_, by simp, by simp⟩
      cases p with
      | nil => cases b <;> simp
      | cons a p =>
        cases a <;> cases b <;> simp [h1, List.cons_prefix_cons]
    | node l r =>
      have key : ∀ (w : Tree), (b = true → w = r) → (b = false → w = l) →
          ∀ v, insertCode x c w = some v → (u = if b then .node l v else .node v r) →
          (∀ p, u.nodeAt p =
            if p = b :: c then some (.leaf x) else if p <+: b :: c then some .int else (Tree.node l r).nodeAt p) ∧
          (Tree.node l r).nodeAt (b :: c) = none ∧
          ∀ p y, p <+: b :: c → (Tree.node l r).nodeAt p ≠ some (.leaf y) := by
        intro w hw1 hw2 v hv hu
        obtain ⟨h1, h2, h3⟩ := ih hv
        have hsel : (if b then r else l) = w := by cases b <;> simp_all
        refine ⟨fun p => ?_, by simpa [hsel] using h2, fun p y hp => ?_⟩
        · subst hu
          cases p with
          | nil => cases b <;> simp
          | cons a p =>
            cases a <;> cases b <;> simp_all [List.cons_prefix_cons]
        · cases p with
          | nil => simp
          | cons a p =>
            obtain ⟨rfl, hq⟩ := List.cons_prefix_cons.mp hp
            simpa [hsel] using h3 p y hq
      unfold insertCode at h
      cases b with
      | true =>
        simp only [if_true, Option.map_eq_some_iff] at h
        obtain ⟨v, hv, rfl⟩ := h
        exact key r (fun _ => rfl) (by simp) v hv rfl
      | false =>
        simp only [Bool.false_eq_true, if_false, Option.map_eq_some_iff] at h
        obtain ⟨v, hv, rfl⟩ := h
        exact key l (by simp) (fun _ => rfl) v hv rfl

/-- When inserting a code fails: a leaf on the way (check (A)) or a node at its place (check (B)). -/
theorem insertCode_none {x : Byte} {c : Code} {t : Tree} (h : insertCode x c t = none) :
    t.nodeAt c ≠ none ∨ ∃ p y, p <+: c ∧ p ≠ c ∧ t.nodeAt p = some (.leaf y) := by
  induction c generalizing t with
  | nil => cases t <;> simp_all [insertCode]
  | cons b c ih =>
    cases t with
    | leaf y => exact .inr ⟨[], y, by simp, by simp, rfl⟩
    | absent =>
      simp only [insertCode, Option.map_eq_none_iff] at h
      rcases ih h with h | ⟨p, y, _, _, hy⟩
      · simp at h
      · simp at hy
    | node l r =>
      have hsel : insertCode x c (if b then r else l) = none := by
        unfold insertCode at h
        cases b <;> simpa using h
      rcases ih hsel with h | ⟨p, y, hp, hne, hy⟩
      · exact .inl (by simpa using h)
      · exact .inr ⟨b :: p, y, by simpa [List.cons_prefix_cons] using hp, by simpa using hne, by simpa using hy⟩

end Sys2Proof.Machine
end

