-- ==== Sys2Proof/Laws/Walker.lean ====
section
/-! SUPPORT. The walker (R105, R106): what one walked bit does, and what walking any bits leaves alone. -/

namespace Sys2Proof.Machine

/-- A walked bit that finds a node: a leaf is emitted and the walk is at the root again, or the walk has
moved to an internal node. -/
theorem walkBit_cases {b : Bool} {s t : State} (h : walkBit b s = some t) :
    (∃ x, s.nodeAt (s.pos ++ [b]) = some (.leaf x) ∧ t = moveTo [] (emit x s)) ∨
    (s.nodeAt (s.pos ++ [b]) = some .int ∧ t = moveTo (s.pos ++ [b]) s) := by
  unfold walkBit at h
  split at h
  · cases h
  · next x hx => exact .inl ⟨x, hx, by simpa using h.symm⟩
  · next hx => exact .inr ⟨hx, by simpa using h.symm⟩

/-- A walked bit that finds no node. -/
theorem walkBit_eq_none {b : Bool} {s : State} : walkBit b s = none ↔ s.nodeAt (s.pos ++ [b]) = none := by
  unfold walkBit
  split <;> simp_all

/-- One walked bit writes `OUT` and `POS` and nothing else. -/
theorem walkBit_frame {b : Bool} {s t : State} (h : walkBit b s = some t) :
    t = { s with out := t.out, pos := t.pos } := by
  rcases walkBit_cases h with ⟨_, _, rfl⟩ | ⟨_, rfl⟩ <;> rfl

theorem walkBit_ct {b : Bool} {s t : State} (h : walkBit b s = some t) : t.ct = s.ct :=
  (congrArg State.ct (walkBit_frame h) :)
theorem walkBit_tree {b : Bool} {s t : State} (h : walkBit b s = some t) : t.tree = s.tree :=
  (congrArg State.tree (walkBit_frame h) :)
theorem walkBit_sr {b : Bool} {s t : State} (h : walkBit b s = some t) : t.sr = s.sr :=
  (congrArg State.sr (walkBit_frame h) :)
theorem walkBit_cnt {b : Bool} {s t : State} (h : walkBit b s = some t) : t.cnt = s.cnt :=
  (congrArg State.cnt (walkBit_frame h) :)
theorem walkBit_ebits {b : Bool} {s t : State} (h : walkBit b s = some t) : t.ebits = s.ebits :=
  (congrArg State.ebits (walkBit_frame h) :)
theorem walkBit_lim {b : Bool} {s t : State} (h : walkBit b s = some t) : t.lim = s.lim :=
  (congrArg State.lim (walkBit_frame h) :)
theorem walkBit_drem {b : Bool} {s t : State} (h : walkBit b s = some t) : t.drem = s.drem :=
  (congrArg State.drem (walkBit_frame h) :)
theorem walkBit_dany {b : Bool} {s t : State} (h : walkBit b s = some t) : t.dany = s.dany :=
  (congrArg State.dany (walkBit_frame h) :)
theorem walkBit_amb {b : Bool} {s t : State} (h : walkBit b s = some t) : t.amb = s.amb :=
  (congrArg State.amb (walkBit_frame h) :)
theorem walkBit_phase {b : Bool} {s t : State} (h : walkBit b s = some t) : t.phase = s.phase :=
  (congrArg State.phase (walkBit_frame h) :)
theorem walkBit_err {b : Bool} {s t : State} (h : walkBit b s = some t) : t.err = s.err :=
  (congrArg State.err (walkBit_frame h) :)
theorem walkBit_port {b : Bool} {s t : State} (h : walkBit b s = some t) : t.port = s.port :=
  (congrArg State.port (walkBit_frame h) :)
theorem walkBit_freeIdx {b : Bool} {s t : State} (h : walkBit b s = some t) : t.freeIdx = s.freeIdx :=
  (congrArg State.freeIdx (walkBit_frame h) :)

/-- Walking bits writes `OUT`, `POS`, `DREM` and, at a fault, `ERR` and `PHASE`, and nothing else. -/
theorem walkBits_frame (bs : Bits) (s : State) :
    walkBits bs s = { s with
      out := (walkBits bs s).out, pos := (walkBits bs s).pos, drem := (walkBits bs s).drem,
      err := (walkBits bs s).err, phase := (walkBits bs s).phase } := by
  induction bs generalizing s with
  | nil => rfl
  | cons b bs ih =>
    unfold walkBits
    split
    · rfl
    · split
      · rfl
      · next t ht =>
        rw [ih (countWalked t), walkBit_frame ht]
        unfold countWalked
        split <;> rfl

@[simp] theorem walkBits_ct (bs : Bits) (s : State) : (walkBits bs s).ct = s.ct :=
  (congrArg State.ct (walkBits_frame bs s) :)
@[simp] theorem walkBits_tree (bs : Bits) (s : State) : (walkBits bs s).tree = s.tree :=
  (congrArg State.tree (walkBits_frame bs s) :)
@[simp] theorem walkBits_sr (bs : Bits) (s : State) : (walkBits bs s).sr = s.sr :=
  (congrArg State.sr (walkBits_frame bs s) :)
@[simp] theorem walkBits_cnt (bs : Bits) (s : State) : (walkBits bs s).cnt = s.cnt :=
  (congrArg State.cnt (walkBits_frame bs s) :)
@[simp] theorem walkBits_ebits (bs : Bits) (s : State) : (walkBits bs s).ebits = s.ebits :=
  (congrArg State.ebits (walkBits_frame bs s) :)
@[simp] theorem walkBits_lim (bs : Bits) (s : State) : (walkBits bs s).lim = s.lim :=
  (congrArg State.lim (walkBits_frame bs s) :)
@[simp] theorem walkBits_dany (bs : Bits) (s : State) : (walkBits bs s).dany = s.dany :=
  (congrArg State.dany (walkBits_frame bs s) :)
@[simp] theorem walkBits_amb (bs : Bits) (s : State) : (walkBits bs s).amb = s.amb :=
  (congrArg State.amb (walkBits_frame bs s) :)
@[simp] theorem walkBits_port (bs : Bits) (s : State) : (walkBits bs s).port = s.port :=
  (congrArg State.port (walkBits_frame bs s) :)
@[simp] theorem walkBits_freeIdx (bs : Bits) (s : State) : (walkBits bs s).freeIdx = s.freeIdx :=
  (congrArg State.freeIdx (walkBits_frame bs s) :)

end Sys2Proof.Machine
end

