-- ==== Sys2Proof/Tests/Slice0.lean ====
section
/-! SUPPORT. The author's tests: packets written out from the encoding, one-step vectors from
95_test_vectors.md, and for every statement with hypotheses a state and operands that meet them. -/

namespace Sys2Proof.Tests

open Sys2Proof Sys2Proof.Machine Sys2Proof.Codec

/-! ### Helpers -/

/-- The next state of an outcome. -/
def after : Host.Outcome State Fault Refusal → Option State
  | .next t => some t
  | .fault _ => none
  | .refused _ => none

/-- The next state when the host sends one packet. -/
def feed (p : Packet) (s : State) : Option State := after (step { s with port := [.packet p] })

/-- 95 section 3.2: the table `a:"1", b:"0"`. -/
def ctAB : CodeTable := [(0x61#8, [true]), (0x62#8, [false])]

/-- Its tree, 42_decode.md `DBEGIN` example. -/
def treeAB : Tree := .node (.leaf 0x62#8) (.leaf 0x61#8)

def sLoad : State := { State.reset with ct := ctAB }

/-- Two bits held. -/
def sEnc : State := { sLoad with phase := .enc, sr := 0x03#8, cnt := 2#3, ebits := 2#64 }

def sDec (lim : Bool) (n : Count) : State :=
  { sLoad with phase := .dec, tree := some treeAB, lim := lim, drem := n }

/-- 95 section 4.6: the incomplete table `a:"0", b:"110"`. -/
def ctGap : CodeTable := [(0x61#8, [false]), (0x62#8, [true, true, false])]

def treeGap : Tree :=
  .node (.leaf 0x61#8) (.node .absent (.node (.leaf 0x62#8) .absent))

/-- A legacy run with the walker at "1". -/
def sGap : State := { State.reset with ct := ctGap, phase := .dec, tree := some treeGap, pos := [true] }

/-- 95 section 5.1: `x:"00", y:"0"`, not prefix-free. -/
def sBad : State := { State.reset with ct := [(0x78#8, [false, false]), (0x79#8, [false])] }

def sFault : State := { sEnc with phase := .fault, err := .raised .unmappedSymbol }

/-! ### Well-formedness (smoke) -/

theorem test_wf_refuses_256_bit_code : (Instr.ldc 0#8 (List.replicate 256 true)).wf = false := by
  rw [Instr.wf, List.length_replicate]; rfl
theorem test_wf_takes_255_bit_code (x : Byte) : (Instr.ldc x (List.replicate 255 true)).wf = true := by
  rw [Instr.wf, List.length_replicate]; rfl

/-! ### Decoding, each constructor, from 30_encoding.md R62 to R67 and 95 section 2.1 -/

theorem test_decode_nop : decode [0b00000000#8] = .instr .nop := by decide
theorem test_decode_clr : decode [0b00000001#8] = .instr .clr := by decide
theorem test_decode_ldc :
    decode [0b00010000#8, 0b11111111#8, 0b00000101#8, 0b10110000#8] =
      .instr (.ldc 0xFF#8 [true, false, true, true, false]) := by decide
theorem test_decode_ldc_empty : decode [0x10#8, 0x41#8, 0x00#8] = .instr (.ldc 0x41#8 []) := by decide
theorem test_decode_ebegin : decode [0b00100000#8] = .instr .ebegin := by decide
theorem test_decode_enc : decode [0b00100001#8, 0b01100001#8] = .instr (.enc 0x61#8) := by decide
theorem test_decode_eend : decode [0b00100010#8] = .instr .eend := by decide
theorem test_decode_dbegin : decode [0b00110000#8] = .instr .dbegin := by decide
theorem test_decode_dbeginl :
    decode [0b00110001#8, 0x00#8, 0x00#8, 0x00#8, 0x00#8, 0x00#8, 0x00#8, 0x01#8, 0x00#8] =
      .instr (.dbeginl 256#64) := by decide
theorem test_decode_dec : decode [0b00110010#8, 0b11100000#8] = .instr (.dec 0xE0#8) := by decide
theorem test_decode_dend : decode [0b00110011#8] = .instr .dend := by decide

/-- 95 section 2.2, the malformed packets. -/
theorem test_decode_malformed :
    [[], [0x02#8], [0xFF#8, 0x00#8], [0x21#8], [0x21#8, 0x61#8, 0x00#8], [0x20#8, 0x00#8],
      [0x31#8, 0x00#8, 0x00#8, 0x00#8, 0x00#8, 0x00#8, 0x00#8, 0x04#8], [0x10#8, 0x61#8],
      [0x10#8, 0x61#8, 0x09#8, 0xAA#8], [0x10#8, 0x41#8, 0x00#8, 0x00#8], [0x10#8, 0x61#8, 0x01#8, 0xC0#8],
      [0x10#8, 0x62#8, 0x05#8, 0xB1#8]].map decode =
    [.illegal .emptyPacket, .illegal .reservedOpcode, .illegal .reservedOpcode, .illegal .wrongLength,
      .illegal .wrongLength, .illegal .wrongLength, .illegal .wrongLength, .illegal .wrongLength,
      .illegal .wrongLength, .illegal .wrongLength, .illegal .nonzeroPad, .illegal .nonzeroPad] := by decide

/-- The opcode table's rows by their 8 bits, operand bytes of zeros. -/
theorem test_decodeTableWord_rows :
    [0x00, 0x01, 0x10, 0x20, 0x21, 0x22, 0x30, 0x31, 0x32, 0x33].map (decodeTableWord 8) =
    [some .nop, some .clr, some (.ldc 0#8 []), some .ebegin, some (.enc 0#8), some .eend, some .dbegin,
      some (.dbeginl 0#64), some (.dec 0#8), some .dend] := by decide

/-- The second byte is bits 15..8. -/
theorem test_decodeTableWord_ldc : decodeTableWord 32 0x80016110 = some (.ldc 0x61#8 [true]) := by decide

theorem test_withFetchWord_runs_the_word :
    (after (step (State.reset.withFetchWord 32 0x80016110))).map State.ct = some [(0x61#8, [true])] := by decide

/-! ### One step each, from 95_test_vectors.md -/

theorem test_nop : (feed [0x00#8] sEnc).map State.status = some 0x00030A01#32 := by decide
theorem test_clr : (feed [0x01#8] sFault).map State.status = some 0x00000800#32 := by decide
theorem test_ldc_overwrites :
    (feed [0x10#8, 0x61#8, 0x02#8, 0x40#8] sLoad).map State.ct =
      some [(0x61#8, [false, true]), (0x62#8, [false])] := by decide
theorem test_ldc_empty_faults : (feed [0x10#8, 0x41#8, 0x00#8] State.reset).map State.status = some 0x00000807#32 := by
  decide
theorem test_ebegin : (feed [0x20#8] sLoad).map State.status = some 0x00000801#32 := by decide
theorem test_enc : (feed [0x21#8, 0x61#8] sEnc).map State.status = some 0x00070B01#32 := by decide
theorem test_enc_completes_a_byte :
    (feed [0x21#8, 0x62#8] { sEnc with sr := 0x37#8, cnt := 7#3 }).map State.out = some [0x6E#8] := by decide
theorem test_eend : (feed [0x22#8] { sEnc with sr := 0x0E#8, cnt := 4#3 }).map State.out = some [0xE0#8] := by decide
theorem test_dbegin : (feed [0x30#8] sLoad).map State.tree = some (some treeAB) := by decide
theorem test_dbegin_not_prefix_free : (feed [0x30#8] sBad).map State.status = some 0x00000807#32 := by decide
theorem test_dbeginl :
    (feed [0x31#8, 0#8, 0#8, 0#8, 0#8, 0#8, 0#8, 0#8, 4#8] sLoad).map State.status = some 0x00000842#32 := by decide
theorem test_dec_counted :
    (feed [0x32#8, 0xE0#8] (sDec true 4#64)).map State.out = some [0x61#8, 0x61#8, 0x61#8, 0x62#8] := by decide
theorem test_dec_absent_child :
    (feed [0x32#8, 0x28#8] { sGap with pos := [] }).map (fun t => (t.out, t.pos, t.status)) =
      some ([0x61#8, 0x61#8], [true], 0x0000008B#32) := by decide
theorem test_dend_legacy :
    (feed [0x33#8] { sDec false 0#64 with dany := true }).map State.status = some 0x000008A0#32 := by decide
theorem test_dend_missing_bits :
    (feed [0x33#8] { sDec true 7#64 with dany := true }).map State.status = some 0x000008CB#32 := by decide
theorem test_illegal_keeps_first_fault : (feed [0xFF#8] sFault).map State.status = some 0x00030A0F#32 := by decide
theorem test_reset_cuts_a_command :
    (after (step { sDec false 0#64 with port := [.resetDuring [0x32#8, 0xE0#8] 2] })).map
      (fun t => (t.out, t.status)) = some ([0x61#8, 0x61#8], 0x00000800#32) := by decide

/-! ### The host's side: 45_host_codec.md examples, 30_encoding.md R75 -/

/-- Example H1: "aaab" gives `b:"0", a:"1"`. -/
theorem test_host_table_aaab : codeTableFor fifo [0x61#8, 0x61#8, 0x61#8, 0x62#8] = ctAB := by decide

/-- 95 section 6.2. -/
theorem test_container :
    container ctAB 4#64 [0xE0#8] =
      [0x00#8, 0x02#8, 0x61#8, 0x01#8, 0x80#8, 0x62#8, 0x01#8, 0x00#8,
        0#8, 0#8, 0#8, 0#8, 0#8, 0#8, 0#8, 4#8, 0xE0#8] := by decide

/-- 45_host_codec.md R130 (b): the same file without `NBITS`; and each form read back. -/
theorem test_file_forms :
    legacyContainer ctAB [0xE0#8] = [0x00#8, 0x02#8, 0x61#8, 0x01#8, 0x80#8, 0x62#8, 0x01#8, 0x00#8, 0xE0#8] ∧
    readLegacyContainer (legacyContainer ctAB [0xE0#8]) = some (ctAB, [0xE0#8]) ∧
    readContainer (container ctAB 4#64 [0xE0#8]) = some (ctAB, 4#64, [0xE0#8]) := by decide

/-- R131, R133 (b), (c): the fault is reported and the bytes of the run are not. -/
theorem test_finishRun :
    finishRun [] { sFault with out := [0x61#8] } = .error (.blockFault .unmappedSymbol) ∧
    finishRun [0x61#8] { sLoad with out := [0x61#8, 0x62#8] } =
      .ok ([0x62#8], { sLoad with out := [0x61#8, 0x62#8] }) := ⟨rfl, rfl⟩

theorem test_assemble_enc : assembleLine ['E', 'N', 'C', ' ', '\'', 'a', '\''] = some [.enc 0x61#8] := by decide
theorem test_assemble_ldc :
    assembleLine ['L', 'D', 'C', ' ', '0', 'x', '6', '2', ',', ' ', '"', '1', '1', '0', '"', ';', 'b'] =
      some [.ldc 0x62#8 [true, true, false]] := by decide

/-! ### The states above meet the invariant -/

theorem prefixFree_ctAB : PrefixFree ctAB := prefixFree_of_entries (by decide)
theorem lengths_ctAB : LengthsLegal ctAB := by unfold LengthsLegal; decide
theorem not_prefixFree_sBad : ¬ PrefixFree sBad.ct := fun h =>
  h 0x79#8 0x78#8 [false] [false, false] (by decide) (by decide) (by decide) (by decide)

theorem inv_sLoad : Inv sLoad where
  canonical := by decide
  lengths := lengths_ctAB
  serializer := by decide
  errIffFault := by decide
  treeInDec := by decide
  noTreeOutside := by decide
  treeOfTable := by intro t h; cases h
  posAtRoot := by decide
  posInternal := by decide
  serializerIdle := by decide
  legacyCount := by decide

theorem inv_sEnc : Inv sEnc where
  canonical := by decide
  lengths := lengths_ctAB
  serializer := by decide
  errIffFault := by decide
  treeInDec := by decide
  noTreeOutside := by decide
  treeOfTable := by intro t h; cases h
  posAtRoot := by decide
  posInternal := by decide
  serializerIdle := by decide
  legacyCount := by decide

theorem inv_sDec (lim : Bool) (n : Count) (h : lim = false → n = 0#64) : Inv (sDec lim n) where
  canonical := by show tableCanonical ctAB = true; decide
  lengths := lengths_ctAB
  serializer := by simp [sDec, sLoad, State.reset]
  errIffFault := by simp [sDec, sLoad, State.reset]
  treeInDec := by simp [sDec]
  noTreeOutside := by rintro (h | h) <;> cases h
  treeOfTable := by
    intro t ht
    cases ht
    show buildTree ctAB = some treeAB
    decide
  posAtRoot := by intro _; rfl
  posInternal := by intro _; rfl
  serializerIdle := by intro _; exact ⟨rfl, rfl⟩
  legacyCount := h

theorem inv_sGap : Inv sGap where
  canonical := by decide
  lengths := by unfold LengthsLegal; decide
  serializer := by decide
  errIffFault := by decide
  treeInDec := by decide
  noTreeOutside := by decide
  treeOfTable := by intro t h; cases h; decide
  posAtRoot := by decide
  posInternal := by decide
  serializerIdle := by decide
  legacyCount := by decide

theorem inv_sBad : Inv sBad where
  canonical := by decide
  lengths := by unfold LengthsLegal; decide
  serializer := by decide
  errIffFault := by decide
  treeInDec := by decide
  noTreeOutside := by decide
  treeOfTable := by intro t h; cases h
  posAtRoot := by decide
  posInternal := by decide
  serializerIdle := by decide
  legacyCount := by decide

/-! ### Hypotheses of the statements, each clause at a boundary where it has one -/

/-- `EncodingIsCanonical`, `DecodedCommandsAreWellFormed`, `LdcCodeBitsAreMsbFirst`. -/
theorem test_hyp_EncodingIsCanonical :
    (Instr.ldc 0xFF#8 (List.replicate 255 true)).wf = true ∧
    decode [0x10#8, 0x61#8, 0x08#8, 0xAA#8] =
      .instr (.ldc 0x61#8 [true, false, true, false, true, false, true, false]) :=
  ⟨test_wf_takes_255_bit_code 0xFF#8, by decide⟩

/-- `PacketsDecodeExactlyWhenWellFormed`: a packet on each side. -/
theorem test_hyp_PacketsDecodeExactlyWhenWellFormed : ¬ (LengthLaw [] ∧ PadBitsZero []) ∧ LengthLaw [0x33#8] := by
  refine ⟨fun h => ?_, .inl ⟨0x33#8, by decide, rfl⟩⟩
  rcases h.1 with ⟨_, _, h⟩ | ⟨_, _, _, h⟩ | ⟨_, _, h⟩ | ⟨_, _, _, _, h⟩ <;> cases h

/-- `ReservedOpcodesAreIllegal`. -/
theorem test_hyp_ReservedOpcodesAreIllegal : (0x02#8 : Byte) ∉ definedOpcodes ∧ (0x34#8 : Byte) ∉ definedOpcodes := by
  decide

/-- `StepRunsTheDecodedCommand`. -/
theorem test_hyp_StepRunsTheDecodedCommand :
    ({ sLoad with port := [.packet [0x20#8]] } : State).port = [.packet [0x20#8]] ∧ sLoad.phase ≠ .fault ∧
    decode [0x20#8] = .instr .ebegin := by decide

/-- `IllegalPacketRaisesIllegalCommand`, `FaultsArePrecise` (second clause). -/
theorem test_hyp_IllegalPacketRaisesIllegalCommand :
    sEnc.phase ≠ .fault ∧ decode [] = .illegal .emptyPacket ∧
    (feed [] sEnc).map State.phase = some .fault := by decide

/-- `FaultPhaseDiscardsPackets`, `ClrGivesTheResetState`: a packet next to the exact one, and the exact one. -/
theorem test_hyp_FaultPhaseDiscardsPackets :
    sFault.phase = .fault ∧ ([0x01#8, 0x00#8] : Packet) ≠ [0x01#8] ∧ Instr.nop ≠ .clr ∧
    resetBlock sFault ≠ sFault := by decide

/-- `WaitingHoldsTheState`. -/
theorem test_hyp_WaitingHoldsTheState : State.reset.port = [] := rfl

/-- `ResetInputGivesTheResetState`: every clause, the last at a cut inside the output. -/
theorem test_hyp_ResetInputGivesTheResetState :
    ({ sFault with port := [.reset] } : State).port = [.reset] ∧
    ({ sFault with port := [.resetDuring [0x01#8] 0] } : State).port = [.resetDuring [0x01#8] 0] ∧
    ∃ u, step { sDec false 0#64 with port := [.packet [0x32#8, 0xE0#8]] } = .next u ∧
      (sDec false 0#64).out <+: [0x61#8] ∧ [0x61#8] <+: u.out :=
  ⟨rfl, rfl, _, rfl, by decide, by decide⟩

/-- `LdcWritesOneEntry`: the four clauses, a code at each end of the legal lengths. -/
theorem test_hyp_LdcWritesOneEntry :
    sFault.phase = .fault ∧ sEnc.phase = .enc ∧ (sDec true 0#64).phase = .dec ∧ sLoad.phase = .load ∧
    ([true] : Code) ≠ [] ∧ List.replicate 255 true ≠ [] :=
  ⟨by decide, by decide, by decide, by decide, by decide, List.cons_ne_nil _ _⟩

/-- `EbeginOpensAnEncodeRun`. -/
theorem test_hyp_EbeginOpensAnEncodeRun :
    sFault.phase = .fault ∧ sEnc.phase = .enc ∧ (sDec true 0#64).phase = .dec ∧ sLoad.phase = .load := by decide

/-- `EncPushesTheCode`: an unmapped symbol; and seven bits held with a code of 255 bits, the counter at the last
value before its end. -/
theorem test_hyp_EncPushesTheCode :
    sEnc.phase = .enc ∧ sEnc.codeOf 0x63#8 = none ∧
    (0x7F#8 : BitVec 8).toNat < 2 ^ (7#3 : BitVec 3).toNat ∧
    lookupCode 0x10#8 [(0x10#8, List.replicate 255 true)] = some (List.replicate 255 true) ∧
    (BitVec.ofNat 64 (2 ^ 64 - 256)).toNat + 255 < 2 ^ 64 :=
  ⟨by decide, by decide, by decide, rfl, by decide⟩

/-- `EendFlushesThePartialByte`: no bit held, one, seven. -/
theorem test_hyp_EendFlushesThePartialByte :
    ({ sEnc with sr := 0#8, cnt := 0#3 } : State).cnt = 0#3 ∧ ({ sEnc with sr := 1#8, cnt := 1#3 } : State).cnt ≠ 0#3 ∧
    ({ sEnc with sr := 0x7F#8, cnt := 7#3 } : State).sr.toNat < 2 ^ 7 ∧ sEnc.phase = .enc := by decide

/-- `DbeginOpensALegacyRun`, `DbeginlOpensACountedRun`: a good table, the empty one among them, and a bad one. -/
theorem test_hyp_DbeginOpensALegacyRun :
    sLoad.phase = .load ∧ tableCanonical sLoad.ct = true ∧ LengthsLegal sLoad.ct ∧ PrefixFree sLoad.ct ∧
    PrefixFree [] ∧ sBad.phase = .load ∧ tableCanonical sBad.ct = true ∧ LengthsLegal sBad.ct ∧ ¬ PrefixFree sBad.ct :=
  ⟨rfl, by decide, lengths_ctAB, prefixFree_ctAB, prefixFree_of_entries (by decide), rfl, by decide,
    inv_sBad.lengths, not_prefixFree_sBad⟩

/-- `DecEmitsTheCompletedCodes`, first case: no bit to walk, one, eight. -/
theorem test_hyp_DecEmitsTheCompletedCodes :
    (Inv (sDec true 0#64) ∧ (sDec true 0#64).pos ++ (sDec true 0#64).walkable 0xE0#8 = [] ++ [] ∧
      spell ctAB [] = some []) ∧
    (Inv (sDec true 1#64) ∧ (sDec true 1#64).pos ++ (sDec true 1#64).walkable 0xE0#8 = [true] ++ [] ∧
      spell ctAB [0x61#8] = some [true]) ∧
    (Inv (sDec false 0#64) ∧
      (sDec false 0#64).pos ++ (sDec false 0#64).walkable 0xFF#8 = List.replicate 8 true ++ [] ∧
      spell ctAB (List.replicate 8 0x61#8) = some (List.replicate 8 true)) ∧ IsInternal ctAB [] :=
  ⟨⟨inv_sDec _ _ (by decide), by decide, by decide⟩, ⟨inv_sDec _ _ (by decide), by decide, by decide⟩,
    ⟨inv_sDec _ _ (by decide), by decide, by decide⟩, .inl rfl⟩

/-- `DecEmitsTheCompletedCodes`, second case: a code split across two bytes, then an absent child at "10". -/
theorem test_hyp_DecEmitsTheCompletedCodes_absent :
    Inv sGap ∧ sGap.phase = .dec ∧ spell ctGap [0x62#8, 0x61#8] = some [true, true, false, false] ∧
    sGap.pos ++ sGap.walkable 0x90#8 =
      [true, true, false, false] ++ [true] ++ false :: [false, false, false] ∧
    IsInternal ctGap [true] ∧ ¬ IsInternal ctGap ([true] ++ [false]) ∧ ¬ IsCode ctGap ([true] ++ [false]) :=
  ⟨inv_sGap, rfl, by decide, by decide,
    .inr ⟨0x62#8, [true, true, false], by decide, by decide, by decide⟩,
    not_isInternal_of_entries (by decide) (by decide), not_isCode_of_entries (by decide)⟩

/-- `DendClosesTheDecodeRun`: the counted clauses on both sides of the end check, and the legacy clause. -/
theorem test_hyp_DendClosesTheDecodeRun :
    ((sDec true 1#64).lim = true ∧ (sDec true 1#64).drem ≠ 0#64) ∧
    ((sDec true 0#64).drem = 0#64 ∧ (sDec true 0#64).pos = []) ∧ sGap.pos ≠ [] ∧ sGap.lim = false ∧
    sGap.phase = .dec := by decide

/-- `OutOfPhaseCommandsRaiseSequenceError`. -/
theorem test_hyp_OutOfPhaseCommandsRaiseSequenceError :
    sLoad.phase ≠ .fault ∧ legalIn .dend sLoad.phase = false ∧ legalIn (.ldc 0#8 []) sEnc.phase = false := by decide

/-- `StatusPortLayout`: the first number that does not exist. -/
theorem test_hyp_StatusPortLayout : 3 ≤ 3 ∧ State.reset.readStatus 3 = 0#64 := by decide

/-- `FaultOutputIsErr`, `ResetMeetsTheInvariant`. -/
theorem test_hyp_FaultOutputIsErr : Inv sLoad := inv_sLoad

/-- `PhaseMovesOnlyAsTheTableSays`, `EachItemIsWrittenOnlyByItsCommands`, `EmissionBounds`,
`EveryFaultHasItsListedCause`: states that meet `Inv` outside `FAULT`, commands that answer a next state, and each
fault kind a command can raise. -/
theorem test_hyp_exec_answers :
    (after (exec (.ldc 0x63#8 [true]) sBad)).map State.ct =
      some [(0x63#8, [true]), (0x78#8, [false, false]), (0x79#8, [false])] ∧
    (Inv sEnc ∧ Inv sBad ∧ Inv sLoad ∧ Inv sGap ∧ Inv (sDec true 1#64)) ∧
    (sEnc.phase ≠ .fault ∧ sBad.phase ≠ .fault ∧ sLoad.phase ≠ .fault ∧ sGap.phase ≠ .fault ∧
      (sDec true 1#64).phase ≠ .fault) ∧
    (after (exec (.enc 0x63#8) sEnc)).map State.err = some (.raised .unmappedSymbol) ∧
    (after (exec .dbegin sBad)).map State.err = some (.raised .corruptCodeTable) ∧
    (after (exec (.ldc 0x00#8 []) sLoad)).map State.err = some (.raised .corruptCodeTable) ∧
    (after (exec .eend sLoad)).map State.err = some (.raised .sequenceError) ∧
    (after (exec (.dec 0x00#8) sGap)).map State.err = some (.raised .malformedPayload) ∧
    (after (exec .dend (sDec true 1#64))).map State.err = some (.raised .malformedPayload) :=
  ⟨by decide, ⟨inv_sEnc, inv_sBad, inv_sLoad, inv_sGap, inv_sDec _ _ (by decide)⟩, by decide⟩

/-- `FaultsArePrecise`: a fault of `DEC` and one of another command. -/
theorem test_hyp_FaultsArePrecise :
    sGap.phase ≠ .fault ∧ (after (exec (.dec 0x00#8) sGap)).map State.phase = some .fault ∧
    (after (exec .dend sLoad)).map State.phase = some .fault := by decide

/-- `FaultIsLeftOnlyByClrOrReset`: the block stays in `FAULT`, and leaves it. -/
theorem test_hyp_FaultIsLeftOnlyByClrOrReset :
    sFault.phase = .fault ∧ (feed [0x22#8] sFault).map State.phase = some .fault ∧
    (feed [0x01#8] sFault).map State.phase = some .load := by decide

/-- `State.clearsNext` as a premise of `FaultIsLeftOnlyByClrOrReset` and `AmbiguousPaddingIsAWarning`. -/
theorem test_hyp_clearsNext :
    ({ sFault with port := [.packet [0x01#8]] } : State).clearsNext ∧
    ({ sFault with port := [.resetDuring [0x22#8] 1] } : State).clearsNext ∧ sFault.phase = .fault :=
  ⟨⟨[], .inl rfl⟩, ⟨[], .inr (.inr ⟨_, _, rfl⟩)⟩, rfl⟩

/-- `TableIsReadOnlyInsideARun`, `OutputOnlyGrows`, `EveryStepKeepsTheInvariant`: steps that answer a next
state. -/
theorem test_hyp_step_answers :
    Inv sEnc ∧ sEnc.phase = .enc ∧ (feed [0x21#8, 0x61#8] sEnc).map State.ct = some ctAB ∧
    (feed [0x10#8, 0x63#8, 0x02#8, 0x40#8] State.reset).map State.ct = some [(0x63#8, [false, true])] :=
  ⟨inv_sEnc, rfl, by decide, by decide⟩

/-- `AmbiguousPaddingIsAWarning`: `AMB` rises, and falls without a reset. -/
theorem test_hyp_AmbiguousPaddingIsAWarning :
    ({ sDec false 0#64 with dany := true } : State).amb = false ∧
    (feed [0x33#8] { sDec false 0#64 with dany := true }).map State.amb = some true ∧
    (feed [0x30#8] { sLoad with amb := true }).map State.amb = some false := by decide

/-- `BuildTreeMakesTheTrie`, `BuiltTreeHasItsShape`. -/
theorem test_hyp_BuildTreeMakesTheTrie :
    tableCanonical ctAB = true ∧ (∀ e ∈ ctAB, e.2 ≠ []) ∧ LengthsLegal ctAB ∧ buildTree ctAB = some treeAB ∧
    ctAB.reverse.Perm ctAB :=
  ⟨by decide, by decide, lengths_ctAB, by decide, List.reverse_perm _⟩

/-- `WalkIsThePathFormulation`: a bit to a leaf, a bit to an internal node, a bit to an absent child. -/
theorem test_hyp_WalkIsThePathFormulation :
    Inv sGap ∧ sGap.phase = .dec ∧ ({ sGap with pos := [] } : State).codeOf 0x61#8 = some ([] ++ [false]) ∧
    IsInternal ctGap ([true] ++ [true]) ∧ ¬ IsCode ctGap ([true] ++ [false]) ∧
    ¬ IsInternal ctGap ([true] ++ [false]) :=
  ⟨inv_sGap, rfl, by decide, .inr ⟨0x62#8, [true, true, false], by decide, by decide, by decide⟩,
    not_isCode_of_entries (by decide), not_isInternal_of_entries (by decide) (by decide)⟩

/-- The input of a run of "aab", then a further event. -/
def aab : List Byte := [0x61#8, 0x61#8, 0x62#8]

/-- `EncodeRunEmitsThePackedCodes`: a run and the empty run. -/
theorem test_hyp_EncodeRunEmitsThePackedCodes :
    sLoad.phase = .load ∧ spell sLoad.ct aab = some [true, true, false] ∧ spell sLoad.ct [] = some [] ∧
    ([true, true, false] : Bits).length < 2 ^ 64 ∧
    ({ sLoad with port := packetsOf (.ebegin :: (aab.map .enc ++ [.eend])) ++ [.reset] } : State).port =
      packetsOf (.ebegin :: (aab.map .enc ++ [.eend])) ++ [.reset] := by decide

/-- `Inv` does not depend on what the host has still to send. -/
theorem inv_port {s : State} (h : Inv s) (p : List HostEvent) : Inv { s with port := p } :=
  ⟨h.canonical, h.lengths, h.serializer, h.errIffFault, h.treeInDec, h.noTreeOutside, h.treeOfTable, h.posAtRoot,
    h.posInternal, h.serializerIdle, h.legacyCount⟩

/-- `CountedRunDecodesExactly`, `LegacyRunOverReadsThePadBits`: the run of the packed bits of "aab", counted or
legacy, sent to a state that meets `Inv`; a code of zeros of length 1 is loaded. -/
theorem test_hyp_CountedRunDecodesExactly (run : List HostEvent) :
    Inv { sLoad with port := run } ∧ sLoad.phase = .load ∧ PrefixFree sLoad.ct ∧
    spell sLoad.ct aab = some [true, true, false] ∧ ([true, true, false] : Bits).length < 2 ^ 64 ∧
    lookupCode 0x62#8 sLoad.ct = some (List.replicate 1 false) ∧ padBits 3 = 5 :=
  ⟨inv_port inv_sLoad run, rfl, prefixFree_ctAB, by decide, by decide, by decide, by decide⟩

/-- `LegacyRunOverReadsThePadBits`, the clause of no pad bits: the empty run, and eight one-bit codes. -/
theorem test_hyp_LegacyRunOverReadsThePadBits_exact (run : List HostEvent) :
    Inv { sLoad with port := run } ∧ spell sLoad.ct [] = some [] ∧ padBits 0 = 0 ∧
    spell sLoad.ct (List.replicate 8 0x61#8) = some (List.replicate 8 true) ∧
    padBits (List.replicate 8 true).length = 0 :=
  ⟨inv_port inv_sLoad run, by decide, by decide, by decide, by decide⟩

/-- `DryDecodeRunValidatesTheTable`, both clauses. -/
theorem test_hyp_DryDecodeRunValidatesTheTable :
    (Inv { sBad with port := packetsOf [.dbegin, .dend] ++ [] } ∧ sBad.phase = .load ∧ ¬ PrefixFree sBad.ct) ∧
    Inv { sLoad with port := packetsOf [.dbegin, .dend] ++ [] } ∧ PrefixFree sLoad.ct :=
  ⟨⟨inv_port inv_sBad _, rfl, not_prefixFree_sBad⟩, inv_port inv_sLoad _, prefixFree_ctAB⟩

/-- `HostsReportACorruptTable`. -/
theorem test_hyp_HostsReportACorruptTable :
    sFault.port = [] ∧ tableCanonical sBad.ct = true ∧ LengthsLegal sBad.ct ∧ ¬ PrefixFree sBad.ct :=
  ⟨rfl, by decide, inv_sBad.lengths, not_prefixFree_sBad⟩

/-- `DecompressOfCompressIsTheInput`, `LegacyHostOverReadsAndSaysSo`. -/
theorem test_hyp_DecompressOfCompressIsTheInput :
    State.reset.port = [] ∧ sFault.port = [] ∧
    ∀ e, spell (codeTableFor fifo [0x61#8]) [0x61#8] = some e → e.length < 2 ^ 64 := by
  refine ⟨rfl, rfl, fun e h => ?_⟩
  have h1 : spell (codeTableFor fifo [0x61#8]) [0x61#8] = some [false] := by decide
  rw [h1] at h
  cases h
  decide

end Sys2Proof.Tests
end

section
/-! PROOFS. `Encode` undoes `Decode` (30_encoding.md section 4): whatever decodes is the packet of its command. -/

namespace Sys2Proof

/-- The first byte of a packed string is packed from its first 8 bits. -/
theorem packByte_byteBits_append (d : Byte) (e : Bits) : packByte (byteBits d ++ e) = d :=
  packByte_byteBits d

/-- A byte whose low `8 - n` bits are 0 is packed from its first `n` bits. -/
theorem packByte_take_byteBits {n : Nat} {d : Byte} (hn : n < 8)
    (hpad : (d &&& BitVec.ofNat 8 (2 ^ (8 - n) - 1)) = 0#8) : packByte ((byteBits d).take n) = d := by
  have key : ∀ n < 8, ∀ d : Byte, (d &&& BitVec.ofNat 8 (2 ^ (8 - n) - 1)) = 0#8 →
      packByte ((byteBits d).take n) = d := by decide
  exact key n hn d hpad

theorem unpack_cons (b : Byte) (bs : List Byte) : unpack (b :: bs) = byteBits b ++ unpack bs := rfl

/-- The pad bits of a code longer than a byte are those of the code without its first byte. -/
theorem padClean_cons {len : Nat} {b : Byte} {bs : List Byte} (h8 : 8 ≤ len)
    (hl : bs.length = bytesFor (len - 8)) (h : padClean len (b :: bs) = true) :
    padClean (len - 8) bs = true := by
  have hmod : (len - 8) % 8 = len % 8 := by omega
  cases bs with
  | nil =>
    have : len % 8 = 0 := by simp only [List.length_nil, bytesFor] at hl; omega
    simp [padClean, hmod, this]
  | cons c cs => simpa [padClean, hmod] using h

/-- Packing the first `len` bits of the code bytes of an `LDC` packet gives the code bytes back (R65, R66). -/
theorem pack_take_unpack {len : Nat} {cb : List Byte} (hl : cb.length = bytesFor len)
    (hpad : padClean len cb = true) : pack ((unpack cb).take len) = cb := by
  induction cb generalizing len with
  | nil => simp [unpack]
  | cons b bs ih =>
    have hpos : 0 < len := by simp only [List.length_cons, bytesFor] at hl; omega
    have hne : (unpack (b :: bs)).take len ≠ [] := by
      apply List.ne_nil_of_length_pos
      simp only [List.length_take, unpack_length, List.length_cons]; omega
    rw [pack_eq_cons hne, unpack_cons]
    by_cases h8 : 8 ≤ len
    · have hl' : bs.length = bytesFor (len - 8) := by
        simp only [List.length_cons, bytesFor] at hl ⊢; omega
      have htake : (byteBits b ++ unpack bs).take len = byteBits b ++ (unpack bs).take (len - 8) := by
        rw [List.take_append, List.take_of_length_le (by simpa using h8), byteBits_length]
      rw [htake, packByte_byteBits_append, List.drop_left' (byteBits_length b),
        ih hl' (padClean_cons h8 hl' hpad)]
    · have hbs : bs = [] := by
        apply List.eq_nil_of_length_eq_zero
        simp only [List.length_cons, bytesFor] at hl; omega
      subst hbs
      have hmod : len % 8 = len := by omega
      have hmask : (b &&& BitVec.ofNat 8 (2 ^ (8 - len) - 1)) = 0#8 := by
        simpa [padClean, hmod, Nat.ne_of_gt hpos] using hpad
      have hdrop : ((byteBits b).take len).drop 8 = [] := by simp
      simp [unpack, packByte_take_byteBits (Nat.lt_of_not_le h8) hmask, hdrop]

/-- The 8 bytes of a count read from 8 bytes are these bytes (R67, R74). -/
theorem bytesOfCount_countOfBytes {ops : List Byte} (h : ops.length = 8) :
    bytesOfCount (countOfBytes ops) = ops := by
  match ops, h with
  | [b1, b2, b3, b4, b5, b6, b7, b8], _ =>
    have hrange : List.range 8 = [0, 1, 2, 3, 4, 5, 6, 7] := rfl
    simp only [bytesOfCount, countOfBytes, beNat, hrange, List.map_cons, List.map_nil, List.foldl_cons,
      List.foldl_nil, Nat.zero_mul, Nat.zero_add, List.cons.injEq, and_true]
    refine ⟨?_, ?_, ?_, ?_, ?_, ?_, ?_, ?_⟩ <;> apply BitVec.eq_of_toNat_eq <;>
      simp only [BitVec.toNat_setWidth, BitVec.toNat_ushiftRight, BitVec.toNat_ofNat,
        Nat.shiftRight_eq_div_pow] <;>
      omega

/-! ### Each format (R62, R64) -/

theorem decodeZ_eq_instr {i j : Instr} {ops : List Byte} (h : decodeZ i ops = .instr j) : ops = [] ∧ j = i := by
  cases ops with
  | nil => exact ⟨rfl, by simpa [decodeZ] using h.symm⟩
  | cons _ _ => simp [decodeZ] at h

theorem decodeB_eq_instr {f : Byte → Instr} {j : Instr} {ops : List Byte} (h : decodeB f ops = .instr j) :
    ∃ x, ops = [x] ∧ j = f x := by
  unfold decodeB at h
  split at h
  · next x => exact ⟨x, rfl, by simpa using h.symm⟩
  · cases h

theorem decodeQ_eq_instr {f : Count → Instr} {j : Instr} {ops : List Byte} (h : decodeQ f ops = .instr j) :
    ops.length = 8 ∧ j = f (countOfBytes ops) := by
  unfold decodeQ at h
  split at h
  · next hl => exact ⟨hl, by simpa using h.symm⟩
  · cases h

theorem decodeT_eq_instr {j : Instr} {ops : List Byte} (h : decodeT ops = .instr j) :
    ∃ sym len cb, ops = sym :: len :: cb ∧ cb.length = bytesFor len.toNat ∧ padClean len.toNat cb = true ∧
      j = .ldc sym ((unpack cb).take len.toNat) := by
  unfold decodeT at h
  split at h
  · next sym len cb =>
    split_ifs at h with hl hp
    exact ⟨sym, len, cb, rfl, hl, hp, by simpa using h.symm⟩
  · cases h

/-- The operand bytes of an `LDC` packet that decodes are those of its command (R65, R66, R74). -/
theorem operandBytes_of_decodeT {j : Instr} {ops : List Byte} (h : decodeT ops = .instr j) :
    ∃ sym code, j = .ldc sym code ∧ operandBytes j = ops := by
  obtain ⟨sym, len, cb, rfl, hl, hp, rfl⟩ := decodeT_eq_instr h
  refine ⟨sym, _, rfl, ?_⟩
  have hlen : ((unpack cb).take len.toNat).length = len.toNat := by
    simp only [List.length_take, unpack_length, hl, bytesFor]; omega
  simp only [operandBytes, hlen, BitVec.ofNat_toNat, BitVec.setWidth_eq, pack_take_unpack hl hp]

/-- `Encode(Decode(P)) = P` for every packet that decodes (30_encoding.md section 4). -/
theorem encode_of_decode {p : Packet} {i : Instr} (h : decode p = .instr i) : encode i = p := by
  cases p with
  | nil => cases h
  | cons op ops =>
    simp only [decode] at h
    split_ifs at h
    · obtain ⟨rfl, rfl⟩ := decodeZ_eq_instr h; subst op; rfl
    · obtain ⟨rfl, rfl⟩ := decodeZ_eq_instr h; subst op; rfl
    · obtain ⟨sym, code, rfl, rfl⟩ := operandBytes_of_decodeT h; subst op; rfl
    · obtain ⟨rfl, rfl⟩ := decodeZ_eq_instr h; subst op; rfl
    · obtain ⟨x, rfl, rfl⟩ := decodeB_eq_instr h; subst op; rfl
    · obtain ⟨rfl, rfl⟩ := decodeZ_eq_instr h; subst op; rfl
    · obtain ⟨rfl, rfl⟩ := decodeZ_eq_instr h; subst op; rfl
    · obtain ⟨hl, rfl⟩ := decodeQ_eq_instr h
      subst op
      simp only [encode, opcode, operandBytes, bytesOfCount_countOfBytes hl]
    · obtain ⟨x, rfl, rfl⟩ := decodeB_eq_instr h; subst op; rfl
    · obtain ⟨rfl, rfl⟩ := decodeZ_eq_instr h; subst op; rfl

end Sys2Proof
end

section
/-! PROOFS. Who writes the code table (R14): `LDC` one entry, `CLR` and reset all of them, nothing else any. -/

namespace Sys2Proof.Machine

/-! ### The bodies that leave the table alone -/

@[simp] theorem openEncode_ct (s : State) : (openEncode s).ct = s.ct := rfl

@[simp] theorem encodeSymbol_ct (x : Byte) (s : State) : (encodeSymbol x s).ct = s.ct := by
  unfold encodeSymbol
  split
  · exact raise_ct _ _
  · exact pushBits_ct _ _

@[simp] theorem flush_ct (s : State) : (flush s).ct = s.ct := by
  unfold flush
  split <;> simp

@[simp] theorem closeEncode_ct (s : State) : (closeEncode s).ct = s.ct := by
  rw [closeEncode, setPhase_ct, flush_ct]

@[simp] theorem openDecode_ct (lim : Bool) (n : Count) (s : State) : (openDecode lim n s).ct = s.ct := by
  unfold openDecode
  split <;> rfl

@[simp] theorem decodeByte_ct (d : Byte) (s : State) : (decodeByte d s).ct = s.ct := by
  rw [decodeByte, walkBits_ct, markAny_ct]

@[simp] theorem endDecode_ct (s : State) : (endDecode s).ct = s.ct := by
  unfold endDecode
  split <;> simp

/-- The checks common to the commands add no write of the table. -/
theorem command_ct {body : State → State} (legal : Phase) {s : State} (h : (body s).ct = s.ct) :
    (command legal body s).ct = s.ct := by
  rcases command_cases legal body s with ⟨_, he⟩ | ⟨_, _, he⟩ | ⟨_, _, he⟩ <;> rw [he]
  · exact raise_ct _ _
  · exact h

/-! ### The commands, a packet -/

/-- `LDC` leaves the table alone, or is in `LOAD` and stores its code, which is not empty (R83). -/
theorem execLdc_cases {x : Byte} {c : Code} {s t : State} (h : execLdc x c s = .next t) :
    t.ct = s.ct ∨ (s.phase = .load ∧ c ≠ [] ∧ t = setCode x c s) := by
  obtain rfl : command .load (loadCode x c) s = t := by simpa [execLdc] using h
  rcases command_cases .load (loadCode x c) s with ⟨_, he⟩ | ⟨_, _, he⟩ | ⟨_, hp, he⟩ <;> rw [he]
  · exact .inl rfl
  · exact .inl (raise_ct _ _)
  · by_cases hc : c = []
    · exact .inl (by simp [loadCode, ldcLen, hc])
    · exact .inr ⟨hp, hc, by simp [loadCode, ldcLen, hc]⟩

/-- A command leaves the table alone, or is `CLR`, or is an `LDC` in `LOAD` that stores its code. -/
theorem exec_ct_cases {i : Instr} {s t : State} (h : exec i s = .next t) :
    t.ct = s.ct ∨ (i = .clr ∧ t = resetBlock s) ∨
      ∃ x c, i = .ldc x c ∧ s.phase = .load ∧ c ≠ [] ∧ t = setCode x c s := by
  cases i with
  | nop => cases h; exact .inl rfl
  | clr => cases h; exact .inr (.inl ⟨rfl, rfl⟩)
  | ldc x c => exact (execLdc_cases h).imp_right fun hs => .inr ⟨x, c, rfl, hs⟩
  | ebegin => cases h; exact .inl (command_ct _ (openEncode_ct s))
  | enc x => cases h; exact .inl (command_ct _ (encodeSymbol_ct x s))
  | eend => cases h; exact .inl (command_ct _ (closeEncode_ct s))
  | dbegin => cases h; exact .inl (command_ct _ (openDecode_ct _ _ s))
  | dbeginl n => cases h; exact .inl (command_ct _ (openDecode_ct _ _ s))
  | dec d => cases h; exact .inl (command_ct _ (decodeByte_ct d s))
  | dend => cases h; exact .inl (command_ct _ (endDecode_ct s))

/-- A packet leaves the table alone, or is `CLR`'s, or is in `LOAD` that of an `LDC` that stores its code. -/
theorem runPacket_ct_cases {p : Packet} {s t : State} (h : runPacket p s = .next t) :
    t.ct = s.ct ∨ (p = [0x01#8] ∧ t = resetBlock s) ∨
      ∃ x c, p = encode (.ldc x c) ∧ s.phase = .load ∧ c ≠ [] ∧ t = setCode x c s := by
  rcases runPacket_cases h with ⟨_, _, rfl⟩ | ⟨_, hp, ht⟩ | ⟨_, _, rfl⟩ | ⟨_, i, hd, he⟩
  · exact .inl rfl
  · exact .inr (.inl ⟨hp, ht⟩)
  · exact .inl (raise_ct _ _)
  · have hp := (encode_of_decode hd).symm
    rcases exec_ct_cases he with hct | ⟨rfl, ht⟩ | ⟨x, c, rfl, hs⟩
    · exact .inl hct
    · exact .inr (.inl ⟨hp, ht⟩)
    · exact .inr (.inr ⟨x, c, hp, hs⟩)

/-! ### A step -/

@[simp] theorem cutByReset_block (s : State) (k : Nat) (t : State) : (cutByReset s k t).block = State.reset := rfl

/-- A step leaves the table alone, or gives the block its reset state, or takes in `LOAD` the packet of an `LDC`
that stores its code. -/
theorem step_ct_cases {s t : State} (h : step s = .next t) :
    t.ct = s.ct ∨ (s.clearsNext ∧ t.block = State.reset) ∨
      ∃ x c rest, s.port = .packet (encode (.ldc x c)) :: rest ∧ s.phase = .load ∧ c ≠ [] ∧
        t = setCode x c (consume rest s) := by
  rcases step_cases h with ⟨_, rfl⟩ | ⟨p, rest, hp, hr⟩ | ⟨rest, hp, rfl⟩ | ⟨p, k, rest, u, hp, _, rfl⟩
  · exact .inl rfl
  · rcases runPacket_ct_cases hr with hct | ⟨rfl, rfl⟩ | ⟨x, c, rfl, hph, hc, ht⟩
    · exact .inl hct
    · exact .inr (.inl ⟨⟨rest, .inl hp⟩, resetBlock_block _⟩)
    · exact .inr (.inr ⟨x, c, rest, hp, hph, hc, ht⟩)
  · exact .inr (.inl ⟨⟨rest, .inr (.inl hp)⟩, resetBlock_block _⟩)
  · exact .inr (.inl ⟨⟨rest, .inr (.inr ⟨p, k, hp⟩)⟩, cutByReset_block _ _ _⟩)

theorem codeOf_setCode (x y : Byte) (c : Code) (s : State) :
    (setCode x c s).codeOf y = if y = x then some c else s.codeOf y :=
  lookupCode_storeCode x y c s.ct

/-- Settles O33: of the things a step can do, only an `LDC` in `LOAD` writes the table without a reset of the
block, and `LOAD` is neither phase of a run. -/
theorem tableIsReadOnlyInsideARun : Obligations.TableIsReadOnlyInsideARun := by
  intro s t h
  rcases step_ct_cases h with hct | hclr | ⟨x, c, rest, hp, hload, hc, rfl⟩
  · exact ⟨.inl hct, fun _ => .inl hct⟩
  · exact ⟨.inr (.inl hclr), fun _ => .inr hclr⟩
  · refine ⟨.inr (.inr ⟨x, c, rest, hp, hload, hc, ?_, fun y hy => ?_⟩), fun hrun => ?_⟩
    · rw [codeOf_setCode, if_pos rfl]
    · rw [codeOf_setCode, if_neg hy]; rfl
    · rw [hload] at hrun
      exact absurd hrun (by decide)

end Sys2Proof.Machine
end

section
/-! PROOFS. The reset state (R31) and the status port (R26, R27). -/

namespace Sys2Proof.Machine

@[simp] theorem reset_block : State.reset.block = State.reset := rfl

theorem exec_clr (s : State) : exec .clr s = .next (resetBlock s) := rfl

/-- The fields of `STATUS` of two bits and more, by the layout of R26: each is what remains of the concatenation
after the fields below it. -/
theorem status_wide_fields (s : State) :
    s.status.extractLsb' 0 2 = s.phase.bits ∧ s.status.extractLsb' 2 3 = s.err.bits ∧
    s.status.extractLsb' 8 3 = s.cnt ∧ s.status.extractLsb' 12 4 = 0#4 ∧
    s.status.extractLsb' 16 8 = s.sr ∧ s.status.extractLsb' 24 8 = 0#8 := by
  simp (disch := decide) only [State.status, BitVec.extractLsb'_append_eq_right,
    BitVec.extractLsb'_append_eq_of_le, Nat.reduceSub, BitVec.extractLsb'_eq_self, and_self]

/-- The fields of `STATUS` of one bit, by the layout of R26. -/
theorem status_one_bit_fields (s : State) :
    s.status.getLsbD 5 = s.amb ∧ s.status.getLsbD 6 = s.lim ∧ s.status.getLsbD 7 = s.dany ∧
    s.status.getLsbD 11 = s.atRoot := by
  simp only [State.status, BitVec.getLsbD_append, BitVec.getLsbD_ofBool, Nat.reduceLT, Nat.reduceSub, if_true,
    if_false, decide_true, Bool.true_and, and_self]

theorem readStatus_of_three_le (s : State) {n : Nat} (h : 3 ≤ n) : s.readStatus n = 0#64 := by
  match n, h with
  | n + 3, _ => rfl

theorem atRoot_iff (s : State) : s.atRoot = true ↔ s.pos = [] := List.isEmpty_iff

/-- Settles O14: the reset state is written out field by field, and `CLR` gives the block this state. -/
theorem resetStateIsAsListed : Obligations.ResetStateIsAsListed := by
  refine ⟨fun _ => rfl, rfl, rfl, rfl, rfl, rfl, rfl, rfl, rfl, rfl, rfl, rfl, by decide, by decide, fun s => ?_⟩
  exact ⟨resetBlock s, exec_clr s, by rw [resetBlock_block, reset_block]⟩

/-- Settles O26, field by field of the layout. -/
theorem statusPortLayout : Obligations.StatusPortLayout := by
  intro s
  obtain ⟨hphase, herr, hcnt, hzero, hsr, htop⟩ := status_wide_fields s
  obtain ⟨hamb, hlim, hdany, hroot⟩ := status_one_bit_fields s
  exact ⟨rfl, rfl, rfl, rfl, rfl, fun n => readStatus_of_three_le s, hphase, herr, hamb, hlim, hdany, hcnt,
    by rw [hroot, atRoot_iff], hzero, hsr, htop⟩

end Sys2Proof.Machine
end

section
/-! PROOFS. What the decoder answers for each opcode (R61, R63, R69, R70): the format of the operand bytes. -/

namespace Sys2Proof

theorem decode_ldc (ops : List Byte) : decode (0x10#8 :: ops) = decodeT ops := rfl

theorem decode_dbeginl (ops : List Byte) : decode (0x31#8 :: ops) = decodeQ .dbeginl ops := rfl

/-- The opcodes of format `Z` decode without an operand (R62, R63). -/
theorem decode_of_formatZ {op : Byte} (h : op ∈ [0x00#8, 0x01#8, 0x20#8, 0x22#8, 0x30#8, 0x33#8]) :
    ∃ i, decode [op] = .instr i := by
  simp only [List.mem_cons, List.not_mem_nil, or_false] at h
  rcases h with rfl | rfl | rfl | rfl | rfl | rfl <;> exact ⟨_, rfl⟩

/-- The opcodes of format `B` decode with one operand byte (R62, R63). -/
theorem decode_of_formatB {op : Byte} (h : op ∈ [0x21#8, 0x32#8]) (x : Byte) :
    ∃ i, decode [op, x] = .instr i := by
  simp only [List.mem_cons, List.not_mem_nil, or_false] at h
  rcases h with rfl | rfl <;> exact ⟨_, rfl⟩

theorem decodeQ_of_length {f : Count → Instr} {ops : List Byte} (h : ops.length = 8) :
    decodeQ f ops = .instr (f (countOfBytes ops)) := if_pos h

theorem decodeT_of_padClean {sym len : Byte} {cb : List Byte} (hl : cb.length = bytesFor len.toNat)
    (hp : padClean len.toNat cb = true) :
    decodeT (sym :: len :: cb) = .instr (.ldc sym ((unpack cb).take len.toNat)) := by
  rw [decodeT, if_pos hl, if_pos hp]

/-- A packet that decodes to `LDC` is `0x10`, `SYM`, `LEN` and code bytes that begin with the code (R64, R65). -/
theorem decode_eq_ldc {p : Packet} {x : Byte} {code : Code} (h : decode p = .instr (.ldc x code)) :
    ∃ len cb, p = 0x10#8 :: x :: len :: cb ∧ cb.length = bytesFor len.toNat ∧
      code = (unpack cb).take len.toNat := by
  obtain rfl := encode_of_decode h
  obtain ⟨sym, len, cb, hops, hl, -, hi⟩ := decodeT_eq_instr ((decode_ldc _).symm.trans h)
  obtain ⟨rfl, rfl⟩ := Instr.ldc.inj hi
  exact ⟨len, cb, congrArg (List.cons 0x10#8) hops, hl, rfl⟩

theorem decode_of_not_mem_definedOpcodes {op : Byte} (h : op ∉ Machine.definedOpcodes) (ops : List Byte) :
    decode (op :: ops) = .illegal .reservedOpcode := by
  simp only [Machine.definedOpcodes, List.mem_cons, List.not_mem_nil, or_false, not_or] at h
  simp only [decode, h, if_false]

/-- Settles O3: the list of the opcodes is written out, and the decoder tests for nothing else. -/
theorem reservedOpcodesAreIllegal : Obligations.ReservedOpcodesAreIllegal :=
  ⟨by decide, rfl, fun _ ops h => decode_of_not_mem_definedOpcodes h ops⟩

end Sys2Proof
end

section
/-! PROOFS. The order of the bits of a code (R65) and of the bytes of a count (R67) in a packet. -/

namespace Sys2Proof

/-- Bit `i` of a byte sequence is bit `7 - (i mod 8)` of its byte `i div 8` (R65). -/
theorem unpack_getElem? (bs : List Byte) (i : Nat) :
    (unpack bs)[i]? = bs[i / 8]?.map (·.getLsbD (7 - i % 8)) := by
  induction bs generalizing i with
  | nil => rfl
  | cons b bs ih =>
    rw [unpack_cons]
    by_cases h8 : i < 8
    · rw [List.getElem?_append_left h8, List.getElem?_eq_getElem h8, byteBits_getElem b i h8,
        Nat.div_eq_of_lt h8, Nat.mod_eq_of_lt h8]
      rfl
    · have hdiv : i / 8 = (i - 8) / 8 + 1 := by omega
      have hmod : i % 8 = (i - 8) % 8 := by omega
      rw [List.getElem?_append_right (Nat.le_of_not_lt h8), byteBits_length, ih, hdiv, hmod,
        List.getElem?_cons_succ]

/-- The code bytes of the length law hold all the bits of the code (R64). -/
theorem length_take_unpack {len : Nat} {cb : List Byte} (h : cb.length = bytesFor len) :
    ((unpack cb).take len).length = len := by
  simp only [List.length_take, unpack_length, h, bytesFor]
  omega

/-- Settles O4: the code is the first `LEN` bits of the code bytes, and the code bytes reach as far. -/
theorem ldcCodeBitsAreMsbFirst : Obligations.LdcCodeBitsAreMsbFirst := by
  intro p x code h
  obtain ⟨len, cb, hp, hl, rfl⟩ := decode_eq_ldc h
  refine ⟨len, cb, hp, length_take_unpack hl, fun i hi => ?_⟩
  have hbyte : i / 8 < cb.length := by simp only [hl, bytesFor]; omega
  refine ⟨cb[i / 8], List.getElem?_eq_getElem hbyte, ?_⟩
  rw [List.getElem?_take_of_lt hi, unpack_getElem?, List.getElem?_eq_getElem hbyte, Option.map_some]

theorem beNat_append_singleton (bs : List Byte) (b : Byte) : beNat (bs ++ [b]) = beNat bs * 256 + b.toNat := by
  simp [beNat]

theorem beNat_lt (bs : List Byte) : beNat bs < 256 ^ bs.length := by
  induction bs using List.reverseRecOn with
  | nil => decide
  | append_singleton bs b ih =>
    have hb := b.isLt
    rw [beNat_append_singleton, List.length_append, List.length_singleton, Nat.pow_succ]
    omega

/-- Eight bytes never overflow the count (R67). -/
theorem countOfBytes_toNat {bs : List Byte} (h : bs.length = 8) : (countOfBytes bs).toNat = beNat bs := by
  have hlt : beNat bs < 2 ^ 64 := by simpa [h] using beNat_lt bs
  rw [countOfBytes, BitVec.toNat_ofNat, Nat.mod_eq_of_lt hlt]

/-- Settles O5: the count is the operand bytes' big-endian number, and Horner's form of that number is the sum. -/
theorem dbeginlCountIsBigEndian : Obligations.DbeginlCountIsBigEndian := by
  intro b1 b2 b3 b4 b5 b6 b7 b8
  refine ⟨_, (decode_dbeginl _).trans (decodeQ_of_length rfl), ?_⟩
  rw [countOfBytes_toNat rfl]
  simp only [beNat, List.foldl_cons, List.foldl_nil]
  ring

end Sys2Proof
end

section
/-! PROOFS. Which packets decode: those of the length law (R64) with clean pad bits (R66, R71). -/

namespace Sys2Proof

/-- The mask of R69 finds no 1 in a byte exactly when its `m` low bits are 0. -/
theorem and_lowMask_eq_zero_iff (d : Byte) {m : Nat} (hm : m ≤ 8) :
    (d &&& BitVec.ofNat 8 (2 ^ m - 1)) = 0#8 ↔ ∀ k, k < m → d.getLsbD k = false := by
  have hbit : ∀ k, k < 8 →
      (d &&& BitVec.ofNat 8 (2 ^ m - 1)).getLsbD k = (d.getLsbD k && decide (k < m)) := by
    intro k hk
    rw [BitVec.getLsbD_and, BitVec.getLsbD_ofNat, Nat.testBit_two_pow_sub_one, decide_eq_true hk, Bool.true_and]
  constructor
  · intro h k hk
    simpa [h, hk] using hbit k (by omega)
  · intro h
    apply BitVec.eq_of_getLsbD_eq
    intro k hk
    rw [hbit k hk, BitVec.getLsbD_zero]
    by_cases hkm : k < m
    · rw [h k hkm, Bool.false_and]
    · rw [decide_eq_false hkm, Bool.and_false]

/-- The decoder's pad check, bit by bit (R66). -/
theorem padClean_iff (len : Nat) (cb : List Byte) :
    padClean len cb = true ↔ (len % 8 ≠ 0 → ∀ last, cb.getLast? = some last →
      ∀ k, k < 8 - len % 8 → last.getLsbD k = false) := by
  rw [padClean, Bool.or_eq_true, beq_iff_eq, beq_iff_eq, or_iff_not_imp_left,
    and_lowMask_eq_zero_iff _ (Nat.sub_le _ _)]
  cases hlast : cb.getLast? with
  | none => simp [List.getLastD_eq_getLast?, hlast]
  | some d => simp [List.getLastD_eq_getLast?, hlast]

theorem padBitsZero_ldc_iff (sym len : Byte) (cb : List Byte) :
    Machine.PadBitsZero (0x10#8 :: sym :: len :: cb) ↔ padClean len.toNat cb = true := by
  rw [padClean_iff]
  constructor
  · exact fun h => h sym len cb rfl
  · rintro h _ _ _ ⟨⟩
    exact h

/-- A packet that decodes obeys the length law (R64). -/
theorem lengthLaw_of_decode {p : Packet} {i : Instr} (h : decode p = .instr i) : Machine.LengthLaw p := by
  obtain rfl := encode_of_decode h
  cases i with
  | nop | clr | ebegin | eend | dbegin | dend => exact .inl ⟨_, by decide, rfl⟩
  | enc x => exact .inr (.inl ⟨0x21#8, by decide, x, rfl⟩)
  | dec d => exact .inr (.inl ⟨0x32#8, by decide, d, rfl⟩)
  | dbeginl n => exact .inr (.inr (.inl ⟨_, bytesOfCount_length n, rfl⟩))
  | ldc x c =>
    obtain ⟨len, cb, hp, hl, -⟩ := decode_eq_ldc h
    exact .inr (.inr (.inr ⟨x, len, cb, hl, hp⟩))

/-- A packet that decodes has clean pad bits (R66). -/
theorem padBitsZero_of_decode {p : Packet} {i : Instr} (h : decode p = .instr i) : Machine.PadBitsZero p := by
  rintro sym len cb rfl
  rw [decode_ldc] at h
  obtain ⟨_, _, _, ⟨⟩, -, hpad, -⟩ := decodeT_eq_instr h
  exact (padClean_iff _ _).mp hpad

/-- A packet of the length law with clean pad bits decodes (R69). -/
theorem decode_of_lengthLaw {p : Packet} (hl : Machine.LengthLaw p) (hp : Machine.PadBitsZero p) :
    ∃ i, decode p = .instr i := by
  rcases hl with ⟨op, hop, rfl⟩ | ⟨op, hop, x, rfl⟩ | ⟨ops, h8, rfl⟩ | ⟨sym, len, cb, hcb, rfl⟩
  · exact decode_of_formatZ hop
  · exact decode_of_formatB hop x
  · exact ⟨_, (decode_dbeginl ops).trans (decodeQ_of_length h8)⟩
  · exact ⟨_, (decode_ldc _).trans (decodeT_of_padClean hcb ((padBitsZero_ldc_iff sym len cb).mp hp))⟩

theorem decode_instr_iff (p : Packet) :
    (∃ i, decode p = .instr i) ↔ (Machine.LengthLaw p ∧ Machine.PadBitsZero p) :=
  ⟨fun ⟨_, h⟩ => ⟨lengthLaw_of_decode h, padBitsZero_of_decode h⟩, fun ⟨hl, hp⟩ => decode_of_lengthLaw hl hp⟩

/-- Settles O2: the two rules say when a packet decodes, and a packet that does not decode is `ILLEGAL`. -/
theorem packetsDecodeExactlyWhenWellFormed : Obligations.PacketsDecodeExactlyWhenWellFormed := by
  intro p
  refine ⟨decode_instr_iff p, fun h => ?_⟩
  cases hd : decode p with
  | instr i => exact absurd ((decode_instr_iff p).mp ⟨i, hd⟩) h
  | illegal why => exact ⟨why, rfl⟩

end Sys2Proof
end

section
/-! PROOFS. The housekeeping commands `NOP`, `CLR` and `LDC` (40_table_load.md: R80, R81, R83). -/

namespace Sys2Proof.Machine

/-! ### `LDC` (R83) -/

theorem exec_ldc (x : Byte) (c : Code) (s : State) :
    exec (.ldc x c) s = .next (command .load (loadCode x c) s) := rfl

theorem loadCode_nil (x : Byte) (s : State) : loadCode x [] s = raise .corruptCodeTable s := rfl

theorem loadCode_of_ne_nil (x : Byte) {c : Code} (h : c ≠ []) (s : State) : loadCode x c s = setCode x c s :=
  if_neg (mt List.eq_nil_of_length_eq_zero h)

/-- In `LOAD` the body of `LDC` runs (R156). -/
theorem exec_ldc_of_load (x : Byte) (c : Code) {s : State} (h : s.phase = .load) :
    exec (.ldc x c) s = .next (loadCode x c s) := by
  rw [exec_ldc, command_of_legal h (by decide)]

/-- Settles O17: the phase check decides the first two clauses, the body of `LDC` in `LOAD` the other two. -/
theorem ldcWritesOneEntry : Obligations.LdcWritesOneEntry := by
  refine ⟨fun _ _ => rfl, fun x c s => ⟨fun hfault => ?_, fun hrun => ?_, fun hload hc => ?_, fun hload hc => ?_⟩⟩
  · rw [exec_ldc, command_of_fault hfault]
  · have hphase : s.phase ≠ .fault ∧ s.phase ≠ .load := by
      rcases hrun with h | h <;> rw [h] <;> decide
    obtain ⟨hfault, hload⟩ := hphase
    rw [exec_ldc, command_of_illegal hfault hload]
    rfl
  · rw [exec_ldc_of_load x c hload, hc, loadCode_nil]
    rfl
  · refine ⟨setCode x c s, ?_, ?_, fun y hy => ?_, rfl⟩
    · rw [exec_ldc_of_load x c hload, loadCode_of_ne_nil x hc]
    · rw [codeOf_setCode, if_pos rfl]
    · rw [codeOf_setCode, if_neg hy]

/-! ### `NOP` (R80) -/

theorem exec_nop (s : State) : exec .nop s = .next s := rfl

theorem execAll_cons_nop (cmds : List Instr) (s : State) : execAll (.nop :: cmds) s = execAll cmds s := rfl

/-- Two sequences that begin with the same command agree where their rests agree from every state. -/
theorem execAll_cons_congr (i : Instr) {xs ys : List Instr} (h : ∀ s, execAll xs s = execAll ys s) (s : State) :
    execAll (i :: xs) s = execAll (i :: ys) s := by
  simp only [execAll, h]

/-- Settles O15, by induction on the command sequence. -/
theorem nopChangesNothing : Obligations.NopChangesNothing := by
  refine ⟨rfl, exec_nop, fun cmds => ?_⟩
  induction cmds with
  | nil => exact fun _ => rfl
  | cons i cmds ih =>
    intro s
    rcases eq_or_ne i .nop with rfl | hi
    · rw [List.filter_cons_of_neg (by decide), execAll_cons_nop, ih]
    · rw [List.filter_cons, if_pos (bne_iff_ne.mpr hi)]
      exact execAll_cons_congr i ih s

/-! ### `CLR` (R81) -/

/-- In `FAULT` a command legal in one phase only is discarded (R155). -/
theorem next_command_of_fault (legal : Phase) (body : State → State) {s : State} (h : s.phase = .fault) :
    (.next (command legal body s) : Host.Outcome State Fault Refusal) = .next s := by
  rw [command_of_fault h]

/-- In `FAULT` every command but `CLR` is discarded (R155): `NOP` has no effect, the others stop at the check
they share. -/
theorem exec_of_fault {i : Instr} {s : State} (h : s.phase = .fault) (hi : i ≠ .clr) : exec i s = .next s := by
  cases i with
  | nop => exact exec_nop s
  | clr => exact absurd rfl hi
  | ldc _ _ | ebegin | enc _ | eend | dbegin | dbeginl _ | dec _ | dend => exact next_command_of_fault _ _ h

/-- Settles O16: `CLR` resets the block in every phase, and in `FAULT` any other command is discarded. -/
theorem clrGivesTheResetState : Obligations.ClrGivesTheResetState := by
  refine ⟨rfl, fun s => ⟨resetBlock s, exec_clr s, ?_, resetBlock_out s, resetBlock_port s⟩, ?_⟩
  · exact resetBlock_block s
  · intro i s t hfault hnext hne
    by_contra hi
    rw [exec_of_fault hfault hi] at hnext
    exact hne (Host.Outcome.next.inj hnext).symm

end Sys2Proof.Machine
end

section
/-! PROOFS. The start and the end of an encode run: `EBEGIN` and `EEND` (41_encode.md: R90, R93). -/

namespace Sys2Proof

/-- Bit `t` of a byte in walking order, 0 past its end. -/
theorem byteBits_getD (d : Byte) (t : Nat) :
    (byteBits d).getD t false = (decide (t < 8) && d.getLsbD (7 - t)) := by
  by_cases ht : t < 8
  · have hlen : t < (byteBits d).length := ht
    rw [List.getD_eq_getElem _ _ hlen, byteBits_getElem d t hlen, decide_eq_true ht, Bool.true_and]
  · rw [List.getD_eq_default _ _ (Nat.le_of_not_lt ht), decide_eq_false ht, Bool.false_and]

/-- The bits of a byte after the first `k`, packed from bit 7 on, are the byte shifted left by `k` (R46, R93). -/
theorem packByte_drop_byteBits (d : Byte) (k : Nat) : packByte ((byteBits d).drop k) = d <<< k := by
  have walked : ∀ t, t < 8 → (packByte ((byteBits d).drop k)).getLsbD (7 - t) = (d <<< k).getLsbD (7 - t) := by
    intro t ht
    rw [packByte_getLsbD _ t ht, List.getD_eq_getElem?_getD, List.getElem?_drop, ← List.getD_eq_getElem?_getD,
      byteBits_getD, BitVec.getLsbD_shiftLeft, Nat.sub_sub, Nat.add_comm t k]
    have hin : decide (k + t < 8) = (decide (7 - t < 8) && !decide (7 - t < k)) := by
      rw [← decide_not, ← Bool.decide_and]
      exact decide_eq_decide.mpr (by omega)
    rw [hin]
  apply BitVec.eq_of_getLsbD_eq
  intro i hi
  have hback : 7 - (7 - i) = i := by omega
  simpa only [hback] using walked (7 - i) (by omega)

end Sys2Proof

namespace Sys2Proof.Machine

/-- A command in a phase that is neither `FAULT` nor its own faults `SEQUENCE_ERROR` (R32, R154). -/
theorem next_command_of_other {legal p q : Phase} (body : State → State) {s : State}
    (h : s.phase = p ∨ s.phase = q) (hp : p ≠ .fault ∧ p ≠ legal) (hq : q ≠ .fault ∧ q ≠ legal) :
    (.next (command legal body s) : Host.Outcome State Fault Refusal) =
      .next { s with err := .raised .sequenceError, phase := .fault } := by
  obtain ⟨hfault, hlegal⟩ : s.phase ≠ .fault ∧ s.phase ≠ legal := by
    rcases h with h | h <;> rw [h] <;> assumption
  rw [command_of_illegal hfault hlegal]
  rfl

/-! ### The bits held in the serializer (R18, R19) -/

theorem heldBits_length (s : State) : s.heldBits.length = s.cnt.toNat := by
  have hcnt := s.cnt.isLt
  rw [State.heldBits, List.length_drop, byteBits_length]
  omega

theorem heldBits_of_cnt_zero {s : State} (h : s.cnt = 0#3) : s.heldBits = [] := by
  apply List.eq_nil_of_length_eq_zero
  rw [heldBits_length, h]
  rfl

theorem heldBits_ne_nil {s : State} (h : s.cnt ≠ 0#3) : s.heldBits ≠ [] := by
  intro hnil
  have hlen : s.cnt.toNat = 0 := by rw [← heldBits_length, hnil, List.length_nil]
  exact h (BitVec.eq_of_toNat_eq hlen)

/-- The held bits packed are one byte: the shift register with the bits held moved up to bit 7 (R93). -/
theorem pack_heldBits {s : State} (h : s.cnt ≠ 0#3) : pack s.heldBits = [s.sr <<< (8 - s.cnt.toNat)] := by
  have hrest : s.heldBits.drop 8 = [] := by
    apply List.drop_eq_nil_of_le
    rw [heldBits_length]
    exact Nat.le_of_lt s.cnt.isLt
  rw [pack_eq_cons (heldBits_ne_nil h), hrest, pack_nil, State.heldBits, packByte_drop_byteBits]

/-! ### `EEND` (R93) -/

theorem exec_eend (s : State) : exec .eend s = .next (command .enc closeEncode s) := rfl

/-- In `ENC` the body of `EEND` runs (R156). -/
theorem exec_eend_of_enc {s : State} (h : s.phase = .enc) : exec .eend s = .next (closeEncode s) := by
  rw [exec_eend, command_of_legal h (by decide)]

theorem closeEncode_of_cnt_zero {s : State} (h : s.cnt = 0#3) :
    closeEncode s = { s with sr := 0#8, phase := .load } := by
  rw [closeEncode, flush, if_pos h, ← h]
  rfl

theorem closeEncode_of_cnt_ne_zero {s : State} (h : s.cnt ≠ 0#3) :
    closeEncode s = { s with
      out := s.out ++ [s.sr <<< (8 - s.cnt.toNat)], sr := 0#8, cnt := 0#3, phase := .load } := by
  rw [closeEncode, flush, if_neg h]
  rfl

/-- Whatever is held, `EEND` emits it packed; what the shift register holds above the `CNT` low bits is shifted
out. -/
theorem closeEncode_eq_pack (s : State) :
    closeEncode s = { s with out := s.out ++ pack s.heldBits, sr := 0#8, cnt := 0#3, phase := .load } := by
  by_cases h : s.cnt = 0#3
  · rw [closeEncode_of_cnt_zero h, heldBits_of_cnt_zero h, pack_nil, List.append_nil, ← h]
  · rw [closeEncode_of_cnt_ne_zero h, pack_heldBits h]

/-- Settles O20: the phase check decides the first two clauses, the flush in `ENC` the other three. -/
theorem eendFlushesThePartialByte : Obligations.EendFlushesThePartialByte := by
  refine ⟨rfl, fun s => ⟨fun hfault => ?_, fun hother => ?_, fun henc hcnt => ?_, fun henc hcnt => ?_,
    fun henc _ => ?_⟩⟩
  · exact exec_of_fault hfault (by decide)
  · exact next_command_of_other closeEncode hother (by decide) (by decide)
  · rw [exec_eend_of_enc henc, closeEncode_of_cnt_zero hcnt]
  · rw [exec_eend_of_enc henc, closeEncode_of_cnt_ne_zero hcnt]
  · rw [exec_eend_of_enc henc, closeEncode_eq_pack]

/-! ### `EBEGIN` (R90) -/

theorem exec_ebegin (s : State) : exec .ebegin s = .next (command .load openEncode s) := rfl

theorem openEncode_eq (s : State) :
    openEncode s = { s with sr := 0#8, cnt := 0#3, ebits := 0#64, phase := .enc } := rfl

/-- In `LOAD` the body of `EBEGIN` runs (R156). -/
theorem exec_ebegin_of_load {s : State} (h : s.phase = .load) : exec .ebegin s = .next (openEncode s) := by
  rw [exec_ebegin, command_of_legal h (by decide)]

/-- Settles O18: the phase check decides the first two clauses, the body of `EBEGIN` in `LOAD` the third. -/
theorem ebeginOpensAnEncodeRun : Obligations.EbeginOpensAnEncodeRun := by
  refine ⟨rfl, fun s => ⟨fun hfault => ?_, fun hother => ?_, fun hload => ?_⟩⟩
  · exact exec_of_fault hfault (by decide)
  · exact next_command_of_other openEncode hother (by decide) (by decide)
  · rw [exec_ebegin_of_load hload, openEncode_eq]

end Sys2Proof.Machine
end

section
/-! PROOFS. `BuildTree` over a whole table (R100, R102): when it succeeds, and that its result is the trie. -/

namespace Sys2Proof.Machine

/-! ### One code (R100) -/

/-- A code passes the two checks of R100 in a tree: its own place is undefined (B) and no leaf is on the way (A). -/
def CodeFits (t : Tree) (c : Code) : Prop :=
  t.nodeAt c = none ∧ ∀ p y, p <+: c → t.nodeAt p ≠ some (.leaf y)

theorem insertCode_isSome_iff {x : Byte} {c : Code} {t : Tree} :
    (∃ u, insertCode x c t = some u) ↔ CodeFits t c := by
  constructor
  · rintro ⟨u, h⟩
    exact (insertCode_some h).2
  · rintro ⟨hplace, hway⟩
    by_contra hfail
    rcases insertCode_none (Option.eq_none_iff_forall_ne_some.mpr fun u hu => hfail ⟨u, hu⟩) with
      hdef | ⟨p, y, hp, -, hleaf⟩
    · exact hdef hplace
    · exact hway p y hp hleaf

theorem insertCode_leaf_iff {x : Byte} {c : Code} {t u : Tree} (h : insertCode x c t = some u)
    (p : Path) (y : Byte) :
    u.nodeAt p = some (.leaf y) ↔ t.nodeAt p = some (.leaf y) ∨ (y, p) = (x, c) := by
  obtain ⟨hu, hplace, hway⟩ := insertCode_some h
  rw [hu]
  split_ifs with hpc hpre
  · simp [hpc, hplace, eq_comm]
  · simp [hway p y hpre, hpc]
  · simp [hpc]

theorem insertCode_int_iff {x : Byte} {c : Code} {t u : Tree} (h : insertCode x c t = some u) (p : Path) :
    u.nodeAt p = some .int ↔ t.nodeAt p = some .int ∨ (p <+: c ∧ p ≠ c) := by
  obtain ⟨hu, hplace, -⟩ := insertCode_some h
  rw [hu]
  split_ifs with hpc hpre
  · simp [hpc, hplace]
  · simp [hpre, hpc]
  · simp [hpre]

/-! ### All the codes of a list -/

/-- Neither of two entries' codes begins with the other (R102); so equal codes are not apart. -/
def CodesApart (e f : Byte × Code) : Prop := ¬ e.2 <+: f.2 ∧ ¬ f.2 <+: e.2

theorem codesApart_symm : Std.Symm CodesApart := ⟨fun _ _ => And.symm⟩

/-- A code fits after another one is in the tree exactly when it fitted before and the two are apart. -/
theorem codeFits_insertCode_iff {x y : Byte} {c d : Code} {t u : Tree} (h : insertCode x c t = some u) :
    CodeFits u d ↔ CodeFits t d ∧ CodesApart (x, c) (y, d) := by
  obtain ⟨hu, -, -⟩ := insertCode_some h
  constructor
  · rintro ⟨hplace, hway⟩
    have hleaf : u.nodeAt c = some (.leaf x) := (insertCode_leaf_iff h c x).mpr (.inr rfl)
    rw [hu] at hplace
    split_ifs at hplace with hdc hpre
    exact ⟨⟨hplace, fun p z hp hz => hway p z hp ((insertCode_leaf_iff h p z).mpr (.inl hz))⟩,
      fun hcd => hway c x hcd hleaf, hpre⟩
  · rintro ⟨⟨hplace, hway⟩, hcd, hdc⟩
    have hne : d ≠ c := by rintro rfl; exact hdc List.prefix_rfl
    refine ⟨by rw [hu, if_neg hne, if_neg hdc, hplace], fun p z hp hz => ?_⟩
    rcases (insertCode_leaf_iff h p z).mp hz with hz | hz
    · exact hway p z hp hz
    · obtain ⟨rfl, rfl⟩ := Prod.mk.inj hz
      exact hcd hp

theorem insertAll_cons_eq_some {x : Byte} {c : Code} {rest : CodeTable} {t u : Tree} :
    insertAll ((x, c) :: rest) t = some u ↔ ∃ v, insertCode x c t = some v ∧ insertAll rest v = some u := by
  rw [insertAll]
  cases insertCode x c t <;> simp

/-- Inserting a list of codes succeeds exactly when each fits in the tree at the start and each two are apart. The
condition does not depend on the order of the list. -/
theorem insertAll_isSome_iff (ct : CodeTable) (t : Tree) :
    (∃ u, insertAll ct t = some u) ↔ (∀ e ∈ ct, CodeFits t e.2) ∧ ct.Pairwise CodesApart := by
  induction ct generalizing t with
  | nil => simp [insertAll]
  | cons e rest ih =>
    obtain ⟨x, c⟩ := e
    simp only [insertAll_cons_eq_some, List.forall_mem_cons, List.pairwise_cons]
    constructor
    · rintro ⟨u, v, hv, hu⟩
      obtain ⟨hfits, hpair⟩ := (ih v).mp ⟨u, hu⟩
      have hrest : ∀ f ∈ rest, CodeFits t f.2 ∧ CodesApart (x, c) f := fun f hf =>
        (codeFits_insertCode_iff hv).mp (hfits f hf)
      exact ⟨⟨insertCode_isSome_iff.mp ⟨v, hv⟩, fun f hf => (hrest f hf).1⟩,
        fun f hf => (hrest f hf).2, hpair⟩
    · rintro ⟨⟨hfit, hfits⟩, hapart, hpair⟩
      obtain ⟨v, hv⟩ := insertCode_isSome_iff (x := x).mpr hfit
      obtain ⟨u, hu⟩ := (ih v).mpr
        ⟨fun f hf => (codeFits_insertCode_iff (y := f.1) hv).mpr ⟨hfits f hf, hapart f hf⟩, hpair⟩
      exact ⟨u, v, hv, hu⟩

/-- The leaves after inserting a list: those of before and the listed codes. -/
theorem insertAll_leaf_iff {ct : CodeTable} {t u : Tree} (h : insertAll ct t = some u) (p : Path) (y : Byte) :
    u.nodeAt p = some (.leaf y) ↔ t.nodeAt p = some (.leaf y) ∨ (y, p) ∈ ct := by
  induction ct generalizing t with
  | nil => obtain rfl := Option.some.inj h; simp
  | cons e rest ih =>
    obtain ⟨x, c⟩ := e
    obtain ⟨v, hv, hu⟩ := insertAll_cons_eq_some.mp h
    rw [ih hu, insertCode_leaf_iff hv, List.mem_cons, or_assoc]

/-- The internal nodes after inserting a list: those of before and the proper prefixes of the listed codes. -/
theorem insertAll_int_iff {ct : CodeTable} {t u : Tree} (h : insertAll ct t = some u) (p : Path) :
    u.nodeAt p = some .int ↔ t.nodeAt p = some .int ∨ ∃ e ∈ ct, p <+: e.2 ∧ p ≠ e.2 := by
  induction ct generalizing t with
  | nil => obtain rfl := Option.some.inj h; simp
  | cons e rest ih =>
    obtain ⟨x, c⟩ := e
    obtain ⟨v, hv, hu⟩ := insertAll_cons_eq_some.mp h
    simp only [ih hu, insertCode_int_iff hv, List.exists_mem_cons_iff, or_assoc]

/-! ### A table from the bare root (R100, R102) -/

theorem bareRoot_nodeAt_nil : Tree.bareRoot.nodeAt [] = some .int := rfl

theorem bareRoot_nodeAt_cons (b : Bool) (p : Path) : Tree.bareRoot.nodeAt (b :: p) = none := by
  cases b <;> simp [Tree.bareRoot]

theorem bareRoot_leaf (p : Path) (y : Byte) : Tree.bareRoot.nodeAt p ≠ some (.leaf y) := by
  cases p with
  | nil => simp [bareRoot_nodeAt_nil]
  | cons b p => simp [bareRoot_nodeAt_cons]

theorem bareRoot_int_iff (p : Path) : Tree.bareRoot.nodeAt p = some .int ↔ p = [] := by
  cases p with
  | nil => simp [bareRoot_nodeAt_nil]
  | cons b p => simp [bareRoot_nodeAt_cons]

/-- In the bare root every code but the empty one fits. -/
theorem codeFits_bareRoot {c : Code} (h : c ≠ []) : CodeFits .bareRoot c := by
  obtain ⟨b, d, rfl⟩ := List.exists_cons_of_ne_nil h
  exact ⟨bareRoot_nodeAt_cons b d, fun p y _ => bareRoot_leaf p y⟩

/-- In a canonical table a code is found exactly when it is listed. -/
theorem lookupCode_iff_mem {ct : CodeTable} (hc : tableCanonical ct = true) {x : Byte} {c : Code} :
    lookupCode x ct = some c ↔ (x, c) ∈ ct :=
  ⟨mem_of_lookupCode, lookupCode_of_mem hc⟩

/-- The entries of a canonical table are pairwise apart exactly when the table is `PrefixFree` (R102). -/
theorem pairwise_codesApart_iff {ct : CodeTable} (hc : tableCanonical ct = true) :
    ct.Pairwise CodesApart ↔ PrefixFree ct := by
  constructor
  · intro h
    have := codesApart_symm
    exact prefixFree_of_entries fun e he f hf hne => (h.forall he hf (mt (congrArg Prod.fst) hne)).1
  · intro h
    have hasc : ct.Pairwise fun a b => a.1 < b.1 := of_decide_eq_true hc
    refine hasc.imp_of_mem fun {e f} he hf hlt => ?_
    have hne : e.1 ≠ f.1 := BitVec.ne_of_lt hlt
    exact ⟨h _ _ _ _ (lookupCode_of_mem hc he) (lookupCode_of_mem hc hf) hne,
      h _ _ _ _ (lookupCode_of_mem hc hf) (lookupCode_of_mem hc he) hne.symm⟩

/-- `BuildTree` succeeds exactly on a `PrefixFree` table (42_decode.md, "Success criterion"). -/
theorem buildTree_isSome_iff {ct : CodeTable} (hc : tableCanonical ct = true) (hne : ∀ e ∈ ct, e.2 ≠ []) :
    (∃ tr, buildTree ct = some tr) ↔ PrefixFree ct := by
  have hfits : ∀ e ∈ ct, CodeFits .bareRoot e.2 := fun e he => codeFits_bareRoot (hne e he)
  rw [buildTree, insertAll_isSome_iff, and_iff_right hfits, pairwise_codesApart_iff hc]

/-- What `BuildTree` builds is the trie of the codes (R102). -/
theorem isTrie_of_buildTree {ct : CodeTable} (hc : tableCanonical ct = true) {tr : Tree}
    (h : buildTree ct = some tr) : IsTrie ct tr := by
  refine ⟨fun p x => ?_, fun p => ?_⟩
  · rw [insertAll_leaf_iff h, or_iff_right (bareRoot_leaf p x), lookupCode_iff_mem hc]
  · simp only [insertAll_int_iff h, bareRoot_int_iff, IsInternal, lookupCode_iff_mem hc, Prod.exists]

/-- A code of legal length is not empty (R11). -/
theorem ne_nil_of_lengthsLegal {ct : CodeTable} (h : LengthsLegal ct) : ∀ e ∈ ct, e.2 ≠ [] :=
  fun e he => List.ne_nil_of_length_pos (h e he).1

end Sys2Proof.Machine
end

section
/-! PROOFS. The start and the end of a decode run: `DBEGIN`, `DBEGINL` and `DEND` (42_decode.md: R103, R104,
R107). -/

namespace Sys2Proof.Machine

/-! ### `DBEGIN` and `DBEGINL` (R103, R104) -/

theorem openDecode_of_some (lim : Bool) (n : Count) {s : State} {tr : Tree} (h : buildTree s.ct = some tr) :
    openDecode lim n s = { s with
      tree := some tr, pos := [], lim := lim, drem := n, dany := false, amb := false, phase := .dec } := by
  rw [openDecode, h]

theorem openDecode_of_none (lim : Bool) (n : Count) {s : State} (h : buildTree s.ct = none) :
    openDecode lim n s = raise .corruptCodeTable s := by
  rw [openDecode, h]

/-- On a `PrefixFree` table the decode run opens with the trie of the codes. -/
theorem openDecode_of_prefixFree (lim : Bool) (n : Count) {s : State} (hc : tableCanonical s.ct = true)
    (hl : LengthsLegal s.ct) (hpf : PrefixFree s.ct) :
    ∃ tr, IsTrie s.ct tr ∧ openDecode lim n s = { s with
      tree := some tr, pos := [], lim := lim, drem := n, dany := false, amb := false, phase := .dec } := by
  obtain ⟨tr, htr⟩ := (buildTree_isSome_iff hc (ne_nil_of_lengthsLegal hl)).mpr hpf
  exact ⟨tr, isTrie_of_buildTree hc htr, openDecode_of_some lim n htr⟩

/-- On any other table `BuildTree` fails, and only the fault is recorded (R157). -/
theorem openDecode_of_not_prefixFree (lim : Bool) (n : Count) {s : State} (hc : tableCanonical s.ct = true)
    (hl : LengthsLegal s.ct) (hpf : ¬ PrefixFree s.ct) :
    openDecode lim n s = { s with err := .raised .corruptCodeTable, phase := .fault } := by
  have hnone : buildTree s.ct = none := Option.eq_none_iff_forall_ne_some.mpr fun tr htr =>
    hpf ((buildTree_isSome_iff hc (ne_nil_of_lengthsLegal hl)).mp ⟨tr, htr⟩)
  rw [openDecode_of_none lim n hnone]
  rfl

theorem exec_dbegin (s : State) : exec .dbegin s = .next (command .load (openDecode false 0#64) s) := rfl

theorem exec_dbeginl (n : Count) (s : State) :
    exec (.dbeginl n) s = .next (command .load (openDecode true n) s) := rfl

/-- In `LOAD` the body of `DBEGIN` runs (R156). -/
theorem exec_dbegin_of_load {s : State} (h : s.phase = .load) :
    exec .dbegin s = .next (openDecode false 0#64 s) := by
  rw [exec_dbegin, command_of_legal h (by decide)]

/-- In `LOAD` the body of `DBEGINL` runs (R156). -/
theorem exec_dbeginl_of_load (n : Count) {s : State} (h : s.phase = .load) :
    exec (.dbeginl n) s = .next (openDecode true n s) := by
  rw [exec_dbeginl, command_of_legal h (by decide)]

/-- Settles O21: the phase check decides the first two clauses, the success of `BuildTree` the other two. -/
theorem dbeginOpensALegacyRun : Obligations.DbeginOpensALegacyRun := by
  refine ⟨rfl, fun s => ⟨fun hfault => ?_, fun hother => ?_, fun hload hc hl hpf => ?_,
    fun hload hc hl hpf => ?_⟩⟩
  · exact exec_of_fault hfault (by decide)
  · exact next_command_of_other _ hother (by decide) (by decide)
  · obtain ⟨tr, htrie, hopen⟩ := openDecode_of_prefixFree false 0#64 hc hl hpf
    exact ⟨tr, htrie, by rw [exec_dbegin_of_load hload, hopen]⟩
  · rw [exec_dbegin_of_load hload, openDecode_of_not_prefixFree false 0#64 hc hl hpf]

/-- Settles O22, as O21 with the mode and the count of the command. -/
theorem dbeginlOpensACountedRun : Obligations.DbeginlOpensACountedRun := by
  refine ⟨fun _ => rfl, fun n s => ⟨fun hfault => ?_, fun hother => ?_, fun hload hc hl hpf => ?_,
    fun hload hc hl hpf => ?_⟩⟩
  · exact exec_of_fault hfault (by simp)
  · exact next_command_of_other _ hother (by decide) (by decide)
  · obtain ⟨tr, htrie, hopen⟩ := openDecode_of_prefixFree true n hc hl hpf
    exact ⟨tr, htrie, by rw [exec_dbeginl_of_load n hload, hopen]⟩
  · rw [exec_dbeginl_of_load n hload, openDecode_of_not_prefixFree true n hc hl hpf]

/-! ### `DEND` (R107) -/

theorem exec_dend (s : State) : exec .dend s = .next (command .dec endDecode s) := rfl

/-- In `DEC` the body of `DEND` runs (R156). -/
theorem exec_dend_of_dec {s : State} (h : s.phase = .dec) : exec .dend s = .next (endDecode s) := by
  rw [exec_dend, command_of_legal h (by decide)]

theorem endsEarly_iff (s : State) : s.endsEarly = true ↔ s.lim = true ∧ (s.drem ≠ 0#64 ∨ s.pos ≠ []) := by
  simp only [State.endsEarly, Bool.and_eq_true, Bool.or_eq_true, bne_iff_ne, Bool.not_eq_true',
    ← Bool.not_eq_true, atRoot_iff, ne_eq]

theorem markAmbiguous_of_counted {s : State} (h : s.lim = true) : markAmbiguous s = s := by
  simp [markAmbiguous, h]

/-- In legacy mode the warning stands after `DEND` when it stood before or the run has consumed a byte. -/
theorem markAmbiguous_of_legacy {s : State} (h : s.lim = false) :
    markAmbiguous s = { s with amb := s.amb || s.dany } := by
  have hcond : (!s.lim && s.dany) = s.dany := by rw [h, Bool.not_false, Bool.true_and]
  rw [markAmbiguous, hcond]
  split_ifs with hd
  · rw [hd, Bool.or_true]
  · have hamb : (s.amb || s.dany) = s.amb := by rw [Bool.eq_false_of_not_eq_true hd, Bool.or_false]
    rw [hamb]

theorem endDecode_of_endsEarly {s : State} (h : s.endsEarly = true) :
    endDecode s = { s with err := .raised .malformedPayload, phase := .fault } := if_pos h

theorem endDecode_of_not_endsEarly {s : State} (h : ¬ s.endsEarly = true) :
    endDecode s = closeDecode (markAmbiguous s) := if_neg h

/-- Settles O24: the phase check decides the first two clauses, the end check in `DEC` the other three. -/
theorem dendClosesTheDecodeRun : Obligations.DendClosesTheDecodeRun := by
  refine ⟨rfl, fun s => ⟨fun hfault => ?_, fun hother => ?_, fun hdec hlim hearly => ?_,
    fun hdec hlim hdrem hpos => ?_, fun hdec hlim => ?_⟩⟩
  · exact exec_of_fault hfault (by decide)
  · exact next_command_of_other endDecode hother (by decide) (by decide)
  · rw [exec_dend_of_dec hdec, endDecode_of_endsEarly ((endsEarly_iff s).mpr ⟨hlim, hearly⟩)]
  · have hend : ¬ s.endsEarly = true := by simp [endsEarly_iff, hdrem, hpos]
    rw [exec_dend_of_dec hdec, endDecode_of_not_endsEarly hend, markAmbiguous_of_counted hlim]
    rfl
  · have hend : ¬ s.endsEarly = true := by simp [endsEarly_iff, hlim]
    rw [exec_dend_of_dec hdec, endDecode_of_not_endsEarly hend, markAmbiguous_of_legacy hlim]
    rfl

end Sys2Proof.Machine
end

section
/-! PROOFS. Unpacking undoes packing (R46, R94), and `Decode` undoes `Encode` (30_encoding.md section 4). -/

namespace Sys2Proof

/-- The bits of a packed byte: the first 8 of the string, then zeros (R46). -/
theorem byteBits_packByte (e : Bits) :
    byteBits (packByte e) = e.take 8 ++ List.replicate (8 - e.length) false := by
  have hlen : (e.take 8 ++ List.replicate (8 - e.length) false).length = 8 := by
    simp only [List.length_append, List.length_take, List.length_replicate]; omega
  apply List.ext_getElem ((byteBits_length _).trans hlen.symm)
  intro t ht _
  rw [byteBits_getElem _ t ht, packByte_getLsbD e t ht, List.getElem_append]
  split
  · next hin =>
    have hte : t < e.length := (List.length_take ▸ hin).trans_le (Nat.min_le_right _ _)
    rw [List.getElem_take, List.getD_eq_getElem _ _ hte]
  · next hout =>
    have hte : e.length ≤ t := by
      simp only [List.length_take, Nat.lt_min, not_and, Nat.not_lt] at hout
      exact hout ht
    rw [List.getElem_replicate, List.getD_eq_default _ _ hte]

/-- Unpacking a packed string gives the string and its zero pad bits (R93 (b), R94). -/
theorem unpack_pack (e : Bits) : unpack (pack e) = e ++ List.replicate (Machine.padBits e.length) false := by
  induction hn : e.length using Nat.strong_induction_on generalizing e with
  | _ n ih =>
  subst hn
  by_cases hne : e = []
  · subst hne; rfl
  have hpos : 0 < e.length := List.length_pos_iff.mpr hne
  rw [pack_eq_cons hne, unpack_cons, byteBits_packByte, ih _ (by rw [List.length_drop]; omega) (e.drop 8) rfl,
    List.length_drop]
  by_cases h8 : 8 ≤ e.length
  · have hpad : Machine.padBits (e.length - 8) = Machine.padBits e.length := by
      simp only [Machine.padBits]; omega
    rw [Nat.sub_eq_zero_of_le h8, hpad, List.replicate_zero, List.append_nil, ← List.append_assoc,
      List.take_append_drop]
  · have hpad : Machine.padBits e.length = 8 - e.length := by simp only [Machine.padBits]; omega
    have hzero : Machine.padBits (e.length - 8) = 0 := by simp only [Machine.padBits]; omega
    have hshort : e.length ≤ 8 := Nat.le_of_not_le h8
    rw [List.drop_eq_nil_of_le hshort, List.take_of_length_le hshort, hpad, hzero, List.replicate_zero,
      List.append_nil, List.append_nil]

/-- The first bits unpacked are the string that was packed (R94). -/
theorem take_unpack_pack (e : Bits) : (unpack (pack e)).take e.length = e := by
  rw [unpack_pack, List.take_left]

theorem pack_eq_nil_iff (e : Bits) : pack e = [] ↔ e = [] := by
  constructor
  · intro h
    by_contra hne
    rw [pack_eq_cons hne] at h
    exact List.cons_ne_nil _ _ h
  · rintro rfl
    exact pack_nil

/-- Whole bytes at the front of a string are packed to themselves. -/
theorem pack_unpack_append (bs : List Byte) (e : Bits) : pack (unpack bs ++ e) = bs ++ pack e := by
  induction bs with
  | nil => rfl
  | cons b bs ih =>
    have hne : byteBits b ++ (unpack bs ++ e) ≠ [] := List.cons_ne_nil _ _
    rw [unpack_cons, List.append_assoc, pack_eq_cons hne, packByte_byteBits_append,
      List.drop_left' (byteBits_length b), ih, List.cons_append]

/-- The pad bits of a packed code are 0 (R66, R74). -/
theorem padClean_pack (c : Code) : padClean c.length (pack c) = true := by
  rw [padClean_iff]
  intro hmod last hlast k hk
  have hlen : (pack c).length - 1 = c.length / 8 := by
    rw [pack_length, bytesFor]; omega
  rw [List.getLast?_eq_getElem?, hlen] at hlast
  have hbit : (unpack (pack c))[8 * (c.length / 8) + (7 - k)]? = some (last.getLsbD k) := by
    have hdiv : (8 * (c.length / 8) + (7 - k)) / 8 = c.length / 8 := by omega
    have hrem : 7 - (8 * (c.length / 8) + (7 - k)) % 8 = k := by omega
    rw [unpack_getElem?, hdiv, hrem, hlast, Option.map_some]
  rw [unpack_pack, List.getElem?_append_right (by omega)] at hbit
  exact List.eq_of_mem_replicate (List.mem_of_getElem? hbit)

/-- The operand bytes of a well-formed `LDC` decode to it (R65, R74). -/
theorem decodeT_operandBytes (x : Byte) {c : Code} (h : c.length ≤ Config.lmax) :
    decodeT (operandBytes (.ldc x c)) = .instr (.ldc x c) := by
  have hlt : c.length < 2 ^ 8 := Nat.lt_succ_of_le h
  have hlen : (BitVec.ofNat 8 c.length).toNat = c.length := by rw [BitVec.toNat_ofNat, Nat.mod_eq_of_lt hlt]
  rw [operandBytes, decodeT_of_padClean (by rw [hlen, pack_length]) (by rw [hlen, padClean_pack]), hlen,
    take_unpack_pack]

/-- The 8 bytes of a count read back are the count (R67, R74). -/
theorem countOfBytes_bytesOfCount (n : Count) : countOfBytes (bytesOfCount n) = n := by
  apply BitVec.eq_of_toNat_eq
  have hrange : List.range 8 = [0, 1, 2, 3, 4, 5, 6, 7] := rfl
  rw [countOfBytes_toNat (bytesOfCount_length n)]
  simp only [bytesOfCount, beNat, hrange, List.map_cons, List.map_nil, List.foldl_cons, List.foldl_nil,
    BitVec.toNat_setWidth, BitVec.toNat_ushiftRight, Nat.shiftRight_eq_div_pow]
  have hlt := n.isLt
  omega

/-- `Decode(Encode(cmd)) = cmd` for every well-formed command (30_encoding.md section 4). -/
theorem decode_encode {i : Instr} (h : i.wf = true) : decode (encode i) = .instr i := by
  cases i with
  | nop | clr | ebegin | enc _ | eend | dbegin | dec _ | dend => rfl
  | ldc x c => exact (decode_ldc _).trans (decodeT_operandBytes x (of_decide_eq_true h))
  | dbeginl n =>
    exact (decode_dbeginl _).trans ((decodeQ_of_length (bytesOfCount_length n)).trans
      (by rw [countOfBytes_bytesOfCount]))

end Sys2Proof
end

section
/-! PROOFS. A command sequence sent through the command port is the sequence given to the block directly: no
command reads or writes what the host has still to send (R10, R55, R134). -/

namespace Sys2Proof.Machine

/-! ### The bodies of the commands do not see the port -/

theorem raise_consume (k : FaultKind) (rest : List HostEvent) (s : State) :
    raise k (consume rest s) = consume rest (raise k s) := rfl

theorem countPushed_consume (rest : List HostEvent) (s : State) :
    countPushed (consume rest s) = consume rest (countPushed s) := by
  unfold countPushed
  rw [consume_ebits]
  split <;> rfl

theorem pushBit_consume (b : Bool) (rest : List HostEvent) (s : State) :
    pushBit b (consume rest s) = consume rest (pushBit b s) := by
  unfold pushBit
  rw [← countPushed_consume, consume_cnt]
  split <;> rfl

theorem pushBits_consume (bs : Bits) (rest : List HostEvent) (s : State) :
    pushBits bs (consume rest s) = consume rest (pushBits bs s) := by
  induction bs generalizing s with
  | nil => rfl
  | cons b bs ih => rw [pushBits, pushBit_consume, ih, pushBits]

theorem encodeSymbol_consume (x : Byte) (rest : List HostEvent) (s : State) :
    encodeSymbol x (consume rest s) = consume rest (encodeSymbol x s) := by
  have hcode : (consume rest s).codeOf x = s.codeOf x := rfl
  unfold encodeSymbol
  rw [hcode]
  cases s.codeOf x with
  | none => rfl
  | some c => exact pushBits_consume c rest s

theorem closeEncode_consume (rest : List HostEvent) (s : State) :
    closeEncode (consume rest s) = consume rest (closeEncode s) := by
  rw [closeEncode_eq_pack, closeEncode_eq_pack]
  rfl

theorem loadCode_consume (x : Byte) (c : Code) (rest : List HostEvent) (s : State) :
    loadCode x c (consume rest s) = consume rest (loadCode x c s) := by
  unfold loadCode
  split <;> rfl

theorem openDecode_consume (lim : Bool) (n : Count) (rest : List HostEvent) (s : State) :
    openDecode lim n (consume rest s) = consume rest (openDecode lim n s) := by
  unfold openDecode
  rw [consume_ct]
  cases buildTree s.ct <;> rfl

theorem walkBit_consume (b : Bool) (rest : List HostEvent) (s : State) :
    walkBit b (consume rest s) = (walkBit b s).map (consume rest) := by
  have hnode : (consume rest s).nodeAt ((consume rest s).pos ++ [b]) = s.nodeAt (s.pos ++ [b]) := rfl
  unfold walkBit
  rw [hnode]
  split <;> rfl

theorem countWalked_consume (rest : List HostEvent) (s : State) :
    countWalked (consume rest s) = consume rest (countWalked s) := by
  unfold countWalked
  rw [consume_lim]
  split <;> rfl

theorem walkBits_consume (bs : Bits) (rest : List HostEvent) (s : State) :
    walkBits bs (consume rest s) = consume rest (walkBits bs s) := by
  induction bs generalizing s with
  | nil => rfl
  | cons b bs ih =>
    rw [walkBits, walkBits, consume_lim, consume_drem, walkBit_consume]
    split_ifs
    · rfl
    · cases walkBit b s with
      | none => rfl
      | some t => simp only [Option.map_some, countWalked_consume, ih]

theorem endDecode_consume (rest : List HostEvent) (s : State) :
    endDecode (consume rest s) = consume rest (endDecode s) := by
  have hend : (consume rest s).endsEarly = s.endsEarly := rfl
  unfold endDecode markAmbiguous
  rw [hend, consume_lim, consume_dany]
  split_ifs <;> rfl

/-- The checks common to the commands do not see the port either. -/
theorem command_consume {body : State → State} (legal : Phase) {rest : List HostEvent} {s : State}
    (h : body (consume rest s) = consume rest (body s)) :
    command legal body (consume rest s) = consume rest (command legal body s) := by
  unfold command
  rw [consume_phase, h, raise_consume]
  split_ifs <;> rfl

/-- What a command does is the same whatever the host has still to send. -/
theorem exec_consume {i : Instr} {s t : State} (h : exec i s = .next t) (rest : List HostEvent) :
    exec i (consume rest s) = .next (consume rest t) := by
  cases i with
  | nop | clr => cases h; rfl
  | ldc x c => cases h; exact congrArg _ (command_consume _ (loadCode_consume x c rest s))
  | ebegin => cases h; exact congrArg _ (command_consume (body := openEncode) _ rfl)
  | enc x => cases h; exact congrArg _ (command_consume _ (encodeSymbol_consume x rest s))
  | eend => cases h; exact congrArg _ (command_consume _ (closeEncode_consume rest s))
  | dbegin => cases h; exact congrArg _ (command_consume _ (openDecode_consume false _ rest s))
  | dbeginl n => cases h; exact congrArg _ (command_consume _ (openDecode_consume true n rest s))
  | dec d => cases h; exact congrArg _ (command_consume (body := decodeByte d) _ (walkBits_consume _ rest (markAny s)))
  | dend => cases h; exact congrArg _ (command_consume _ (endDecode_consume rest s))

/-! ### Sequences -/

theorem execAll_cons_of_next {i : Instr} {s t : State} (h : exec i s = .next t) (cmds : List Instr) :
    execAll (i :: cmds) s = execAll cmds t := by
  rw [execAll, h]

theorem execAll_append_of_next {xs : List Instr} {s t : State} (h : execAll xs s = .next t) (ys : List Instr) :
    execAll (xs ++ ys) s = execAll ys t := by
  induction xs generalizing s with
  | nil => cases h; rfl
  | cons i xs ih =>
    cases hi : exec i s with
    | next u =>
      rw [execAll_cons_of_next hi] at h
      rw [List.cons_append, execAll_cons_of_next hi, ih h]
    | fault r => cases r
    | refused r => rw [execAll, hi] at h; cases h

/-- The packet of a well-formed command runs it; in `FAULT` it is discarded, as the command is (R155, R156). -/
theorem runPacket_encode {i : Instr} (h : i.wf = true) (s : State) : runPacket (encode i) s = exec i s := by
  have hdec := decode_encode h
  unfold runPacket portAction
  by_cases hfault : s.phase = .fault
  · rw [if_pos hfault]
    by_cases hclr : encode i = [0x01#8]
    · have hi : i = .clr := by
        rw [hclr] at hdec
        exact (Decoded.instr.inj hdec).symm
      rw [if_pos hclr, hi]
    · have hi : i ≠ .clr := by rintro rfl; exact hclr rfl
      rw [if_neg hclr, exec_of_fault hfault hi]
  · rw [if_neg hfault, hdec]

/-- Well-formed commands sent as packets are taken one after another, each as if given directly (R55, R60). -/
theorem runSteps_packetsOf {cmds : List Instr} (hwf : ∀ i ∈ cmds, i.wf = true) {s t : State}
    (h : execAll cmds s = .next t) (rest : List HostEvent) :
    runSteps cmds.length (consume (packetsOf cmds ++ rest) s) = .next (consume rest t) := by
  induction cmds generalizing s with
  | nil => cases h; rfl
  | cons i cmds ih =>
    obtain ⟨hi, hcmds⟩ := List.forall_mem_cons.mp hwf
    cases hx : exec i s with
    | next u =>
      rw [execAll_cons_of_next hx] at h
      have hstep : step (consume (packetsOf (i :: cmds) ++ rest) s) = .next (consume (packetsOf cmds ++ rest) u) :=
        (runPacket_encode hi _).trans (exec_consume hx _)
      rw [List.length_cons, runSteps, hstep]
      exact ih hcmds h
    | fault r => cases r
    | refused r => rw [execAll, hx] at h; cases h

/-- With nothing else on the port, sending a command sequence is giving it to the block. -/
theorem runCommands_of_execAll {cmds : List Instr} (hwf : ∀ i ∈ cmds, i.wf = true) {s t : State}
    (hport : s.port = []) (h : execAll cmds s = .next t) : runCommands cmds s = .next (consume [] t) := by
  have hsent : sendPackets (cmds.map encode) s = consume (packetsOf cmds ++ []) s := by
    rw [sendPackets, hport, packetsOf, List.map_map, List.nil_append, List.append_nil]
    rfl
  rw [runCommands, hsent, runSteps_packetsOf hwf h]

end Sys2Proof.Machine
end

section
/-! PROOFS. Loading a whole table (R76, R128), and an encode run: it emits the packed codes (R94). -/

namespace Sys2Proof.Machine

/-! ### Loading a table -/

/-- A symbol above every listed one is stored at the end. -/
theorem storeCode_of_forall_lt {x : Byte} (c : Code) {ct : CodeTable} (h : ∀ e ∈ ct, e.1 < x) :
    storeCode x c ct = ct ++ [(x, c)] := by
  induction ct with
  | nil => rfl
  | cons e ct ih =>
    obtain ⟨hlt, hrest⟩ := List.forall_mem_cons.mp h
    rw [storeCode, if_neg (BitVec.lt_asymm hlt), if_neg (BitVec.ne_of_lt hlt).symm, ih hrest, List.cons_append]

/-- In `LOAD` the commands of an ascending table whose symbols are above those of `CT` append it to `CT`. -/
theorem execAll_map_ldc {table : CodeTable} {s : State} (hload : s.phase = .load)
    (hc : tableCanonical (s.ct ++ table) = true) (hne : ∀ e ∈ table, e.2 ≠ []) :
    execAll (table.map fun e => .ldc e.1 e.2) s = .next { s with ct := s.ct ++ table } := by
  induction table generalizing s with
  | nil => rw [List.append_nil]; rfl
  | cons e table ih =>
    obtain ⟨hcode, hne⟩ := List.forall_mem_cons.mp hne
    have habove : ∀ f ∈ s.ct, f.1 < e.1 := fun f hf =>
      (List.pairwise_append.mp (of_decide_eq_true hc)).2.2 f hf e List.mem_cons_self
    have hstep : exec (.ldc e.1 e.2) s = .next { s with ct := s.ct ++ [e] } := by
      rw [exec_ldc_of_load _ _ hload, loadCode_of_ne_nil _ hcode, setCode, storeCode_of_forall_lt _ habove]
    have hassoc : s.ct ++ e :: table = s.ct ++ [e] ++ table := List.append_cons _ _ _
    rw [hassoc] at hc ⊢
    rw [List.map_cons, execAll_cons_of_next hstep, ih (s := { s with ct := s.ct ++ [e] }) hload hc hne]

/-- `LDT` from any state: the reset state with the table loaded (R76). -/
theorem execAll_ldt {table : CodeTable} (hc : tableCanonical table = true) (hne : ∀ e ∈ table, e.2 ≠ [])
    (s : State) : execAll (Pseudo.ldt table).expand s = .next { resetBlock s with ct := table } :=
  (execAll_cons_of_next (exec_clr s) _).trans (execAll_map_ldc (s := resetBlock s) rfl hc hne)

/-! ### Pushing bits (R92) -/

/-- The bits of the register after a shift: all but the first, then the new one. -/
theorem byteBits_shiftIn (r : BitVec 8) (b : Bool) : byteBits (shiftIn r b) = (byteBits r).drop 1 ++ [b] := by
  have h : ∀ r : BitVec 8, ∀ b : Bool, byteBits (shiftIn r b) = (byteBits r).drop 1 ++ [b] := by decide
  exact h r b

/-- A pushed bit is never lost: the bytes it emits and the bits then held are the bits held before and the bit. -/
theorem pushBit_conserves (b : Bool) (s : State) :
    ∃ w, (pushBit b s).out = s.out ++ w ∧ unpack w ++ (pushBit b s).heldBits = s.heldBits ++ [b] := by
  have hshift : ∀ k, k ≤ 7 → (byteBits (shiftIn s.sr b)).drop k = (byteBits s.sr).drop (k + 1) ++ [b] := by
    intro k hk
    have hin : k ≤ ((byteBits s.sr).drop 1).length := hk
    rw [byteBits_shiftIn, List.drop_append_of_le_length hin, List.drop_drop, Nat.add_comm]
  rcases pushBit_cases b s with ⟨hcnt, h⟩ | ⟨hcnt, h⟩
  · refine ⟨[shiftIn s.sr b], by rw [h]; simp, ?_⟩
    have hempty : (pushBit b s).heldBits = [] := heldBits_of_cnt_zero (by rw [h]; simp)
    rw [hempty, List.append_nil, State.heldBits, hcnt]
    exact (List.append_nil _).trans (hshift 0 (by decide))
  · refine ⟨[], by rw [h]; simp, ?_⟩
    have hlt : s.cnt.toNat < 7 := by
      have hbound := s.cnt.isLt
      have hne : s.cnt.toNat ≠ 7 := fun h7 => hcnt (BitVec.eq_of_toNat_eq h7)
      omega
    have hnext : (s.cnt + 1#3).toNat = s.cnt.toNat + 1 := by
      rw [BitVec.toNat_add_of_lt (by simp; omega)]; rfl
    have hk : 8 - (s.cnt.toNat + 1) + 1 = 8 - s.cnt.toNat := by omega
    have hheld : (pushBit b s).heldBits = (byteBits (shiftIn s.sr b)).drop (8 - (s.cnt.toNat + 1)) := by
      rw [State.heldBits, h, countPushed_sr, countPushed_cnt, setSerializer_sr, setSerializer_cnt, hnext]
    rw [hheld, hshift _ (by omega), hk]
    rfl

/-- Pushed bits are never lost. -/
theorem pushBits_conserves (bs : Bits) (s : State) :
    ∃ w, (pushBits bs s).out = s.out ++ w ∧ unpack w ++ (pushBits bs s).heldBits = s.heldBits ++ bs := by
  induction bs generalizing s with
  | nil => exact ⟨[], (List.append_nil _).symm, (List.append_nil _).symm⟩
  | cons b bs ih =>
    obtain ⟨v, hvout, hvheld⟩ := pushBit_conserves b s
    obtain ⟨w, hwout, hwheld⟩ := ih (pushBit b s)
    refine ⟨v ++ w, ?_, ?_⟩
    · rw [pushBits, hwout, hvout, List.append_assoc]
    · calc unpack (v ++ w) ++ (pushBits (b :: bs) s).heldBits
          = unpack v ++ (unpack w ++ (pushBits bs (pushBit b s)).heldBits) := by
            rw [pushBits, unpack, List.flatMap_append, List.append_assoc]; rfl
        _ = unpack v ++ (pushBit b s).heldBits ++ bs := by rw [hwheld, List.append_assoc]
        _ = s.heldBits ++ b :: bs := by rw [hvheld, List.append_assoc, List.singleton_append]

/-- Bits pushed into an empty serializer and flushed come out packed (R93, R94). -/
theorem closeEncode_pushBits_out {bs : Bits} {s : State} (h : s.cnt = 0#3) :
    (closeEncode (pushBits bs s)).out = s.out ++ pack bs := by
  obtain ⟨w, hout, hheld⟩ := pushBits_conserves bs s
  rw [heldBits_of_cnt_zero h, List.nil_append] at hheld
  have hpack : pack bs = w ++ pack (pushBits bs s).heldBits := by
    rw [← pack_unpack_append, hheld]
  rw [closeEncode_eq_pack, hpack, ← List.append_assoc, ← hout]

/-! ### An encode run (R94) -/

theorem spell_cons_eq_some {ct : CodeTable} {x : Byte} {xs : List Byte} {e : Bits} :
    spell ct (x :: xs) = some e ↔ ∃ c d, lookupCode x ct = some c ∧ spell ct xs = some d ∧ e = c ++ d := by
  simp only [spell, Option.bind_eq_some_iff, Option.map_eq_some_iff]
  exact ⟨fun ⟨c, hc, d, hd, he⟩ => ⟨c, d, hc, hd, he.symm⟩, fun ⟨c, d, hc, hd, he⟩ => ⟨c, hc, d, hd, he.symm⟩⟩

/-- In `ENC` the commands of a text that the table spells push its bits. -/
theorem execAll_map_enc {syms : List Byte} {e : Bits} {s : State} (henc : s.phase = .enc)
    (h : spell s.ct syms = some e) : execAll (syms.map .enc) s = .next (pushBits e s) := by
  induction syms generalizing s e with
  | nil => cases h; rfl
  | cons x syms ih =>
    obtain ⟨c, d, hc, hd, rfl⟩ := spell_cons_eq_some.mp h
    have hcode : s.codeOf x = some c := hc
    have hstep : exec (.enc x) s = .next (pushBits c s) := by
      rw [exec, execEnc, command_of_legal henc (by decide), encodeSymbol, hcode]
    rw [List.map_cons, execAll_cons_of_next hstep, pushBits_append,
      ih ((pushBits_phase c s).trans henc) ((pushBits_ct c s).symm ▸ hd)]

/-- `COMPRESS` in `LOAD` of a text that the table spells. -/
theorem execAll_compress {syms : List Byte} {e : Bits} {s : State} (hload : s.phase = .load)
    (h : spell s.ct syms = some e) :
    execAll (Pseudo.compress syms).expand s = .next (closeEncode (pushBits e (openEncode s))) := by
  have hrun : execAll (syms.map .enc) (openEncode s) = .next (pushBits e (openEncode s)) := execAll_map_enc rfl h
  have hend : exec .eend (pushBits e (openEncode s)) = .next (closeEncode (pushBits e (openEncode s))) :=
    exec_eend_of_enc (pushBits_phase e _)
  rw [Pseudo.expand, execAll_cons_of_next (exec_ebegin_of_load hload), execAll_append_of_next hrun,
    execAll_cons_of_next hend, execAll]

/-- The encode run emits the packed codes and raises no fault (R94). -/
theorem execAll_compress_out {syms : List Byte} {e : Bits} {s : State} (hload : s.phase = .load)
    (h : spell s.ct syms = some e) :
    ∃ t, execAll (Pseudo.compress syms).expand s = .next t ∧ t.out = s.out ++ pack e ∧ t.err = s.err := by
  refine ⟨_, execAll_compress hload h, closeEncode_pushBits_out rfl, ?_⟩
  rw [closeEncode_eq_pack]
  exact pushBits_err e (openEncode s)

end Sys2Proof.Machine
end

section
/-! PROOFS. A decode run in legacy mode (R103, R105 to R107, R132): it emits the packed symbols, then what the zero
pad bits complete. -/

namespace Sys2Proof.Machine

/-! ### Walking a concatenation (42_decode.md, "Streaming law") -/

theorem walkBits_of_exhausted {s : State} (h : s.lim = true ∧ s.drem = 0#64) (bs : Bits) : walkBits bs s = s := by
  cases bs with
  | nil => rfl
  | cons b bs => rw [walkBits, if_pos h]

theorem walkBits_cons_of_none {b : Bool} {s : State} (hgo : ¬ (s.lim = true ∧ s.drem = 0#64))
    (h : walkBit b s = none) (bs : Bits) : walkBits (b :: bs) s = raise .malformedPayload s := by
  rw [walkBits, if_neg hgo, h]

theorem walkBits_cons_of_some {b : Bool} {s t : State} (hgo : ¬ (s.lim = true ∧ s.drem = 0#64))
    (h : walkBit b s = some t) (bs : Bits) : walkBits (b :: bs) s = walkBits bs (countWalked t) := by
  rw [walkBits, if_neg hgo, h]

/-- Walking keeps the phase, or has faulted. -/
theorem walkBits_phase (bs : Bits) (s : State) :
    (walkBits bs s).phase = s.phase ∨ (walkBits bs s).phase = .fault := by
  induction bs generalizing s with
  | nil => exact .inl rfl
  | cons b bs ih =>
    by_cases hstop : s.lim = true ∧ s.drem = 0#64
    · exact .inl (by rw [walkBits_of_exhausted hstop])
    · cases hb : walkBit b s with
      | none => exact .inr (by rw [walkBits_cons_of_none hstop hb, raise_phase])
      | some t =>
        have hphase : (countWalked t).phase = s.phase := by rw [countWalked_phase, walkBit_phase hb]
        rw [walkBits_cons_of_some hstop hb, ← hphase]
        exact ih (countWalked t)

/-- Walking a concatenation is walking its parts, unless the first part faults. -/
theorem walkBits_append (as bs : Bits) {s : State} (h : s.phase ≠ .fault) :
    walkBits (as ++ bs) s =
      if (walkBits as s).phase = .fault then walkBits as s else walkBits bs (walkBits as s) := by
  induction as generalizing s with
  | nil => exact (if_neg h).symm
  | cons a as ih =>
    by_cases hstop : s.lim = true ∧ s.drem = 0#64
    · simp only [walkBits_of_exhausted hstop, ite_self]
    · cases ha : walkBit a s with
      | none =>
        rw [List.cons_append, walkBits_cons_of_none hstop ha, walkBits_cons_of_none hstop ha, raise_phase, if_pos rfl]
      | some t =>
        rw [List.cons_append, walkBits_cons_of_some hstop ha, walkBits_cons_of_some hstop ha]
        exact ih (by rwa [countWalked_phase, walkBit_phase ha])

/-! ### The bytes of a payload -/

theorem walkBit_markAny (b : Bool) (s : State) : walkBit b (markAny s) = (walkBit b s).map markAny := by
  have hnode : (markAny s).nodeAt ((markAny s).pos ++ [b]) = s.nodeAt (s.pos ++ [b]) := rfl
  unfold walkBit
  rw [hnode]
  split <;> rfl

theorem countWalked_markAny (s : State) : countWalked (markAny s) = markAny (countWalked s) := by
  unfold countWalked
  rw [markAny_lim]
  split <;> rfl

/-- `DANY` may be set after the walk as well as before it. -/
theorem walkBits_markAny (bs : Bits) (s : State) : walkBits bs (markAny s) = markAny (walkBits bs s) := by
  induction bs generalizing s with
  | nil => rfl
  | cons b bs ih =>
    rw [walkBits, walkBits, markAny_lim, markAny_drem, walkBit_markAny]
    split_ifs
    · rfl
    · cases walkBit b s with
      | none => rfl
      | some t => simp only [Option.map_some, countWalked_markAny, ih]

/-- The commands of a payload walk its bits, when the walk meets no absent child (R106). -/
theorem execAll_map_dec {payload : List Byte} {s : State} (hdec : s.phase = .dec)
    (hwalk : (walkBits (unpack payload) s).phase ≠ .fault) :
    execAll (payload.map .dec) s =
      .next { walkBits (unpack payload) s with dany := s.dany || !payload.isEmpty } := by
  induction payload generalizing s with
  | nil => simp [execAll, unpack, walkBits]
  | cons d payload ih =>
    have happend := walkBits_append (byteBits d) (unpack payload) (s := s) (by rw [hdec]; decide)
    rw [← unpack_cons] at happend
    have hfirst : (walkBits (byteBits d) s).phase ≠ .fault := by
      intro hf
      rw [happend, if_pos hf] at hwalk
      exact hwalk hf
    rw [if_neg hfirst] at happend
    have hstep : exec (.dec d) s = .next (markAny (walkBits (byteBits d) s)) := by
      rw [exec, execDec, command_of_legal hdec (by decide), decodeByte, dataBits, walkBits_markAny]
    have hphase : (walkBits (byteBits d) s).phase = .dec :=
      ((walkBits_phase _ s).resolve_right hfirst).trans hdec
    have hrest : (walkBits (unpack payload) (markAny (walkBits (byteBits d) s))).phase ≠ .fault := by
      rwa [walkBits_markAny, ← happend]
    rw [List.map_cons, execAll_cons_of_next hstep, ih (s := markAny (walkBits (byteBits d) s)) hphase hrest,
      walkBits_markAny, ← happend, markAny_dany, Bool.true_or, List.isEmpty_cons, Bool.not_false, Bool.or_true]
    rfl

/-! ### Walking by the codes, in legacy mode (R102, R105) -/

/-- The walker's tree is the trie of the code table, as in every run of a `PrefixFree` table. -/
def State.walksTrie (s : State) : Prop := ∃ tr, s.tree = some tr ∧ IsTrie s.ct tr

theorem walkBit_of_code {b : Bool} {x : Byte} {s : State} (ht : s.walksTrie)
    (h : lookupCode x s.ct = some (s.pos ++ [b])) :
    walkBit b s = some { s with out := s.out ++ [x], pos := [] } := by
  obtain ⟨tr, htree, hleaf, -⟩ := ht
  have hnode : s.nodeAt (s.pos ++ [b]) = some (.leaf x) := by
    rw [State.nodeAt, htree, Option.bind_some, hleaf, h]
  rw [walkBit, hnode]
  rfl

theorem walkBit_of_isInternal {b : Bool} {s : State} (ht : s.walksTrie) (h : IsInternal s.ct (s.pos ++ [b])) :
    walkBit b s = some { s with pos := s.pos ++ [b] } := by
  obtain ⟨tr, htree, -, hint⟩ := ht
  have hnode : s.nodeAt (s.pos ++ [b]) = some .int := by
    rw [State.nodeAt, htree, Option.bind_some, hint]
    exact h
  rw [walkBit, hnode]
  rfl

/-- In legacy mode nothing is counted, so a walked bit is followed by the rest (R106). -/
theorem walkBits_cons_of_legacy {b : Bool} {s t : State} (hlim : s.lim = false) (h : walkBit b s = some t)
    (bs : Bits) : walkBits (b :: bs) s = walkBits bs t := by
  have ht : countWalked t = t := by rw [countWalked, walkBit_lim h, hlim]; rfl
  rw [walkBits_cons_of_some (by simp [hlim]) h, ht]

/-- Walking what is left of a code emits its symbol and returns to the root. -/
theorem walkBits_code {x : Byte} {r : Bits} {s : State} (ht : s.walksTrie) (hlim : s.lim = false) (hr : r ≠ [])
    (h : lookupCode x s.ct = some (s.pos ++ r)) (bs : Bits) :
    walkBits (r ++ bs) s = walkBits bs { s with out := s.out ++ [x], pos := [] } := by
  induction r generalizing s with
  | nil => exact absurd rfl hr
  | cons b r ih =>
    rw [List.cons_append]
    by_cases hlast : r = []
    · subst hlast
      exact walkBits_cons_of_legacy hlim (walkBit_of_code ht h) bs
    · rw [List.append_cons] at h
      have hint : IsInternal s.ct (s.pos ++ [b]) :=
        .inr ⟨x, _, h, List.prefix_append _ _, by simpa using hlast⟩
      rw [walkBits_cons_of_legacy hlim (walkBit_of_isInternal ht hint)]
      exact ih (s := { s with pos := s.pos ++ [b] }) ht hlim hlast h

/-- Walking the bits of a text from the root emits the text (R108). -/
theorem walkBits_spell {syms : List Byte} {e : Bits} {s : State} (ht : s.walksTrie) (hlim : s.lim = false)
    (hroot : s.pos = []) (hne : ∀ f ∈ s.ct, f.2 ≠ []) (h : spell s.ct syms = some e) (bs : Bits) :
    walkBits (e ++ bs) s = walkBits bs { s with out := s.out ++ syms } := by
  induction syms generalizing s e with
  | nil => cases h; rw [List.append_nil]; rfl
  | cons x syms ih =>
    obtain ⟨c, d, hc, hd, rfl⟩ := spell_cons_eq_some.mp h
    have hpos : lookupCode x s.ct = some (s.pos ++ c) := by rw [hroot, List.nil_append, hc]
    rw [List.append_assoc, walkBits_code ht hlim (hne _ (mem_of_lookupCode hc)) hpos,
      ih (s := { s with out := s.out ++ [x], pos := [] }) ht hlim rfl hne hd, List.append_assoc,
      List.singleton_append, ← hroot]

/-- Every internal node of the trie has a left child: no walk of zeros meets an absent one (R132). -/
def LeftComplete (ct : CodeTable) : Prop :=
  ∀ p, IsInternal ct p → IsInternal ct (p ++ [false]) ∨ IsCode ct (p ++ [false])

/-- Walking `n` zeros where no left child is absent emits at most `n` symbols. -/
theorem walkBits_zeros (n : Nat) {s : State} (ht : s.walksTrie) (hlim : s.lim = false)
    (hleft : n ≠ 0 → LeftComplete s.ct) (hpos : IsInternal s.ct s.pos) :
    ∃ extra q, extra.length ≤ n ∧
      walkBits (List.replicate n false) s = { s with out := s.out ++ extra, pos := q } := by
  induction n generalizing s with
  | zero => exact ⟨[], s.pos, Nat.le_refl 0, by rw [List.append_nil]; rfl⟩
  | succ n ih =>
    have hleft := hleft n.succ_ne_zero
    rw [List.replicate_succ]
    rcases hleft s.pos hpos with hint | ⟨x, hx⟩
    · obtain ⟨extra, q, hlen, hwalk⟩ := ih (s := { s with pos := s.pos ++ [false] }) ht hlim (fun _ => hleft) hint
      exact ⟨extra, q, Nat.le_succ_of_le hlen, by
        rw [walkBits_cons_of_legacy hlim (walkBit_of_isInternal ht hint), hwalk]⟩
    · obtain ⟨extra, q, hlen, hwalk⟩ :=
        ih (s := { s with out := s.out ++ [x], pos := [] }) ht hlim (fun _ => hleft) (.inl rfl)
      exact ⟨x :: extra, q, Nat.succ_le_succ hlen, by
        rw [walkBits_cons_of_legacy hlim (walkBit_of_code ht hx), hwalk, List.append_assoc,
          List.singleton_append]⟩

/-! ### The run (R76, R132) -/

theorem padBits_le_seven (n : Nat) : padBits n ≤ 7 := by unfold padBits; omega

/-- A walk of the packed bits of a text emits the text and at most one symbol for each pad bit. -/
theorem walkBits_unpack_pack {syms : List Byte} {e : Bits} {s : State} (ht : s.walksTrie) (hlim : s.lim = false)
    (hroot : s.pos = []) (hne : ∀ f ∈ s.ct, f.2 ≠ []) (h : spell s.ct syms = some e)
    (hleft : e ≠ [] → LeftComplete s.ct) :
    ∃ extra q, extra.length ≤ padBits e.length ∧
      walkBits (unpack (pack e)) s = { s with out := s.out ++ syms ++ extra, pos := q } := by
  have hzeros : padBits e.length ≠ 0 → LeftComplete s.ct := fun hpad => hleft (by rintro rfl; exact hpad rfl)
  obtain ⟨extra, q, hlen, hwalk⟩ :=
    walkBits_zeros (padBits e.length) (s := { s with out := s.out ++ syms }) ht hlim hzeros (.inl hroot)
  exact ⟨extra, q, hlen, by rw [unpack_pack, walkBits_spell ht hlim hroot hne h, hwalk]⟩

/-- In legacy mode `DEND` never faults (R107). -/
theorem exec_dend_of_legacy {s : State} (hdec : s.phase = .dec) (hlim : s.lim = false) :
    exec .dend s = .next { s with amb := s.amb || s.dany, tree := none, pos := [], phase := .load } := by
  obtain ⟨-, hdend⟩ := dendClosesTheDecodeRun
  obtain ⟨-, -, -, -, hlegacy⟩ := hdend s
  exact hlegacy hdec hlim

/-- The payload and the end of a legacy run, when the walk meets no absent child. -/
theorem execAll_decs_dend {payload out : List Byte} {q : Path} {s : State} (hdec : s.phase = .dec)
    (hlim : s.lim = false) (hwalk : walkBits (unpack payload) s = { s with out := out, pos := q }) :
    execAll (payload.map .dec ++ [.dend]) s = .next { s with
      out := out, dany := s.dany || !payload.isEmpty, amb := s.amb || (s.dany || !payload.isEmpty), tree := none,
      pos := [], phase := .load } := by
  have hsafe : (walkBits (unpack payload) s).phase ≠ .fault := by
    rw [hwalk]
    exact fun hf => absurd (hdec.symm.trans hf) (by decide)
  have hbytes := execAll_map_dec hdec hsafe
  have hend := exec_dend_of_legacy
    (s := { s with out := out, pos := q, dany := s.dany || !payload.isEmpty }) hdec hlim
  rw [hwalk] at hbytes
  exact (execAll_append_of_next hbytes [.dend]).trans (execAll_cons_of_next hend [])

/-- The legacy run over the packed bits of a text, where no left child is absent. -/
theorem execAll_decompressLegacy {syms : List Byte} {e : Bits} {s : State} (hload : s.phase = .load)
    (hc : tableCanonical s.ct = true) (hl : LengthsLegal s.ct) (hpf : PrefixFree s.ct)
    (h : spell s.ct syms = some e) (hleft : e ≠ [] → LeftComplete s.ct) :
    ∃ t extra, execAll (Pseudo.decompressLegacy (pack e)).expand s = .next t ∧
      t.out = s.out ++ syms ++ extra ∧ extra.length ≤ padBits e.length ∧ t.err = s.err ∧
      t.amb = !(pack e).isEmpty := by
  obtain ⟨tr, htrie, hopen⟩ := openDecode_of_prefixFree false 0#64 hc hl hpf
  obtain ⟨extra, q, hlen, hwalk⟩ := walkBits_unpack_pack
    (s := { s with
      tree := some tr, pos := [], lim := false, drem := 0#64, dany := false, amb := false, phase := .dec })
    ⟨tr, rfl, htrie⟩ rfl rfl (ne_nil_of_lengthsLegal hl) h hleft
  have hbegin := (exec_dbegin_of_load hload).trans (congrArg Host.Outcome.next hopen)
  exact ⟨_, extra, (execAll_cons_of_next hbegin _).trans (execAll_decs_dend rfl rfl hwalk), rfl, hlen, rfl, rfl⟩

end Sys2Proof.Machine
end

section
/-! PROOFS. The code tables of the reference host (R120 to R127): the tree's leaves are the symbols of the input, and
the codes are the paths to them. -/

namespace Sys2Proof.Codec

open Sys2Proof.Machine

/-! ### The symbols of a tree and of a queue (R120 to R123) -/

/-- The symbols at the leaves of a host tree, from left to right. -/
def HostTree.leaves : HostTree → List Byte
  | .leaf x => [x]
  | .node l r => l.leaves ++ r.leaves

theorem HostTree.leaves_ne_nil (t : HostTree) : t.leaves ≠ [] := by
  induction t with
  | leaf x => exact List.cons_ne_nil _ _
  | node l r ihl _ => exact List.append_ne_nil_of_left_ne_nil ihl _

/-- The symbols at the leaves of all the trees of a queue. -/
def queueLeaves (q : List Entry) : List Byte := q.flatMap fun e => e.tree.leaves

theorem enqueue_perm (tie : TieBreak) (e : Entry) (q : List Entry) : (enqueue tie e q).Perm (e :: q) := by
  induction q with
  | nil => exact .refl _
  | cons f q ih =>
    rw [enqueue]
    split_ifs
    · exact .refl _
    · exact (ih.cons f).trans (.swap e f q)

theorem foldl_enqueue_perm (tie : TieBreak) (es q : List Entry) :
    (es.foldl (fun q e => enqueue tie e q) q).Perm (es ++ q) := by
  induction es generalizing q with
  | nil => exact .refl _
  | cons e es ih => exact (ih _).trans (((enqueue_perm tie e q).append_left es).trans List.perm_middle)

/-- Merging keeps the symbols of the queue (R122). -/
theorem mergeLoop_leaves (tie : TieBreak) (fuel seq : Nat) (q : List Entry) :
    (queueLeaves (mergeLoop tie fuel seq q)).Perm (queueLeaves q) := by
  induction fuel generalizing seq q with
  | zero => exact .refl _
  | succ fuel ih =>
    match q with
    | [] => exact .refl _
    | [e] => exact .refl _
    | a :: b :: q =>
      refine (ih _ _).trans (((enqueue_perm tie _ q).flatMap_right _).trans (.of_eq ?_))
      simp only [queueLeaves, List.flatMap_cons, HostTree.leaves, List.append_assoc]

/-- With as many rounds as the queue has entries the loop ends with one tree (R122). -/
theorem mergeLoop_eq_singleton (tie : TieBreak) {fuel : Nat} (seq : Nat) {q : List Entry} (hne : q ≠ [])
    (hfuel : q.length ≤ fuel + 1) : ∃ e, mergeLoop tie fuel seq q = [e] := by
  induction fuel generalizing seq q with
  | zero =>
    have hone : q.length = 1 := Nat.le_antisymm hfuel (List.length_pos_iff.mpr hne)
    exact List.length_eq_one_iff.mp hone
  | succ fuel ih =>
    match q, hne with
    | [e], _ => exact ⟨e, rfl⟩
    | a :: b :: q, _ =>
      have hperm := enqueue_perm tie
        { weight := a.weight + b.weight, seq := seq, tree := .node a.tree b.tree } q
      have hlen := hperm.length_eq
      simp only [List.length_cons] at hlen hfuel
      exact ih (seq + 1) (List.ne_nil_of_length_eq_add_one hlen) (by omega)

/-! ### The tree of an input (R121, R122) -/

/-- The byte values that occur in an input, ascending (R121, R122). -/
def symbolsOf (input : List Byte) : List Byte := byteValues.filter fun b => freq input b != 0

theorem mem_byteValues (b : Byte) : b ∈ byteValues :=
  List.mem_map.mpr ⟨b.toNat, List.mem_range.mpr b.isLt, by simp⟩

theorem nodup_byteValues : byteValues.Nodup := by
  refine List.Nodup.map_on (fun i hi j hj h => ?_) List.nodup_range
  have hi : i < 2 ^ 8 := List.mem_range.mp hi
  have hj : j < 2 ^ 8 := List.mem_range.mp hj
  have hnat := congrArg BitVec.toNat h
  rwa [BitVec.toNat_ofNat, BitVec.toNat_ofNat, Nat.mod_eq_of_lt hi, Nat.mod_eq_of_lt hj] at hnat

theorem mem_symbolsOf {input : List Byte} {b : Byte} : b ∈ symbolsOf input ↔ b ∈ input := by
  simp [symbolsOf, mem_byteValues, freq, List.count_eq_zero]

theorem nodup_symbolsOf (input : List Byte) : (symbolsOf input).Nodup := nodup_byteValues.filter _

theorem length_symbolsOf_le (input : List Byte) : (symbolsOf input).length ≤ Config.nsym := by
  refine (List.length_filter_le _ _).trans (Nat.le_of_eq ?_)
  rw [byteValues, List.length_map, List.length_range]

theorem queueLeaves_seeds (input : List Byte) : queueLeaves (seeds input) = symbolsOf input := by
  calc queueLeaves (seeds input) = (symbolsOf input).zipIdx.flatMap fun p => [p.1] := List.flatMap_map ..
    _ = (symbolsOf input).zipIdx.map Prod.fst := List.map_eq_flatMap.symm
    _ = symbolsOf input := List.zipIdx_map_fst 0 _

theorem symbolsOf_nil : symbolsOf [] = [] := by
  rw [List.eq_nil_iff_forall_not_mem]
  exact fun b hb => List.not_mem_nil (mem_symbolsOf.mp hb)

theorem buildFromFrequencies_nil (tie : TieBreak) : buildFromFrequencies tie [] = none := by
  have hseeds : seeds [] = [] := by
    have hnone : (byteValues.filter fun b => freq [] b != 0) = [] := symbolsOf_nil
    rw [seeds, hnone]
    rfl
  rw [buildFromFrequencies, hseeds]
  rfl

/-- The leaves of the tree of an input are its symbols, each once (R122). -/
theorem buildFromFrequencies_leaves (tie : TieBreak) {input : List Byte} (h : input ≠ []) :
    ∃ t, buildFromFrequencies tie input = some t ∧ t.leaves.Perm (symbolsOf input) := by
  have hperm : ((seeds input).foldl (fun q e => enqueue tie e q) []).Perm (seeds input) := by
    simpa using foldl_enqueue_perm tie (seeds input) []
  have hne : (seeds input).foldl (fun q e => enqueue tie e q) [] ≠ [] := by
    intro hnil
    have hseeds : seeds input = [] := List.nil_perm.mp (hnil ▸ hperm)
    obtain ⟨b, hb⟩ := List.exists_mem_of_ne_nil _ h
    rw [← mem_symbolsOf, ← queueLeaves_seeds, hseeds] at hb
    exact List.not_mem_nil hb
  obtain ⟨e, he⟩ := mergeLoop_eq_singleton tie (seeds input).length hne (hperm.length_eq.le.trans (Nat.le_succ _))
  have hleaves : (queueLeaves [e]).Perm (queueLeaves (seeds input)) :=
    he ▸ (mergeLoop_leaves tie _ _ _).trans (hperm.flatMap_right _)
  rw [queueLeaves_seeds, queueLeaves, List.flatMap_singleton] at hleaves
  exact ⟨e.tree, by rw [buildFromFrequencies, he], hleaves⟩

/-! ### The codes of a tree (R124, R125, R127) -/

theorem leafCodes_symbols (t : HostTree) (p : Path) : (leafCodes t p).map Prod.fst = t.leaves := by
  induction t generalizing p with
  | leaf x => rfl
  | node l r ihl ihr => rw [leafCodes, List.map_append, ihl, ihr, HostTree.leaves]

/-- Every code of a subtree begins with the path to it. -/
theorem path_of_mem_leafCodes {t : HostTree} {p : Path} {e : Byte × Code} (h : e ∈ leafCodes t p) : p <+: e.2 := by
  induction t generalizing p with
  | leaf x => rw [List.mem_singleton.mp h]
  | node l r ihl ihr =>
    rcases List.mem_append.mp h with h | h
    · exact (List.prefix_append p [false]).trans (ihl h)
    · exact (List.prefix_append p [true]).trans (ihr h)

/-- A code is shorter than the number of leaves below its start (R127 (b)). -/
theorem length_lt_of_mem_leafCodes {t : HostTree} {p : Path} {e : Byte × Code} (h : e ∈ leafCodes t p) :
    e.2.length < p.length + t.leaves.length := by
  induction t generalizing p with
  | leaf x => rw [List.mem_singleton.mp h]; exact Nat.lt_succ_self _
  | node l r ihl ihr =>
    have hl := List.length_pos_iff.mpr l.leaves_ne_nil
    have hr := List.length_pos_iff.mpr r.leaves_ne_nil
    rw [HostTree.leaves, List.length_append]
    rcases List.mem_append.mp h with h | h
    · have hlt := ihl h
      rw [List.length_append, List.length_singleton] at hlt
      omega
    · have hlt := ihr h
      rw [List.length_append, List.length_singleton] at hlt
      omega

/-- Paths that go different ways at a node: neither begins with the other. -/
theorem codesApart_of_children {p : Path} {e f : Byte × Code} (he : p ++ [false] <+: e.2)
    (hf : p ++ [true] <+: f.2) : CodesApart e f := by
  obtain ⟨c, hc⟩ := he
  obtain ⟨d, hd⟩ := hf
  simp [CodesApart, ← hc, ← hd, List.append_assoc, List.prefix_append_right_inj]

/-- The codes of a tree are pairwise apart (R127 (c)). -/
theorem leafCodes_apart (t : HostTree) (p : Path) : (leafCodes t p).Pairwise CodesApart := by
  induction t generalizing p with
  | leaf x => exact List.pairwise_singleton _ _
  | node l r ihl ihr =>
    exact List.pairwise_append.mpr ⟨ihl _, ihr _, fun _ he _ hf =>
      codesApart_of_children (path_of_mem_leafCodes he) (path_of_mem_leafCodes hf)⟩

/-- A path from `p` that goes on to a code and is not the code itself goes left to some code (R120: an internal node
has both children). -/
theorem leafCodes_left {t : HostTree} {p q : Path} {e : Byte × Code} (h : e ∈ leafCodes t p) (hpq : p <+: q)
    (hqe : q <+: e.2) (hne : q ≠ e.2) : ∃ f ∈ leafCodes t p, q ++ [false] <+: f.2 := by
  induction t generalizing p with
  | leaf x =>
    rw [List.mem_singleton.mp h] at hqe hne
    exact absurd (hqe.eq_of_length_le hpq.length_le) hne
  | node l r ihl ihr =>
    by_cases hp : q = p
    · obtain ⟨f, hf⟩ : ∃ f, f ∈ leafCodes l (p ++ [false]) := by
        apply List.exists_mem_of_ne_nil
        intro hnil
        exact l.leaves_ne_nil (by rw [← leafCodes_symbols l (p ++ [false]), hnil]; rfl)
      exact ⟨f, List.mem_append_left _ hf, hp ▸ path_of_mem_leafCodes hf⟩
    · have hlt : p.length < q.length := hpq.length_le.lt_of_ne fun hlen => hp (hpq.eq_of_length hlen).symm
      have hchild : ∀ {b : Bool}, p ++ [b] <+: e.2 → p ++ [b] <+: q := fun hb =>
        List.prefix_of_prefix_length_le hb hqe (by simpa using hlt)
      rcases List.mem_append.mp h with h | h
      · obtain ⟨f, hf, hpre⟩ := ihl h (hchild (path_of_mem_leafCodes h))
        exact ⟨f, List.mem_append_left _ hf, hpre⟩
      · obtain ⟨f, hf, hpre⟩ := ihr h (hchild (path_of_mem_leafCodes h))
        exact ⟨f, List.mem_append_right _ hf, hpre⟩

theorem generateCodes_symbols (t : HostTree) : (generateCodes t).map Prod.fst = t.leaves := by
  cases t with
  | leaf x => rfl
  | node l r => exact leafCodes_symbols _ _

theorem generateCodes_apart (t : HostTree) : (generateCodes t).Pairwise CodesApart := by
  cases t with
  | leaf x => exact List.pairwise_singleton _ _
  | node l r => exact leafCodes_apart _ _

/-- A code of a tree of at most 256 leaves has a legal length (R125, R127 (b)). -/
theorem generateCodes_length {t : HostTree} (ht : t.leaves.length ≤ Config.nsym) {e : Byte × Code}
    (h : e ∈ generateCodes t) : Config.lmin ≤ e.2.length ∧ e.2.length ≤ Config.lmax := by
  cases t with
  | leaf x =>
    obtain rfl := List.mem_singleton.mp h
    exact ⟨Nat.le_refl 1, show 1 ≤ Config.lmax by decide⟩
  | node l r =>
    have hlt := (length_lt_of_mem_leafCodes h).trans_le ((Nat.zero_add _).le.trans ht)
    refine ⟨?_, Nat.le_of_lt_succ hlt⟩
    rcases List.mem_append.mp h with h | h <;> exact (path_of_mem_leafCodes h).length_le

/-- Every proper beginning of a code goes left to some code, in the one-leaf tree too (R125). -/
theorem generateCodes_left {t : HostTree} {q : Path} {e : Byte × Code} (h : e ∈ generateCodes t) (hqe : q <+: e.2)
    (hne : q ≠ e.2) : ∃ f ∈ generateCodes t, q ++ [false] <+: f.2 := by
  cases t with
  | leaf x =>
    obtain rfl := List.mem_singleton.mp h
    have hlt : q.length < 1 := hqe.length_le.lt_of_ne fun hlen => hne (hqe.eq_of_length hlen)
    obtain rfl := List.length_eq_zero_iff.mp (Nat.lt_one_iff.mp hlt)
    exact ⟨_, h, List.prefix_rfl⟩
  | node l r => exact leafCodes_left h List.nil_prefix hqe hne

/-! ### The table of an input (R124 to R128) -/

/-- Storing a symbol that has no code yet adds its entry. -/
theorem storeCode_perm {x : Byte} (c : Code) {ct : CodeTable} (h : x ∉ ct.map Prod.fst) :
    (storeCode x c ct).Perm ((x, c) :: ct) := by
  induction ct with
  | nil => exact .refl _
  | cons e ct ih =>
    obtain ⟨hxe, hx⟩ := not_or.mp (mt List.mem_cons.mpr h)
    rw [storeCode]
    rw [if_neg hxe]
    split_ifs
    · exact .refl _
    · exact ((ih hx).cons e).trans (.swap _ _ _)

/-- Storing entries of different symbols one after another adds them all. -/
theorem foldl_storeCode_perm {es ct : CodeTable} (h : ((es ++ ct).map Prod.fst).Nodup) :
    (es.foldl (fun ct e => storeCode e.1 e.2 ct) ct).Perm (es ++ ct) := by
  induction es generalizing ct with
  | nil => exact .refl _
  | cons e es ih =>
    have hnew : e.1 ∉ (es ++ ct).map Prod.fst := (List.nodup_cons.mp h).1
    rw [List.map_append, List.mem_append, not_or] at hnew
    have hstore : (storeCode e.1 e.2 ct).Perm (e :: ct) := storeCode_perm e.2 hnew.2
    have hperm : (es ++ storeCode e.1 e.2 ct).Perm (e :: (es ++ ct)) :=
      (hstore.append_left es).trans List.perm_middle
    exact (ih ((hperm.map Prod.fst).nodup_iff.mpr h)).trans hperm

theorem foldl_storeCode_canonical (es : CodeTable) {ct : CodeTable} (h : tableCanonical ct = true) :
    tableCanonical (es.foldl (fun ct e => storeCode e.1 e.2 ct) ct) = true := by
  induction es generalizing ct with
  | nil => exact h
  | cons e es ih => exact ih (tableCanonical_storeCode e.1 e.2 h)

theorem codeTableFor_nil (tie : TieBreak) : codeTableFor tie [] = [] := by
  rw [codeTableFor, buildFromFrequencies_nil]

/-- The table of an input lists the codes of a tree whose leaves are the symbols of the input (R124). -/
theorem codeTableFor_perm (tie : TieBreak) {input : List Byte} (h : input ≠ []) :
    ∃ t : HostTree, t.leaves.Perm (symbolsOf input) ∧ (codeTableFor tie input).Perm (generateCodes t) := by
  obtain ⟨t, ht, hleaves⟩ := buildFromFrequencies_leaves tie h
  have hnodup : ((generateCodes t ++ []).map Prod.fst).Nodup := by
    rw [List.append_nil, generateCodes_symbols]
    exact hleaves.nodup_iff.mpr (nodup_symbolsOf input)
  refine ⟨t, hleaves, ?_⟩
  rw [codeTableFor, ht]
  exact (foldl_storeCode_perm hnodup).trans (.of_eq (List.append_nil _))

theorem codeTableFor_canonical (tie : TieBreak) (input : List Byte) :
    tableCanonical (codeTableFor tie input) = true := by
  rw [codeTableFor]
  split
  · exact tableCanonical_nil
  · exact foldl_storeCode_canonical _ tableCanonical_nil

/-- The listed symbols are those of the input (R127 (a)). -/
theorem codeTableFor_symbols (tie : TieBreak) (input : List Byte) :
    ((codeTableFor tie input).map Prod.fst).Perm (symbolsOf input) := by
  by_cases h : input = []
  · rw [h, codeTableFor_nil, symbolsOf_nil]; exact .nil
  · obtain ⟨t, hleaves, hperm⟩ := codeTableFor_perm tie h
    have hsyms := hperm.map Prod.fst
    rw [generateCodes_symbols] at hsyms
    exact hsyms.trans hleaves

theorem length_codeTableFor_le (tie : TieBreak) (input : List Byte) :
    (codeTableFor tie input).length ≤ Config.nsym := by
  rw [← List.length_map (f := Prod.fst), (codeTableFor_symbols tie input).length_eq]
  exact length_symbolsOf_le input

/-- Every code has 1 to 255 bits (R127 (b)). -/
theorem codeTableFor_lengthsLegal (tie : TieBreak) (input : List Byte) :
    LengthsLegal (codeTableFor tie input) := by
  intro e he
  have hne : input ≠ [] := by rintro rfl; rw [codeTableFor_nil] at he; exact List.not_mem_nil he
  obtain ⟨t, hleaves, hperm⟩ := codeTableFor_perm tie hne
  exact generateCodes_length (hleaves.length_eq.trans_le (length_symbolsOf_le input)) (hperm.mem_iff.mp he)

/-- The codes are `PrefixFree` (R127 (c)). -/
theorem codeTableFor_prefixFree (tie : TieBreak) (input : List Byte) : PrefixFree (codeTableFor tie input) := by
  rw [← pairwise_codesApart_iff (codeTableFor_canonical tie input)]
  by_cases h : input = []
  · rw [h, codeTableFor_nil]; exact .nil
  · obtain ⟨t, -, hperm⟩ := codeTableFor_perm tie h
    exact (hperm.pairwise_iff fun {e f} => codesApart_symm.symm e f).mpr (generateCodes_apart t)

/-- A symbol of the input has a code (R127 (a)). -/
theorem exists_lookupCode_codeTableFor (tie : TieBreak) {input : List Byte} {b : Byte} (h : b ∈ input) :
    ∃ c, lookupCode b (codeTableFor tie input) = some c := by
  rw [← mem_symbolsOf, ← (codeTableFor_symbols tie input).mem_iff] at h
  obtain ⟨⟨x, c⟩, hmem, rfl⟩ := List.mem_map.mp h
  exact ⟨c, lookupCode_of_mem (codeTableFor_canonical tie input) hmem⟩

/-- A host tree has no absent left child (R120, R125, R132). -/
theorem codeTableFor_leftComplete (tie : TieBreak) {input : List Byte} (h : input ≠ []) :
    LeftComplete (codeTableFor tie input) := by
  obtain ⟨t, hleaves, hperm⟩ := codeTableFor_perm tie h
  have hc := codeTableFor_canonical tie input
  have hleft : ∀ {p : Path} {e : Byte × Code}, e ∈ codeTableFor tie input → p <+: e.2 → p ≠ e.2 →
      IsInternal (codeTableFor tie input) (p ++ [false]) ∨ IsCode (codeTableFor tie input) (p ++ [false]) := by
    intro p e he hpre hne
    obtain ⟨f, hf, hgo⟩ := generateCodes_left (hperm.mem_iff.mp he) hpre hne
    have hlook := lookupCode_of_mem hc (hperm.mem_iff.mpr hf)
    by_cases hend : p ++ [false] = f.2
    · exact .inr ⟨f.1, hend ▸ hlook⟩
    · exact .inl (.inr ⟨f.1, f.2, hlook, hgo, hend⟩)
  rintro p (rfl | ⟨x, c, hx, hpre, hne⟩)
  · obtain ⟨b, hb⟩ := List.exists_mem_of_ne_nil _ h
    obtain ⟨c, hlook⟩ := exists_lookupCode_codeTableFor tie hb
    have hmem := mem_of_lookupCode hlook
    exact hleft hmem List.nil_prefix (ne_nil_of_lengthsLegal (codeTableFor_lengthsLegal tie input) _ hmem).symm
  · exact hleft (mem_of_lookupCode hx) hpre hne

/-- A table spells every text whose symbols have codes. -/
theorem exists_spell {ct : CodeTable} {syms : List Byte} (h : ∀ x ∈ syms, ∃ c, lookupCode x ct = some c) :
    ∃ e, spell ct syms = some e := by
  induction syms with
  | nil => exact ⟨[], rfl⟩
  | cons x syms ih =>
    obtain ⟨⟨c, hc⟩, hsyms⟩ := List.forall_mem_cons.mp h
    obtain ⟨d, hd⟩ := ih hsyms
    exact ⟨c ++ d, spell_cons_eq_some.mpr ⟨c, d, hc, hd, rfl⟩⟩

/-- Only the empty text has no bits. -/
theorem spell_eq_nil_iff {ct : CodeTable} (hne : ∀ e ∈ ct, e.2 ≠ []) {syms : List Byte} {e : Bits}
    (h : spell ct syms = some e) : e = [] ↔ syms = [] := by
  cases syms with
  | nil => cases h; exact iff_of_true rfl rfl
  | cons x syms =>
    obtain ⟨c, d, hc, -, rfl⟩ := spell_cons_eq_some.mp h
    have hcode : c ≠ [] := hne _ (mem_of_lookupCode hc)
    exact iff_of_false (List.append_ne_nil_of_left_ne_nil hcode d) (List.cons_ne_nil _ _)

end Sys2Proof.Codec
end

section
/-! PROOFS. The file forms read back (R129, R130), the host driving the block (R128, R131, R132), and the legacy
host. -/

namespace Sys2Proof.Codec

open Sys2Proof.Machine

/-! ### A file's table read back (R129) -/

/-- Written entries are read back, and the rest of the file is left. -/
theorem readEntries_flatMap {ct : CodeTable} (hl : LengthsLegal ct) (rest : List Byte) :
    readEntries ct.length (ct.flatMap entryBytes ++ rest) = some (ct, rest) := by
  induction ct with
  | nil => rfl
  | cons e ct ih =>
    obtain ⟨⟨-, hmax⟩, hct⟩ := List.forall_mem_cons.mp hl
    have hlt : e.2.length < 2 ^ 8 := Nat.lt_succ_of_le hmax
    have hbytes : bytesFor (BitVec.ofNat 8 e.2.length).toNat = (pack e.2).length := by
      rw [BitVec.toNat_ofNat, Nat.mod_eq_of_lt hlt, pack_length]
    have hfile : (e :: ct).flatMap entryBytes ++ rest =
        e.1 :: BitVec.ofNat 8 e.2.length :: (pack e.2 ++ (ct.flatMap entryBytes ++ rest)) := by
      rw [List.flatMap_cons, List.append_assoc]
      rfl
    have hdec : decodeT (e.1 :: BitVec.ofNat 8 e.2.length :: pack e.2) = .instr (.ldc e.1 e.2) :=
      decodeT_operandBytes e.1 hmax
    rw [hfile, List.length_cons, readEntries, hbytes, List.take_left, List.drop_left, hdec, ih hct]
    rfl

/-- A written table of at most 256 entries is read back (R129). -/
theorem readTable_tableBytes {ct : CodeTable} (hn : ct.length ≤ Config.nsym) (hl : LengthsLegal ct)
    (rest : List Byte) : readTable (tableBytes ct ++ rest) = some (ct, rest) := by
  have hcount : (BitVec.ofNat 8 (ct.length / 256)).toNat * 256 + (BitVec.ofNat 8 ct.length).toNat = ct.length := by
    have hn : ct.length ≤ 256 := hn
    rw [BitVec.toNat_ofNat, BitVec.toNat_ofNat]
    omega
  rw [tableBytes, List.cons_append, List.cons_append, readTable, hcount, readEntries_flatMap hl]

theorem readLegacyContainer_legacyContainer {ct : CodeTable} (hn : ct.length ≤ Config.nsym) (hl : LengthsLegal ct)
    (payload : List Byte) : readLegacyContainer (legacyContainer ct payload) = some (ct, payload) :=
  readTable_tableBytes hn hl payload

/-! ### Driving the block (R128, R131, R132) -/

/-- A run of well-formed commands that raises no fault gives the host the bytes that it emitted. -/
theorem drive_of_execAll {cmds : List Instr} (hwf : ∀ i ∈ cmds, i.wf = true) {s t : State} (hport : s.port = [])
    (h : execAll cmds s = .next t) (herr : t.err = .none) :
    drive cmds s = .ok (t.out.drop s.out.length, consume [] t) := by
  rw [drive, runCommands_of_execAll hwf hport h]
  simp only [finishRun, consume_err, herr, consume_out]

/-- The commands of a table of legal lengths are well formed (R74, R76). -/
theorem wf_of_mem_ldt {table : CodeTable} (hl : LengthsLegal table) :
    ∀ i ∈ (Pseudo.ldt table).expand, i.wf = true := by
  intro i hi
  rcases List.mem_cons.mp hi with rfl | hi
  · rfl
  · obtain ⟨e, he, rfl⟩ := List.mem_map.mp hi
    exact decide_eq_true (hl e he).2

theorem wf_of_mem_compress (input : List Byte) : ∀ i ∈ (Pseudo.compress input).expand, i.wf = true := by
  simp [Pseudo.expand, Instr.wf, or_imp, forall_and]

theorem wf_of_mem_decompressLegacy (payload : List Byte) :
    ∀ i ∈ (Pseudo.decompressLegacy payload).expand, i.wf = true := by
  simp [Pseudo.expand, Instr.wf, or_imp, forall_and]

/-- Driving the block through a table and then a run: the run starts in the reset state with the table loaded. -/
theorem drive_ldt_append {ct : CodeTable} (hc : tableCanonical ct = true) (hl : LengthsLegal ct)
    {run : List Instr} (hwf : ∀ i ∈ run, i.wf = true) {s t : State} (hport : s.port = [])
    (h : execAll run { resetBlock s with ct := ct } = .next t) (herr : t.err = .none) :
    drive ((Pseudo.ldt ct).expand ++ run) s = .ok (t.out.drop s.out.length, consume [] t) := by
  refine drive_of_execAll (fun i hi => ?_) hport ?_ herr
  · exact (List.mem_append.mp hi).elim (wf_of_mem_ldt hl i) (hwf i)
  · rw [execAll_append_of_next (execAll_ldt hc (ne_nil_of_lengthsLegal hl) s), h]

/-! ### The legacy host (R130 (b), R132) -/

/-- The legacy host's file of an input holds its table and its packed codes. -/
theorem compressLegacy_eq (tie : TieBreak) {s : State} (hport : s.port = []) {input : List Byte} {e : Bits}
    (h : spell (codeTableFor tie input) input = some e) :
    compressLegacy tie s input = .ok (legacyContainer (codeTableFor tie input) (pack e)) := by
  obtain ⟨t, hrun, hout, herr⟩ :=
    execAll_compress_out (s := { resetBlock s with ct := codeTableFor tie input }) rfl h
  have hdrive := drive_ldt_append (codeTableFor_canonical tie input) (codeTableFor_lengthsLegal tie input)
    (wf_of_mem_compress input) hport hrun herr
  have hbytes : t.out.drop s.out.length = pack e := by rw [hout]; exact List.drop_left
  rw [compressLegacy, compressCommands, hdrive, hbytes]
  rfl

/-- The legacy host's output for a file that a table and a text of it make, where no left child is absent. -/
theorem decompressLegacy_eq {ct : CodeTable} (hn : ct.length ≤ Config.nsym) (hc : tableCanonical ct = true)
    (hl : LengthsLegal ct) (hpf : PrefixFree ct) {s : State} (hport : s.port = []) {text : List Byte} {e : Bits}
    (h : spell ct text = some e) (hleft : e ≠ [] → LeftComplete ct) :
    ∃ extra, extra.length ≤ padBits e.length ∧ decompressLegacy s (legacyContainer ct (pack e)) =
      .ok { bytes := text ++ extra, mayOverRead := !(pack e).isEmpty } := by
  obtain ⟨t, extra, hrun, hout, hlen, herr, hamb⟩ :=
    execAll_decompressLegacy (s := { resetBlock s with ct := ct }) rfl hc hl hpf h hleft
  have hdrive := drive_ldt_append hc hl (wf_of_mem_decompressLegacy (pack e)) hport hrun herr
  have hbytes : t.out.drop s.out.length = text ++ extra := by
    rw [hout, List.append_assoc]; exact List.drop_left
  refine ⟨extra, hlen, ?_⟩
  rw [decompressLegacy, readLegacyContainer_legacyContainer hn hl]
  simp only [legacyCommands, hdrive, hbytes, Except.map, consume_amb, hamb]

/-- Settles O48: the encode run packs the codes of the input, and the legacy run over the packed bytes gives the
input and what at most 7 zero pad bits complete, since a host tree has no absent left child. The bound on the bits is not
used: this host does not read `EBITS`. -/
theorem legacyHostOverReadsAndSaysSo : Obligations.LegacyHostOverReadsAndSaysSo := by
  intro tie s s' input hport hport' _
  have hl := codeTableFor_lengthsLegal tie input
  obtain ⟨e, he⟩ := exists_spell fun _ => exists_lookupCode_codeTableFor tie (input := input)
  have hnil : e = [] ↔ input = [] := spell_eq_nil_iff (ne_nil_of_lengthsLegal hl) he
  obtain ⟨extra, hextra, hdecompress⟩ := decompressLegacy_eq (length_codeTableFor_le tie input)
    (codeTableFor_canonical tie input) hl (codeTableFor_prefixFree tie input) hport' he
    fun hne => codeTableFor_leftComplete tie (mt hnil.mpr hne)
  exact ⟨_, extra, pack e, compressLegacy_eq tie hport he, rfl, (pack_eq_nil_iff e).trans hnil,
    hextra.trans (padBits_le_seven _), hdecompress⟩

end Sys2Proof.Codec
end

section
/-! PROOFS. `FAULT` (60_exceptions.md: R155, R158): packets are dropped there, and only `CLR` and the reset input
leave it. -/

namespace Sys2Proof.Machine

/-! ### A packet in `FAULT` (R155) -/

theorem step_of_packet {s : State} {p : Packet} {rest : List HostEvent} (h : s.port = .packet p :: rest) :
    step s = runPacket p (consume rest s) := by
  rw [step, h]

/-- In `FAULT` a packet that is not exactly `CLR`'s is discarded undecoded. -/
theorem runPacket_of_fault {p : Packet} {s : State} (h : s.phase = .fault) (hp : p ≠ [0x01#8]) :
    runPacket p s = .next s := by
  rw [runPacket, portAction, if_pos h, if_neg hp]

/-- In every phase the packet that is exactly `01` executes `CLR`. -/
theorem runPacket_clr (s : State) : runPacket [0x01#8] s = exec .clr s := runPacket_encode (i := .clr) rfl s

/-- Settles O10: the packet clauses by what a packet does in `FAULT`, the command clause by the commands' own check. -/
theorem faultPhaseDiscardsPackets : Obligations.FaultPhaseDiscardsPackets := by
  refine ⟨fun s p rest hfault hp => ⟨fun hne => ?_, fun heq => ?_⟩, fun i s hfault hi => exec_of_fault hfault hi⟩
  · rw [step_of_packet hp]
    exact runPacket_of_fault hfault hne
  · rw [step_of_packet hp, heq]
    exact runPacket_clr _

/-! ### The way out of `FAULT` (R158) -/

@[simp] theorem consume_block (rest : List HostEvent) (s : State) : (consume rest s).block = s.block := rfl

/-- What clears the block clears it in every phase (R81, R170). -/
theorem block_of_clearsNext {s t : State} (hc : s.clearsNext) (h : step s = .next t) : t.block = State.reset := by
  rcases step_cases h with ⟨hp, _⟩ | ⟨p, rest, hp, hr⟩ | ⟨_, _, rfl⟩ | ⟨_, _, _, _, _, _, rfl⟩
  · simp [State.clearsNext, hp] at hc
  · obtain rfl : p = [0x01#8] := by simpa [State.clearsNext, hp] using hc
    rw [runPacket_clr, exec_clr] at hr
    cases hr
    exact resetBlock_block _
  · exact resetBlock_block _
  · exact cutByReset_block _ _ _

/-- In `FAULT` a step that does not clear the block keeps every item of it. -/
theorem block_of_fault {s t : State} (hfault : s.phase = .fault) (hc : ¬ s.clearsNext) (h : step s = .next t) :
    t.block = s.block := by
  rcases step_cases h with ⟨_, rfl⟩ | ⟨p, rest, hp, hr⟩ | ⟨rest, hp, _⟩ | ⟨p, k, rest, _, hp, _, _⟩
  · rfl
  · have hne : p ≠ [0x01#8] := by rintro rfl; exact hc ⟨rest, .inl hp⟩
    rw [runPacket_of_fault (s := consume rest s) hfault hne] at hr
    cases hr
    exact consume_block rest s
  · exact absurd ⟨rest, .inr (.inl hp)⟩ hc
  · exact absurd ⟨rest, .inr (.inr ⟨p, k, hp⟩)⟩ hc

theorem phase_of_block_eq {s t : State} (h : t.block = s.block) : t.phase = s.phase :=
  (congrArg State.phase h :)

/-- Settles O32: the step clears the block, which is then in `LOAD`, or keeps it, which is then still in `FAULT`. -/
theorem faultIsLeftOnlyByClrOrReset : Obligations.FaultIsLeftOnlyByClrOrReset := by
  intro s t hfault h
  by_cases hc : s.clearsNext
  · have hreset := block_of_clearsNext hc h
    have hload : t.phase = .load := phase_of_block_eq (s := .reset) hreset
    exact ⟨fun ht => absurd (hload.symm.trans ht) (by decide), fun _ => ⟨hc, hreset⟩, fun _ => ⟨hload, hreset⟩⟩
  · have hkept := block_of_fault hfault hc h
    have hstay : t.phase = .fault := (phase_of_block_eq hkept).trans hfault
    exact ⟨fun _ => hkept, fun ht => absurd hstay ht, fun hclr => absurd hclr hc⟩

end Sys2Proof.Machine
end

section
/-! PROOFS. The ambiguous-padding warning `AMB` (60_exceptions.md: R161): which commands write it. -/

namespace Sys2Proof.Machine

/-- From `s` to `t` the block keeps `AMB` and opens no decode run. -/
def KeepsAmb (s t : State) : Prop := t.amb = s.amb ∧ (s.phase = .load → t.phase ≠ .dec)

/-- From `s` to `t` the block opens a decode run, without the warning (R103, R104). -/
def OpensDecode (s t : State) : Prop := s.phase = .load ∧ t.phase = .dec ∧ t.amb = false

/-- From `s` to `t` the block ends a legacy run that has consumed a byte, with the warning (R107). -/
def EndsAmbiguously (s t : State) : Prop :=
  s.phase = .dec ∧ s.lim = false ∧ s.dany = true ∧ t = closeDecode { s with amb := true }

theorem keepsAmb_refl (s : State) : KeepsAmb s s := ⟨rfl, fun hl hd => absurd (hl.symm.trans hd) (by decide)⟩

theorem keepsAmb_raise (k : FaultKind) (s : State) : KeepsAmb s (raise k s) :=
  ⟨raise_amb k s, fun _ => by rw [raise_phase]; decide⟩

theorem keepsAmb_of_phase_ne {s t : State} (hamb : t.amb = s.amb) (h : s.phase ≠ .load) : KeepsAmb s t :=
  ⟨hamb, fun hl => absurd hl h⟩

/-! ### The bodies of the commands -/

/-- A command leaves the warning alone, or its body runs. -/
theorem command_amb_cases (legal : Phase) (body : State → State) (s : State) :
    KeepsAmb s (command legal body s) ∨ (s.phase = legal ∧ command legal body s = body s) := by
  rcases command_cases legal body s with ⟨_, he⟩ | ⟨_, _, he⟩ | ⟨_, hp, he⟩
  · exact .inl (by rw [he]; exact keepsAmb_refl s)
  · exact .inl (by rw [he]; exact keepsAmb_raise _ s)
  · exact .inr ⟨hp, he⟩

/-- A command whose body leaves the warning alone leaves it alone. -/
theorem command_keepsAmb {legal : Phase} {body : State → State} {s : State}
    (h : s.phase = legal → KeepsAmb s (body s)) : KeepsAmb s (command legal body s) := by
  rcases command_amb_cases legal body s with hk | ⟨hp, he⟩
  · exact hk
  · rw [he]
    exact h hp

theorem loadCode_keepsAmb (x : Byte) (c : Code) (s : State) : KeepsAmb s (loadCode x c s) := by
  unfold loadCode
  split
  · exact keepsAmb_raise _ s
  · exact keepsAmb_refl s

theorem openEncode_keepsAmb (s : State) : KeepsAmb s (openEncode s) := ⟨rfl, fun _ hd => nomatch hd⟩

@[simp] theorem encodeSymbol_amb (x : Byte) (s : State) : (encodeSymbol x s).amb = s.amb := by
  unfold encodeSymbol
  split
  · exact raise_amb _ _
  · exact pushBits_amb _ _

@[simp] theorem closeEncode_amb (s : State) : (closeEncode s).amb = s.amb := by
  unfold closeEncode flush
  split <;> rfl

@[simp] theorem decodeByte_amb (d : Byte) (s : State) : (decodeByte d s).amb = s.amb := by
  rw [decodeByte, walkBits_amb, markAny_amb]

/-- The common part of `DBEGIN` and `DBEGINL` opens a run, or faults on a bad table. -/
theorem openDecode_amb_cases (lim : Bool) (n : Count) {s : State} (hload : s.phase = .load) :
    KeepsAmb s (openDecode lim n s) ∨ OpensDecode s (openDecode lim n s) := by
  cases hb : buildTree s.ct with
  | none => exact .inl (by rw [openDecode_of_none lim n hb]; exact keepsAmb_raise _ s)
  | some tr => exact .inr (by rw [openDecode_of_some lim n hb]; exact ⟨hload, rfl, rfl⟩)

/-- The body of `DEND` raises the warning only for a legacy run that has consumed a byte. -/
theorem endDecode_amb_cases {s : State} (hdec : s.phase = .dec) :
    KeepsAmb s (endDecode s) ∨ EndsAmbiguously s (endDecode s) := by
  have hrun : s.phase ≠ .load := by rw [hdec]; decide
  unfold endDecode markAmbiguous
  split_ifs with hearly hpad
  · exact .inl (keepsAmb_raise _ s)
  · obtain ⟨hlim, hdany⟩ : s.lim = false ∧ s.dany = true := by simpa using hpad
    exact .inr ⟨hdec, hlim, hdany, rfl⟩
  · exact .inl (keepsAmb_of_phase_ne (closeDecode_amb s) hrun)

/-! ### The commands, a step -/

/-- `DBEGIN` and `DBEGINL` with the checks common to the commands. -/
theorem command_openDecode_amb_cases (lim : Bool) (n : Count) (s : State) :
    KeepsAmb s (command .load (openDecode lim n) s) ∨ OpensDecode s (command .load (openDecode lim n) s) := by
  rcases command_amb_cases .load (openDecode lim n) s with hk | ⟨hload, he⟩
  · exact .inl hk
  · rw [he]
    exact openDecode_amb_cases lim n hload

/-- A command leaves the warning alone, or is `CLR`, or opens a decode run, or is the `DEND` of an ambiguous one. -/
theorem exec_amb_cases {i : Instr} {s t : State} (h : exec i s = .next t) :
    KeepsAmb s t ∨ i = .clr ∨ ((i = .dbegin ∨ ∃ n, i = .dbeginl n) ∧ OpensDecode s t) ∨
      (i = .dend ∧ EndsAmbiguously s t) := by
  cases i with
  | nop => cases h; exact .inl (keepsAmb_refl s)
  | clr => exact .inr (.inl rfl)
  | ldc x c => cases h; exact .inl (command_keepsAmb fun _ => loadCode_keepsAmb x c s)
  | ebegin => cases h; exact .inl (command_keepsAmb fun _ => openEncode_keepsAmb s)
  | enc x =>
    cases h
    exact .inl (command_keepsAmb fun hp => keepsAmb_of_phase_ne (encodeSymbol_amb x s) (by rw [hp]; decide))
  | eend =>
    cases h
    exact .inl (command_keepsAmb fun hp => keepsAmb_of_phase_ne (closeEncode_amb s) (by rw [hp]; decide))
  | dec d =>
    cases h
    exact .inl (command_keepsAmb fun hp => keepsAmb_of_phase_ne (decodeByte_amb d s) (by rw [hp]; decide))
  | dbegin =>
    cases h
    exact (command_openDecode_amb_cases false 0#64 s).imp_right fun ho => .inr (.inl ⟨.inl rfl, ho⟩)
  | dbeginl n =>
    cases h
    exact (command_openDecode_amb_cases true n s).imp_right fun ho => .inr (.inl ⟨.inr ⟨n, rfl⟩, ho⟩)
  | dend =>
    cases h
    rcases command_amb_cases .dec endDecode s with hk | ⟨hdec, he⟩
    · exact .inl hk
    · rw [he]
      exact (endDecode_amb_cases hdec).imp_right fun hend => .inr (.inr ⟨rfl, hend⟩)

/-- A step leaves the warning alone, or clears the block, or takes the packet of a `DBEGIN` or `DBEGINL` that opens
a decode run, or that of the `DEND` of an ambiguous one. -/
theorem step_amb_cases {s t : State} (h : step s = .next t) :
    KeepsAmb s t ∨ s.clearsNext ∨
      (∃ p rest, s.port = .packet p :: rest ∧ (p = [0x30#8] ∨ ∃ n, p = encode (.dbeginl n)) ∧ OpensDecode s t) ∨
      ∃ rest, s.port = .packet [0x33#8] :: rest ∧ EndsAmbiguously (consume rest s) t := by
  rcases step_cases h with ⟨_, rfl⟩ | ⟨p, rest, hp, hr⟩ | ⟨rest, hp, _⟩ | ⟨p, k, rest, _, hp, _, _⟩
  · exact .inl (keepsAmb_refl _)
  · rcases runPacket_cases hr with ⟨_, _, rfl⟩ | ⟨_, rfl, _⟩ | ⟨_, _, rfl⟩ | ⟨_, i, hd, he⟩
    · exact .inl (keepsAmb_refl s)
    · exact .inr (.inl ⟨rest, .inl hp⟩)
    · exact .inl (keepsAmb_raise .illegalCommand (consume rest s))
    · obtain rfl : encode i = p := encode_of_decode hd
      rcases exec_amb_cases he with hk | rfl | ⟨hi, hopen⟩ | ⟨rfl, hend⟩
      · exact .inl hk
      · exact .inr (.inl ⟨rest, .inl hp⟩)
      · refine .inr (.inr (.inl ⟨_, rest, hp, ?_, hopen⟩))
        exact hi.imp (fun hi => by rw [hi]; rfl) fun ⟨n, hi⟩ => ⟨n, by rw [hi]⟩
      · exact .inr (.inr (.inr ⟨rest, hp, hend⟩))
  · exact .inr (.inl ⟨rest, .inr (.inl hp)⟩)
  · exact .inr (.inl ⟨rest, .inr (.inr ⟨p, k, hp⟩)⟩)

theorem amb_of_clearsNext {s t : State} (hc : s.clearsNext) (h : step s = .next t) : t.amb = false :=
  (congrArg State.amb (block_of_clearsNext hc h) :)

/-- `DEND` raises the warning at the end of every legacy run that has consumed a byte (R107). -/
theorem amb_of_dend {s t : State} {rest : List HostEvent} (hp : s.port = .packet [0x33#8] :: rest)
    (hdec : s.phase = .dec) (hlim : s.lim = false) (hdany : s.dany = true) (h : step s = .next t) :
    t.amb = true := by
  have hrun : step s = exec .dend (consume rest s) := (step_of_packet hp).trans (runPacket_encode (i := .dend) rfl _)
  rw [hrun, exec_dend_of_legacy (s := consume rest s) hdec hlim] at h
  cases h
  rw [consume_dany, hdany, Bool.or_true]

/-- Settles O36: what can be done to `AMB` is keeping it, clearing it with the block, clearing it at the start of a
decode run and raising it at the end of one. -/
theorem ambiguousPaddingIsAWarning : Obligations.AmbiguousPaddingIsAWarning := by
  intro s t h
  refine ⟨fun hlow hhigh => ?rises, fun rest hp hdec hlim hdany => amb_of_dend hp hdec hlim hdany h,
    fun hhigh hlow => ?falls, fun hclear => ?cleared⟩
  case rises =>
    rcases step_amb_cases h with ⟨hamb, _⟩ | hc | ⟨_, _, _, _, _, _, hamb⟩ | ⟨rest, hp, hdec, hlim, hdany, rfl⟩
    · exact absurd ((hhigh.symm.trans hamb).trans hlow) (by decide)
    · exact absurd (hhigh.symm.trans (amb_of_clearsNext hc h)) (by decide)
    · exact absurd (hhigh.symm.trans hamb) (by decide)
    · exact ⟨rest, hp, hdec, hlim, hdany, rfl, rfl, rfl⟩
  case falls =>
    rcases step_amb_cases h with ⟨hamb, _⟩ | hc | ⟨p, rest, hp, hi, hload, hdec, _⟩ | ⟨_, _, _, _, _, rfl⟩
    · exact absurd ((hhigh.symm.trans hamb.symm).trans hlow) (by decide)
    · exact .inl ⟨hc, block_of_clearsNext hc h⟩
    · exact .inr ⟨p, rest, hp, hload, hdec, hi⟩
    · cases hlow
  case cleared =>
    rcases hclear with hc | ⟨hload, hdec⟩
    · exact amb_of_clearsNext hc h
    · rcases step_amb_cases h with ⟨_, hkeep⟩ | hc | ⟨_, _, _, _, _, _, hamb⟩ | ⟨_, _, hrun, _⟩
      · exact absurd hdec (hkeep hload)
      · exact amb_of_clearsNext hc h
      · exact hamb
      · exact absurd (hload.symm.trans hrun) (by decide)

end Sys2Proof.Machine
end

section
/-! PROOFS. `Encode` and `Decode` are inverse (30_encoding.md section 4). -/

namespace Sys2Proof

/-- Whatever decodes is well formed: a code has at most as many bits as the byte `LEN` can say (R62). -/
theorem wf_of_decode {p : Packet} {i : Instr} (h : decode p = .instr i) : i.wf = true := by
  cases i with
  | nop | clr | ebegin | enc _ | eend | dbegin | dbeginl _ | dec _ | dend => rfl
  | ldc x c =>
    obtain ⟨len, cb, -, -, rfl⟩ := decode_eq_ldc h
    have hlen : ((unpack cb).take len.toNat).length ≤ len.toNat := List.length_take_le _ _
    exact decide_eq_true (hlen.trans (Nat.le_of_lt_succ len.isLt))

/-- Settles O1: the two directions, and the packets as `Encode` lists them. -/
theorem encodingIsCanonical : Obligations.EncodingIsCanonical :=
  ⟨fun _ => decode_encode, fun _ _ => encode_of_decode, rfl, rfl, rfl, rfl, rfl, rfl, fun _ => rfl, fun _ => rfl,
    fun _ => rfl, fun _ _ => rfl⟩

/-- Settles O6: only `LDC` has an operand that could be too long. -/
theorem decodedCommandsAreWellFormed : Obligations.DecodedCommandsAreWellFormed := fun _ _ => wf_of_decode

/-- Settles O7: each packet is decoded. -/
theorem listedPacketsDecode : Obligations.ListedPacketsDecode := by
  refine ⟨?_, ?_, ?_, ?_, ?_, ?_⟩ <;> decide

end Sys2Proof
end

section
/-! PROOFS. One answer per command (R156): its own effect in the phases where it is legal, `SEQUENCE_ERROR` in the
others, nothing in `FAULT`. -/

namespace Sys2Proof.Machine

/-- The effect of a command in a phase where it is legal. -/
def effect : Instr → State → State
  | .nop, s => s
  | .clr, s => resetBlock s
  | .ldc x c, s => loadCode x c s
  | .ebegin, s => openEncode s
  | .enc x, s => encodeSymbol x s
  | .eend, s => closeEncode s
  | .dbegin, s => openDecode false 0#64 s
  | .dbeginl n, s => openDecode true n s
  | .dec d, s => decodeByte d s
  | .dend, s => endDecode s

theorem command_of_beq {legal : Phase} (hl : legal ≠ .fault) (body : State → State) {s : State}
    (h : (s.phase == legal) = true) : command legal body s = body s :=
  command_of_legal (eq_of_beq h) hl

/-- A command that is legal has its effect. -/
theorem exec_of_legal {i : Instr} {s : State} (h : legalIn i s.phase = true) : exec i s = .next (effect i s) := by
  cases i with
  | nop | clr => rfl
  | ldc _ _ | ebegin | enc _ | eend | dbegin | dbeginl _ | dec _ | dend =>
    exact congrArg _ (command_of_beq (by decide) _ h)

/-- Outside `FAULT` a command that is not legal raises `SEQUENCE_ERROR` (R32, R154). -/
theorem exec_of_illegal {i : Instr} {s : State} (hf : s.phase ≠ .fault) (h : legalIn i s.phase = false) :
    exec i s = .next (raise .sequenceError s) := by
  cases i with
  | nop => exact absurd (bne_eq_false_iff_eq.mp h) hf
  | clr => cases h
  | ldc _ _ | ebegin | enc _ | eend | dbegin | dbeginl _ | dec _ | dend =>
    exact congrArg _ (command_of_illegal hf (beq_eq_false_iff_ne.mp h))

theorem exec_total (i : Instr) (s : State) : ∃ t, exec i s = .next t := by
  cases i <;> exact ⟨_, rfl⟩

/-- What a command can do: nothing in `FAULT`; raise `SEQUENCE_ERROR` where it is not legal; its effect. -/
theorem exec_cases {i : Instr} {s t : State} (h : exec i s = .next t) :
    (s.phase = .fault ∧ i ≠ .clr ∧ t = s) ∨
    (s.phase ≠ .fault ∧ legalIn i s.phase = false ∧ t = raise .sequenceError s) ∨
    (legalIn i s.phase = true ∧ t = effect i s) := by
  cases hl : legalIn i s.phase with
  | true => exact .inr (.inr ⟨rfl, (Host.Outcome.next.inj ((exec_of_legal hl).symm.trans h)).symm⟩)
  | false =>
    by_cases hf : s.phase = .fault
    · have hi : i ≠ .clr := by rintro rfl; cases hl
      exact .inl ⟨hf, hi, (Host.Outcome.next.inj ((exec_of_fault hf hi).symm.trans h)).symm⟩
    · exact .inr (.inl ⟨hf, rfl, (Host.Outcome.next.inj ((exec_of_illegal hf hl).symm.trans h)).symm⟩)

/-! ### What the effects can do -/

theorem loadCode_cases (x : Byte) (c : Code) (s : State) :
    (c = [] ∧ loadCode x c s = raise .corruptCodeTable s) ∨ (c ≠ [] ∧ loadCode x c s = setCode x c s) := by
  by_cases hc : c = []
  · exact .inl ⟨hc, by rw [hc, loadCode_nil]⟩
  · exact .inr ⟨hc, loadCode_of_ne_nil x hc s⟩

theorem encodeSymbol_cases (x : Byte) (s : State) :
    (s.codeOf x = none ∧ encodeSymbol x s = raise .unmappedSymbol s) ∨
    (∃ c, s.codeOf x = some c ∧ encodeSymbol x s = pushBits c s) := by
  cases h : s.codeOf x with
  | none => exact .inl ⟨rfl, by rw [encodeSymbol, h]⟩
  | some c => exact .inr ⟨c, rfl, by rw [encodeSymbol, h]⟩

/-- The state in which a decode run begins with the tree `tr` (R103, R104). -/
def State.opened (s : State) (lim : Bool) (n : Count) (tr : Tree) : State :=
  { s with tree := some tr, pos := [], lim := lim, drem := n, dany := false, amb := false, phase := .dec }

theorem openDecode_cases (lim : Bool) (n : Count) (s : State) :
    (buildTree s.ct = none ∧ openDecode lim n s = raise .corruptCodeTable s) ∨
    (∃ tr, buildTree s.ct = some tr ∧ openDecode lim n s = s.opened lim n tr) := by
  cases h : buildTree s.ct with
  | none => exact .inl ⟨rfl, openDecode_of_none lim n h⟩
  | some tr => exact .inr ⟨tr, rfl, openDecode_of_some lim n h⟩

theorem endDecode_cases (s : State) :
    (s.endsEarly = true ∧ endDecode s = raise .malformedPayload s) ∨
    (∃ amb, endDecode s = { s with amb := amb, tree := none, pos := [], phase := .load }) := by
  by_cases h : s.endsEarly = true
  · exact .inl ⟨h, endDecode_of_endsEarly h⟩
  · refine .inr ⟨(markAmbiguous s).amb, ?_⟩
    rw [endDecode_of_not_endsEarly h]
    unfold markAmbiguous
    split <;> rfl

/-- Settles O25: `NOP` and `CLR` are legal in every phase but `FAULT`, and what is not legal faults. -/
theorem outOfPhaseCommandsRaiseSequenceError : Obligations.OutOfPhaseCommandsRaiseSequenceError := by
  refine fun i s hf h => ⟨?_, ?_, exec_of_illegal hf h⟩
  · rintro rfl
    exact hf (bne_eq_false_iff_eq.mp h)
  · rintro rfl
    cases h

/-! ### A packet, a step -/

theorem runPacket_total (p : Packet) (s : State) : ∃ t, runPacket p s = .next t := by
  unfold runPacket
  cases portAction s.phase p with
  | discard | illegal => exact ⟨_, rfl⟩
  | run i => exact exec_total i s

theorem step_of_reset {s : State} {rest : List HostEvent} (h : s.port = .reset :: rest) :
    step s = .next (resetBlock (consume rest s)) := by
  rw [step, h]

theorem step_of_resetDuring {s u : State} {p : Packet} {k : Nat} {rest : List HostEvent}
    (h : s.port = .resetDuring p k :: rest) (hr : runPacket p (consume rest s) = .next u) :
    step s = .next (cutByReset (consume rest s) k u) := by
  simp only [step, h, hr]

theorem step_of_idle {s : State} (h : s.port = []) : step s = .next s := by
  rw [step, h]

theorem step_total (s : State) : ∃ t, step s = .next t := by
  rcases hp : s.port with _ | ⟨_ | _ | ⟨p, k⟩, rest⟩
  · exact ⟨_, step_of_idle hp⟩
  · rw [step_of_packet hp]
    exact runPacket_total _ _
  · exact ⟨_, step_of_reset hp⟩
  · obtain ⟨u, hu⟩ := runPacket_total p (consume rest s)
    exact ⟨_, step_of_resetDuring hp hu⟩

/-- Outside `FAULT` a packet that decodes runs its command (R156). -/
theorem runPacket_of_decode {p : Packet} {i : Instr} {s : State} (hf : s.phase ≠ .fault)
    (h : decode p = .instr i) : runPacket p s = exec i s := by
  rw [runPacket, portAction, if_neg hf, h]

/-- Outside `FAULT` a packet that does not decode raises `ILLEGAL_COMMAND` (R69). -/
theorem runPacket_of_decode_illegal {p : Packet} {why : Illegal} {s : State} (hf : s.phase ≠ .fault)
    (h : decode p = .illegal why) : runPacket p s = .next (raise .illegalCommand s) := by
  rw [runPacket, portAction, if_neg hf, h]

/-- Settles O8: the packet is taken off the port and runs its command. -/
theorem stepRunsTheDecodedCommand : Obligations.StepRunsTheDecodedCommand := by
  intro s p rest i hp hf hd
  rw [step_of_packet hp, runPacket_of_decode (s := consume rest s) hf hd]
  rfl

/-- Settles O9: the packet is taken off the port, and the fault writes `ERR` and `PHASE`. -/
theorem illegalPacketRaisesIllegalCommand : Obligations.IllegalPacketRaisesIllegalCommand := by
  intro s p rest why hp hf hd
  rw [step_of_packet hp, runPacket_of_decode_illegal (s := consume rest s) hf hd]
  rfl

/-- Settles O11: a step of an idle port is written out. -/
theorem waitingHoldsTheState : Obligations.WaitingHoldsTheState := fun _ => step_of_idle

/-- Settles O13: every command answers, so every packet and every event does. -/
theorem everyCommandAndStepCompletes : Obligations.EveryCommandAndStepCompletes := ⟨exec_total, step_total⟩

end Sys2Proof.Machine
end

section
/-! PROOFS. The invariant of the machine: it holds at reset and every step keeps it. -/

namespace Sys2Proof.Machine

theorem emptySerializer_bound : (0#8).toNat < 2 ^ (0#3).toNat := by decide

/-- Settles O40: the table is empty, the block idle and without a fault. -/
theorem resetMeetsTheInvariant : Obligations.ResetMeetsTheInvariant where
  canonical := tableCanonical_nil
  lengths := fun _ he => absurd he List.not_mem_nil
  serializer := emptySerializer_bound
  errIffFault := by decide
  treeInDec := fun h => nomatch h
  noTreeOutside := fun _ => rfl
  treeOfTable := fun _ h => nomatch h
  posAtRoot := fun _ => rfl
  posInternal := fun h => absurd rfl h
  serializerIdle := fun _ => ⟨rfl, rfl⟩
  legacyCount := fun _ => rfl

/-- The invariant speaks of the items of the block alone, not of its ports. -/
theorem inv_block_iff (s : State) : Inv s.block ↔ Inv s :=
  ⟨fun h => { h with }, fun h => { h with }⟩

theorem inv_of_block_eq {s t : State} (h : t.block = s.block) (hs : Inv s) : Inv t :=
  (inv_block_iff t).mp (h ▸ (inv_block_iff s).mpr hs)

theorem inv_of_block_reset {t : State} (h : t.block = State.reset) : Inv t :=
  (inv_block_iff t).mp (h ▸ resetMeetsTheInvariant)

/-- Settles O27: every fault kind has a code other than 0, and under the invariant `ERR` says whether the phase is
`FAULT`. -/
theorem faultOutputIsErr : Obligations.FaultOutputIsErr := by
  intro s
  have herr : s.faultOutput = true ↔ s.err ≠ .none := by
    rw [State.faultOutput, bne_iff_ne]
    rcases s.err with _ | k
    · simp [Err.bits]
    · cases k <;> simp [Err.bits, FaultKind.code]
  exact ⟨herr, fun hinv => herr.trans hinv.errIffFault⟩

section effects
variable {s : State} (hs : Inv s)
include hs

theorem err_none_of_inv (hf : s.phase ≠ .fault) : s.err = .none :=
  not_not.mp (mt hs.errIffFault.mp hf)

/-- A fault keeps every item that the invariant speaks of but `ERR` and `PHASE` (R153). -/
theorem inv_raise (k : FaultKind) : Inv (raise k s) where
  canonical := hs.canonical
  lengths := hs.lengths
  serializer := hs.serializer
  errIffFault := ⟨fun _ => rfl, fun _ h => nomatch h⟩
  treeInDec := fun h => nomatch h
  noTreeOutside := fun h => nomatch h
  treeOfTable := hs.treeOfTable
  posAtRoot := hs.posAtRoot
  posInternal := hs.posInternal
  serializerIdle := fun h => nomatch h
  legacyCount := hs.legacyCount

/-- The tree of a state that meets the invariant is the trie of its table (R57, R102). -/
theorem walksTrie_of_inv (hdec : s.phase = .dec) : s.walksTrie := by
  obtain ⟨tr, htr⟩ := Option.ne_none_iff_exists'.mp (hs.treeInDec hdec)
  exact ⟨tr, htr, isTrie_of_buildTree hs.canonical (hs.treeOfTable tr htr)⟩

/-- A table whose tree has been built is `PrefixFree`. -/
theorem prefixFree_of_inv (hdec : s.phase = .dec) : PrefixFree s.ct := by
  obtain ⟨tr, htr⟩ := Option.ne_none_iff_exists'.mp (hs.treeInDec hdec)
  exact (buildTree_isSome_iff hs.canonical (ne_nil_of_lengthsLegal hs.lengths)).mp ⟨tr, hs.treeOfTable tr htr⟩

theorem isInternal_pos_of_inv (hdec : s.phase = .dec) : IsInternal s.ct s.pos := by
  obtain ⟨tr, htr, -, hint⟩ := walksTrie_of_inv hs hdec
  have hpos := hs.posInternal (hs.treeInDec hdec)
  rw [State.nodeAt, htr, Option.bind_some] at hpos
  exact (hint _).mp hpos

/-! ### The effects of the commands -/

theorem inv_setCode (hload : s.phase = .load) (x : Byte) {c : Code} (hc : c ≠ []) (hmax : c.length ≤ Config.lmax) :
    Inv (setCode x c s) := by
  have htree : s.tree = none := hs.noTreeOutside (.inl hload)
  have hlen : LengthsLegal (storeCode x c s.ct) := by
    intro e he
    rcases mem_storeCode he with rfl | he
    · exact ⟨List.length_pos_iff.mpr hc, hmax⟩
    · exact hs.lengths e he
  exact { hs with
    canonical := tableCanonical_storeCode x c hs.canonical
    lengths := hlen
    treeOfTable := fun t ht => nomatch htree.symm.trans ht }

theorem inv_openEncode (hload : s.phase = .load) : Inv (openEncode s) := by
  have hidle : s.err = .none := err_none_of_inv hs (by rw [hload]; decide)
  exact { hs with
    serializer := emptySerializer_bound
    errIffFault := ⟨fun h => absurd hidle h, fun h => nomatch h⟩
    treeInDec := fun h => nomatch h
    noTreeOutside := fun _ => hs.noTreeOutside (.inl hload)
    serializerIdle := fun h => nomatch h }

theorem inv_pushBits (henc : s.phase = .enc) (bs : Bits) : Inv (pushBits bs s) := by
  have hphase : (pushBits bs s).phase = .enc := (pushBits_phase bs s).trans henc
  have hbound := pushBits_bound bs hs.serializer
  rw [pushBits_frame bs s] at hphase hbound ⊢
  exact { hs with
    serializer := hbound
    serializerIdle := fun h => by rcases h with h | h <;> exact absurd (hphase.symm.trans h) (by decide) }

theorem inv_closeEncode (henc : s.phase = .enc) : Inv (closeEncode s) := by
  have hidle : s.err = .none := err_none_of_inv hs (by rw [henc]; decide)
  rw [closeEncode_eq_pack]
  exact { hs with
    serializer := emptySerializer_bound
    errIffFault := ⟨fun h => absurd hidle h, fun h => nomatch h⟩
    treeInDec := fun h => nomatch h
    noTreeOutside := fun _ => hs.noTreeOutside (.inr henc)
    serializerIdle := fun _ => ⟨rfl, rfl⟩ }

theorem inv_openDecode (hload : s.phase = .load) {lim : Bool} {n : Count} (hn : lim = false → n = 0#64) :
    Inv (openDecode lim n s) := by
  have hidle : s.err = .none := err_none_of_inv hs (by rw [hload]; decide)
  rcases openDecode_cases lim n s with ⟨_, h⟩ | ⟨tr, htr, h⟩ <;> rw [h]
  · exact inv_raise hs _
  · obtain ⟨-, hint⟩ := isTrie_of_buildTree hs.canonical htr
    exact { hs with
      errIffFault := ⟨fun h => absurd hidle h, fun h => nomatch h⟩
      treeInDec := fun _ h => nomatch h
      noTreeOutside := fun h => nomatch h
      treeOfTable := fun _ ht => (Option.some.inj ht) ▸ htr
      posAtRoot := fun _ => rfl
      posInternal := fun _ => (hint []).mpr (.inl rfl)
      serializerIdle := fun _ => hs.serializerIdle (.inl hload)
      legacyCount := hn }

theorem inv_endDecode (hdec : s.phase = .dec) : Inv (endDecode s) := by
  have hidle : s.err = .none := err_none_of_inv hs (by rw [hdec]; decide)
  rcases endDecode_cases s with ⟨_, h⟩ | ⟨amb, h⟩ <;> rw [h]
  · exact inv_raise hs _
  · exact { hs with
      errIffFault := ⟨fun h => absurd hidle h, fun h => nomatch h⟩
      treeInDec := fun h => nomatch h
      noTreeOutside := fun _ => rfl
      treeOfTable := fun _ h => nomatch h
      posAtRoot := fun _ => rfl
      posInternal := fun h => absurd rfl h
      serializerIdle := fun _ => hs.serializerIdle (.inr hdec) }

/-- A walked bit ends at an internal node: the one it moved to, or the root after a leaf. -/
theorem inv_walkBit (hdec : s.phase = .dec) {b : Bool} {t : State} (h : walkBit b s = some t) : Inv t := by
  obtain ⟨tr, htr, -, hint⟩ := walksTrie_of_inv hs hdec
  have htree : s.tree ≠ none := hs.treeInDec hdec
  rcases walkBit_cases h with ⟨x, _, rfl⟩ | ⟨hnode, rfl⟩
  · refine { hs with posAtRoot := fun _ => rfl, posInternal := fun _ => ?_ }
    show s.tree.bind (fun t => t.nodeAt []) = some .int
    rw [htr, Option.bind_some]
    exact (hint []).mpr (.inl rfl)
  · exact { hs with posAtRoot := fun h => absurd h htree, posInternal := fun _ => hnode }

theorem inv_countWalked : Inv (countWalked s) := by
  unfold countWalked
  split_ifs with hlim
  · exact { hs with legacyCount := fun h => absurd (hlim.symm.trans h) (by decide) }
  · exact hs

end effects

theorem inv_walkBits (bs : Bits) {s : State} (hs : Inv s) (hdec : s.phase = .dec) : Inv (walkBits bs s) := by
  induction bs generalizing s with
  | nil => exact hs
  | cons b bs ih =>
    by_cases hstop : s.lim = true ∧ s.drem = 0#64
    · rwa [walkBits_of_exhausted hstop]
    · cases hb : walkBit b s with
      | none =>
        rw [walkBits_cons_of_none hstop hb]
        exact inv_raise hs _
      | some t =>
        rw [walkBits_cons_of_some hstop hb]
        exact ih (inv_countWalked (inv_walkBit hs hdec hb)) (by rw [countWalked_phase, walkBit_phase hb, hdec])

/-! ### The commands, a step -/

/-- A well-formed command keeps the invariant. -/
theorem inv_exec {i : Instr} (hwf : i.wf = true) {s t : State} (hs : Inv s) (h : exec i s = .next t) : Inv t := by
  rcases exec_cases h with ⟨_, _, rfl⟩ | ⟨_, _, rfl⟩ | ⟨hl, rfl⟩
  · exact hs
  · exact inv_raise hs _
  · cases i with
    | nop => exact hs
    | clr => exact inv_of_block_reset (resetBlock_block s)
    | ldc x c =>
      rcases loadCode_cases x c s with ⟨_, h⟩ | ⟨hc, h⟩ <;> rw [effect, h]
      · exact inv_raise hs _
      · exact inv_setCode hs (eq_of_beq hl) x hc (of_decide_eq_true hwf)
    | ebegin => exact inv_openEncode hs (eq_of_beq hl)
    | enc x =>
      rcases encodeSymbol_cases x s with ⟨_, h⟩ | ⟨c, _, h⟩ <;> rw [effect, h]
      · exact inv_raise hs _
      · exact inv_pushBits hs (eq_of_beq hl) c
    | eend => exact inv_closeEncode hs (eq_of_beq hl)
    | dbegin => exact inv_openDecode hs (eq_of_beq hl) fun _ => rfl
    | dbeginl n => exact inv_openDecode hs (eq_of_beq hl) fun h => nomatch h
    | dec d => exact inv_walkBits _ (s := markAny s) { hs with } (eq_of_beq hl)
    | dend => exact inv_endDecode hs (eq_of_beq hl)

/-- A packet keeps the invariant: what it carries is well formed. -/
theorem inv_runPacket {p : Packet} {s t : State} (hs : Inv s) (h : runPacket p s = .next t) : Inv t := by
  rcases runPacket_cases h with ⟨_, _, rfl⟩ | ⟨_, _, rfl⟩ | ⟨_, _, rfl⟩ | ⟨_, i, hd, he⟩
  · exact hs
  · exact inv_of_block_reset (resetBlock_block s)
  · exact inv_raise hs _
  · exact inv_exec (wf_of_decode hd) hs he

/-- Settles O41: waiting keeps the state, a packet keeps the invariant, and a reset gives the reset state. -/
theorem everyStepKeepsTheInvariant : Obligations.EveryStepKeepsTheInvariant := by
  intro s t hs h
  rcases step_cases h with ⟨_, rfl⟩ | ⟨p, rest, _, hr⟩ | ⟨rest, _, rfl⟩ | ⟨p, k, rest, u, _, _, rfl⟩
  · exact hs
  · exact inv_runPacket (inv_of_block_eq (consume_block rest s) hs) hr
  · exact inv_of_block_reset (resetBlock_block _)
  · exact inv_of_block_reset (cutByReset_block _ _ _)

end Sys2Proof.Machine
end

section
/-! PROOFS. What every command and every step may do (10_state.md sections 1 and 9): the moves of `PHASE`, the frame
of each command. -/

namespace Sys2Proof.Machine

/-! ### The moves of `PHASE` (R32) -/

theorem phaseMove_clr (p : Phase) : phaseMove p .clr .load = true := by cases p <;> rfl

theorem phaseMove_nop {p : Phase} (h : p ≠ .fault) : phaseMove p .nop p = true := by
  cases p with
  | load | enc | dec => rfl
  | fault => exact absurd rfl h

theorem phaseMove_of_fault {i : Instr} (h : i ≠ .clr) : phaseMove .fault i .fault = true := by
  cases i with
  | clr => exact absurd rfl h
  | nop | ldc _ _ | ebegin | enc _ | eend | dbegin | dbeginl _ | dec _ | dend => rfl

/-- A command that is not legal in a phase may move it to `FAULT`, and so the table lists. -/
theorem phaseMove_of_illegal {i : Instr} {p : Phase} (hf : p ≠ .fault) (h : legalIn i p = false) :
    phaseMove p i .fault = true := by
  cases i with
  | nop => exact absurd (bne_eq_false_iff_eq.mp h) hf
  | clr => cases h
  | ldc _ _ | ebegin | enc _ | eend | dbegin | dbeginl _ | dec _ | dend => cases p <;> simp_all [legalIn, phaseMove]

theorem openDecode_phase (lim : Bool) (n : Count) (s : State) :
    (openDecode lim n s).phase = .fault ∨ (openDecode lim n s).phase = .dec := by
  rcases openDecode_cases lim n s with ⟨_, h⟩ | ⟨tr, _, h⟩ <;> rw [h]
  · exact .inl (raise_phase _ s)
  · exact .inr rfl

/-- The effect of a command moves `PHASE` as the table lists. -/
theorem phaseMove_effect {i : Instr} {s : State} (hl : legalIn i s.phase = true) :
    phaseMove s.phase i (effect i s).phase = true := by
  cases i with
  | nop => exact phaseMove_nop (bne_iff_ne.mp hl)
  | clr => exact phaseMove_clr s.phase
  | ldc x c =>
    have hload : s.phase = .load := eq_of_beq hl
    rcases loadCode_cases x c s with ⟨_, h⟩ | ⟨_, h⟩ <;> rw [effect, h]
    · rw [raise_phase, hload]; rfl
    · rw [setCode_phase, hload]; rfl
  | ebegin =>
    have hload : s.phase = .load := eq_of_beq hl
    rw [hload]; rfl
  | enc x =>
    have henc : s.phase = .enc := eq_of_beq hl
    rcases encodeSymbol_cases x s with ⟨_, h⟩ | ⟨c, _, h⟩ <;> rw [effect, h]
    · rw [raise_phase, henc]; rfl
    · rw [pushBits_phase, henc]; rfl
  | eend =>
    have henc : s.phase = .enc := eq_of_beq hl
    rw [effect, closeEncode_eq_pack, henc]; rfl
  | dbegin =>
    have hload : s.phase = .load := eq_of_beq hl
    rcases openDecode_phase false 0#64 s with h | h <;> rw [effect, h, hload] <;> rfl
  | dbeginl n =>
    have hload : s.phase = .load := eq_of_beq hl
    rcases openDecode_phase true n s with h | h <;> rw [effect, h, hload] <;> rfl
  | dec d =>
    have hdec : s.phase = .dec := eq_of_beq hl
    rcases walkBits_phase (dataBits d) (markAny s) with h | h <;> rw [effect, decodeByte, h]
    · rw [markAny_phase, hdec]; rfl
    · rw [hdec]; rfl
  | dend =>
    have hdec : s.phase = .dec := eq_of_beq hl
    rcases endDecode_cases s with ⟨_, h⟩ | ⟨amb, h⟩ <;> rw [effect, h, hdec] <;> rfl

theorem phaseMove_exec {i : Instr} {s t : State} (h : exec i s = .next t) :
    phaseMove s.phase i t.phase = true := by
  rcases exec_cases h with ⟨hf, hi, rfl⟩ | ⟨hf, hl, rfl⟩ | ⟨hl, rfl⟩
  · rw [hf]
    exact phaseMove_of_fault hi
  · exact phaseMove_of_illegal hf hl
  · exact phaseMove_effect hl

/-- A packet that decodes moves `PHASE` as its command may, discarded or not. -/
theorem phaseMove_runPacket {p : Packet} {i : Instr} {s t : State} (hd : decode p = .instr i)
    (h : runPacket p s = .next t) : phaseMove s.phase i t.phase = true := by
  obtain rfl := encode_of_decode hd
  rw [runPacket_encode (wf_of_decode hd)] at h
  exact phaseMove_exec h

/-- A packet that does not decode leads to `FAULT`, or is discarded there. -/
theorem phase_of_illegal {p : Packet} {why : Illegal} {s t : State} (hd : decode p = .illegal why)
    (h : runPacket p s = .next t) : t.phase = .fault := by
  rcases runPacket_cases h with ⟨hf, _, rfl⟩ | ⟨_, rfl, _⟩ | ⟨_, _, rfl⟩ | ⟨_, i, hi, _⟩
  · exact hf
  · cases hd
  · exact raise_phase _ s
  · cases hd.symm.trans hi

/-- Settles O28: by what a command, a packet and a reset do to `PHASE`. -/
theorem phaseMovesOnlyAsTheTableSays : Obligations.PhaseMovesOnlyAsTheTableSays := by
  refine ⟨fun i s t => phaseMove_exec, fun s t p rest hp h => ?_, fun s t h => ⟨fun hp => ?_, fun rest hp => ?_,
    fun p k rest hp => ?_⟩⟩
  · rw [step_of_packet hp] at h
    cases hd : decode p with
    | instr i => exact phaseMove_runPacket (s := consume rest s) hd h
    | illegal why => exact phase_of_illegal hd h
  · rw [step_of_idle hp] at h
    cases h
    rfl
  · exact phase_of_block_eq (s := .reset) (block_of_clearsNext ⟨rest, .inr (.inl hp)⟩ h)
  · exact phase_of_block_eq (s := .reset) (block_of_clearsNext ⟨rest, .inr (.inr ⟨p, k, hp⟩)⟩ h)

/-! ### The frame of each command (10_state.md section 1) -/

theorem decodeByte_frame (d : Byte) (s : State) :
    decodeByte d s = { s with
      dany := true, out := (decodeByte d s).out, pos := (decodeByte d s).pos, drem := (decodeByte d s).drem,
      err := (decodeByte d s).err, phase := (decodeByte d s).phase } :=
  walkBits_frame (dataBits d) (markAny s)

/-- A byte walked writes `ERR` only on the way to `FAULT`. -/
theorem walkBits_err_cases (bs : Bits) (s : State) :
    ((walkBits bs s).phase = s.phase ∧ (walkBits bs s).err = s.err) ∨
      ((walkBits bs s).phase = .fault ∧ (walkBits bs s).err = .raised .malformedPayload) := by
  induction bs generalizing s with
  | nil => exact .inl ⟨rfl, rfl⟩
  | cons b bs ih =>
    by_cases hstop : s.lim = true ∧ s.drem = 0#64
    · exact .inl (by rw [walkBits_of_exhausted hstop]; exact ⟨rfl, rfl⟩)
    · cases hb : walkBit b s with
      | none => exact .inr (by rw [walkBits_cons_of_none hstop hb]; exact ⟨rfl, rfl⟩)
      | some t =>
        have hphase : (countWalked t).phase = s.phase := by rw [countWalked_phase, walkBit_phase hb]
        have herr : (countWalked t).err = s.err := by rw [countWalked_err, walkBit_err hb]
        rw [walkBits_cons_of_some hstop hb, ← hphase, ← herr]
        exact ih (countWalked t)

/-- Settles O29: in each case the new state is written out, and with it which items differ. -/
theorem eachItemIsWrittenOnlyByItsCommands : Obligations.EachItemIsWrittenOnlyByItsCommands := by
  intro i s t h hclr
  rcases exec_cases h with ⟨_, _, rfl⟩ | ⟨_, _, rfl⟩ | ⟨_, rfl⟩
  · simp
  · simp
  · cases i with
    | nop => simp [effect]
    | clr => exact absurd rfl hclr
    | ldc x c =>
      rcases loadCode_cases x c s with ⟨_, h⟩ | ⟨_, h⟩ <;> rw [effect, h]
      · simp
      · refine ⟨.inr ⟨x, c, rfl, ?_, fun y hy => ?_⟩, by simp⟩
        · rw [codeOf_setCode, if_pos rfl]
        · rw [codeOf_setCode, if_neg hy]
    | ebegin => simp [effect, openEncode_eq]
    | enc x => rcases encodeSymbol_cases x s with ⟨_, h⟩ | ⟨c, _, h⟩ <;> simp [effect, h]
    | eend => simp [effect, closeEncode_eq_pack]
    | dbegin => rcases openDecode_cases false 0#64 s with ⟨_, h⟩ | ⟨tr, _, h⟩ <;> simp [effect, h, State.opened]
    | dbeginl n => rcases openDecode_cases true n s with ⟨_, h⟩ | ⟨tr, _, h⟩ <;> simp [effect, h, State.opened]
    | dec d =>
      rcases walkBits_err_cases (dataBits d) (markAny s) with ⟨hp, he⟩ | ⟨hp, _⟩
      · simp [effect, decodeByte, hp, he]
      · simp [effect, decodeByte, hp]
    | dend => rcases endDecode_cases s with ⟨_, h⟩ | ⟨amb, h⟩ <;> simp [effect, h]

end Sys2Proof.Machine
end

section
/-! PROOFS. The output (20_memory.md sections 1 and 4, R170, R172): how much a command emits, and that nothing takes a
byte back. -/

namespace Sys2Proof.Machine

/-- How many bytes a command may emit from a state. -/
def emissionLimit : Instr → State → Nat
  | .enc x, s => (7 + ((s.codeOf x).getD []).length) / 8
  | .eend, _ => 1
  | .dec _, _ => 8
  | _, _ => 0

/-- From `s` to `t` at most `n` bytes have been emitted. -/
def EmitsAtMost (n : Nat) (s t : State) : Prop := ∃ e, t.out = s.out ++ e ∧ e.length ≤ n

theorem emitsAtMost_of_out_eq (n : Nat) {s t : State} (h : t.out = s.out) : EmitsAtMost n s t :=
  ⟨[], by rw [h, List.append_nil], Nat.zero_le n⟩

/-- Every walked bit emits at most one byte. -/
theorem walkBits_emitsAtMost (bs : Bits) (s : State) : EmitsAtMost bs.length s (walkBits bs s) := by
  induction bs generalizing s with
  | nil => exact emitsAtMost_of_out_eq _ rfl
  | cons b bs ih =>
    by_cases hstop : s.lim = true ∧ s.drem = 0#64
    · exact emitsAtMost_of_out_eq _ (by rw [walkBits_of_exhausted hstop])
    · cases hb : walkBit b s with
      | none => exact emitsAtMost_of_out_eq _ (by rw [walkBits_cons_of_none hstop hb, raise_out])
      | some t =>
        obtain ⟨e, he, hlen⟩ := ih (countWalked t)
        rw [walkBits_cons_of_some hstop hb]
        rcases walkBit_cases hb with ⟨x, _, rfl⟩ | ⟨_, rfl⟩
        · refine ⟨x :: e, ?_, Nat.succ_le_succ hlen⟩
          rw [he, countWalked_out, moveTo_out, emit_out, List.append_assoc, List.singleton_append]
        · refine ⟨e, ?_, Nat.le_succ_of_le hlen⟩
          rw [he, countWalked_out, moveTo_out]

/-- Pushed bits fill a byte for each eight of them, counted with those held. -/
theorem pushBits_emitsAtMost (bs : Bits) (s : State) : EmitsAtMost ((7 + bs.length) / 8) s (pushBits bs s) := by
  obtain ⟨w, hout, hheld⟩ := pushBits_conserves bs s
  have hlen := congrArg List.length hheld
  rw [List.length_append, List.length_append, unpack_length, heldBits_length, heldBits_length] at hlen
  have hcnt := s.cnt.isLt
  exact ⟨w, hout, by omega⟩

theorem closeEncode_emitsAtMost (s : State) : EmitsAtMost 1 s (closeEncode s) := by
  rw [closeEncode_eq_pack]
  refine ⟨pack s.heldBits, rfl, ?_⟩
  have hcnt := s.cnt.isLt
  rw [pack_length, heldBits_length, bytesFor]
  omega

theorem openDecode_out (lim : Bool) (n : Count) (s : State) : (openDecode lim n s).out = s.out := by
  rcases openDecode_cases lim n s with ⟨_, h⟩ | ⟨tr, _, h⟩ <;> rw [h]
  · exact raise_out _ s
  · rfl

theorem effect_emitsAtMost (i : Instr) (s : State) : EmitsAtMost (emissionLimit i s) s (effect i s) := by
  cases i with
  | nop | clr | ebegin => exact emitsAtMost_of_out_eq _ rfl
  | ldc x c =>
    rcases loadCode_cases x c s with ⟨_, h⟩ | ⟨_, h⟩ <;> exact emitsAtMost_of_out_eq _ (by simp [effect, h])
  | enc x =>
    rcases encodeSymbol_cases x s with ⟨_, h⟩ | ⟨c, hc, h⟩ <;> rw [effect, h]
    · exact emitsAtMost_of_out_eq _ (raise_out _ s)
    · rw [emissionLimit, hc]
      exact pushBits_emitsAtMost c s
  | eend => exact closeEncode_emitsAtMost s
  | dbegin | dbeginl _ => exact emitsAtMost_of_out_eq _ (openDecode_out _ _ s)
  | dec d => exact walkBits_emitsAtMost (dataBits d) (markAny s)
  | dend =>
    rcases endDecode_cases s with ⟨_, h⟩ | ⟨amb, h⟩ <;> exact emitsAtMost_of_out_eq _ (by simp [effect, h])

theorem exec_emitsAtMost {i : Instr} {s t : State} (h : exec i s = .next t) :
    EmitsAtMost (emissionLimit i s) s t := by
  rcases exec_cases h with ⟨_, _, rfl⟩ | ⟨_, _, rfl⟩ | ⟨_, rfl⟩
  · exact emitsAtMost_of_out_eq _ rfl
  · exact emitsAtMost_of_out_eq _ (raise_out _ s)
  · exact effect_emitsAtMost i s

/-- With legal code lengths an `ENC` emits at most 32 bytes: 7 bits held and 255 pushed. -/
theorem emissionLimit_enc_le {s : State} (h : LengthsLegal s.ct) (x : Byte) : emissionLimit (.enc x) s ≤ 32 := by
  have hlen : ((s.codeOf x).getD []).length ≤ 255 := by
    cases hx : s.codeOf x with
    | none => exact Nat.zero_le _
    | some c => exact (h _ (mem_of_lookupCode hx)).2
  rw [emissionLimit]
  omega

/-- Settles O35: the limits of the commands, that of `ENC` under the invariant's code lengths. -/
theorem emissionBounds : Obligations.EmissionBounds := by
  intro i s t hs h
  obtain ⟨e, he, hlen⟩ := exec_emitsAtMost h
  refine ⟨e, he, ?_⟩
  cases i with
  | enc x => exact hlen.trans (emissionLimit_enc_le hs.lengths x)
  | eend | dec _ => exact hlen
  | nop | clr | ldc _ _ | ebegin | dbegin | dbeginl _ | dend =>
    exact List.eq_nil_of_length_eq_zero (Nat.le_zero.mp hlen)

/-! ### A step takes no byte back -/

theorem runPacket_out_prefix {p : Packet} {s t : State} (h : runPacket p s = .next t) : s.out <+: t.out := by
  rcases runPacket_cases h with ⟨_, _, rfl⟩ | ⟨_, _, rfl⟩ | ⟨_, _, rfl⟩ | ⟨_, i, _, he⟩
  · exact List.prefix_rfl
  · exact List.prefix_rfl
  · exact List.prefix_rfl
  · obtain ⟨e, hout, -⟩ := exec_emitsAtMost he
    exact ⟨e, hout.symm⟩

/-- No command takes anything off the port (R55). -/
theorem exec_port {i : Instr} {s t : State} (h : exec i s = .next t) : t.port = s.port := by
  have hsame : exec i s = .next (consume s.port t) := exec_consume h s.port
  have ht : t = consume s.port t := Host.Outcome.next.inj (h.symm.trans hsame)
  exact (congrArg State.port ht :)

theorem runPacket_port {p : Packet} {s t : State} (h : runPacket p s = .next t) : t.port = s.port := by
  rcases runPacket_cases h with ⟨_, _, rfl⟩ | ⟨_, _, rfl⟩ | ⟨_, _, rfl⟩ | ⟨_, i, _, he⟩
  · rfl
  · rfl
  · rfl
  · exact exec_port he

/-- A command cut by the reset input after at most `k` bytes has emitted the first `k` of its bytes (93 U26). -/
theorem cutByReset_out {s t : State} {e : List Byte} (h : t.out = s.out ++ e) (k : Nat) :
    (cutByReset s k t).out = s.out ++ e.take k := by
  show s.out ++ (t.out.drop s.out.length).take k = _
  rw [h, List.drop_left]

/-- Settles O34: a packet only adds to the output, and a reset or a cut keeps what was there. -/
theorem outputOnlyGrows : Obligations.OutputOnlyGrows := by
  intro s t h
  rcases step_cases h with ⟨_, rfl⟩ | ⟨p, rest, _, hr⟩ | ⟨rest, _, rfl⟩ | ⟨p, k, rest, u, _, hr, rfl⟩
  · exact List.prefix_rfl
  · exact runPacket_out_prefix (s := consume rest s) hr
  · exact List.prefix_rfl
  · obtain ⟨e, he⟩ := runPacket_out_prefix hr
    rw [cutByReset_out he.symm]
    exact List.prefix_append _ _

/-- Settles O12: the bytes that stay are those of the command up to the cut, and every cut is an event. -/
theorem resetInputGivesTheResetState : Obligations.ResetInputGivesTheResetState := by
  refine ⟨fun s rest hp => ?_, fun s p k rest hp => ?_, fun s u p rest e hu hse heu => ?_⟩
  · exact ⟨_, step_of_reset hp, resetBlock_block _, rfl, rfl⟩
  · obtain ⟨u, hu⟩ := runPacket_total p (consume rest s)
    obtain ⟨e, he⟩ := runPacket_out_prefix hu
    refine ⟨_, u, hu, step_of_resetDuring hp hu, cutByReset_block _ _ _, ?_, ?_, ?_⟩
    · exact runPacket_port hu
    · rw [cutByReset_out he.symm]
      exact List.prefix_append _ _
    · rw [cutByReset_out he.symm, ← he]
      exact (List.prefix_append_right_inj _).mpr (List.take_prefix k e)
  · obtain ⟨d, rfl⟩ := hse
    obtain ⟨more, hmore⟩ := heu
    have hr : runPacket p (consume rest s) = .next u := hu
    have hout : u.out = (consume rest s).out ++ (d ++ more) := by
      rw [← hmore, List.append_assoc]
      rfl
    have hcut : step { s with port := .resetDuring p d.length :: rest } =
        .next (cutByReset (consume rest s) d.length u) := step_of_resetDuring rfl hr
    refine ⟨d.length, _, hcut, cutByReset_block _ _ _, ?_⟩
    rw [cutByReset_out hout, List.take_left]
    rfl

end Sys2Proof.Machine
end

section
/-! PROOFS. The trie of a table (R102): no other tree is, no order of the codes gives another one, and its shape
(R16). -/

namespace Sys2Proof.Machine

/-! ### One tree in every order -/

/-- Two trees with the same leaves and the same internal nodes are the same. -/
theorem Tree.eq_of_leaf_int_iff {t u : Tree}
    (hleaf : ∀ p x, t.nodeAt p = some (.leaf x) ↔ u.nodeAt p = some (.leaf x))
    (hint : ∀ p, t.nodeAt p = some .int ↔ u.nodeAt p = some .int) : t = u := by
  refine Tree.eq_of_nodeAt fun p => Option.ext fun node => ?_
  cases node with
  | int => exact hint p
  | leaf x => exact hleaf p x

theorem isTrie_unique {ct : CodeTable} {t u : Tree} (ht : IsTrie ct t) (hu : IsTrie ct u) : t = u :=
  Tree.eq_of_leaf_int_iff (fun p x => (ht.1 p x).trans (hu.1 p x).symm) fun p => (ht.2 p).trans (hu.2 p).symm

/-- Inserting the same codes in another order gives the same tree: whether it succeeds and which nodes there are
depends on the set of codes. -/
theorem insertAll_eq_some_of_perm {ct ct' : CodeTable} (hp : ct'.Perm ct) {t u : Tree} (h : insertAll ct t = some u) :
    insertAll ct' t = some u := by
  obtain ⟨hfits, hapart⟩ := (insertAll_isSome_iff ct t).mp ⟨u, h⟩
  obtain ⟨v, hv⟩ := (insertAll_isSome_iff ct' t).mpr
    ⟨fun e he => hfits e (hp.mem_iff.mp he), (hp.pairwise_iff fun {e f} => codesApart_symm.symm e f).mpr hapart⟩
  have hvu : v = u := Tree.eq_of_leaf_int_iff
    (fun p x => by rw [insertAll_leaf_iff hv, insertAll_leaf_iff h, hp.mem_iff])
    (fun p => by simp only [insertAll_int_iff hv, insertAll_int_iff h, hp.mem_iff])
  rw [hv, hvu]

theorem insertAll_perm {ct ct' : CodeTable} (hp : ct'.Perm ct) (t : Tree) : insertAll ct' t = insertAll ct t :=
  Option.ext fun _ => ⟨insertAll_eq_some_of_perm hp.symm, insertAll_eq_some_of_perm hp⟩

/-- Settles O37: when `BuildTree` succeeds, that its result is the trie, and that the order does not matter. -/
theorem buildTreeMakesTheTrie : Obligations.BuildTreeMakesTheTrie := by
  intro ct hc hne
  refine ⟨buildTree_isSome_iff hc hne, fun tr h => ?_, fun visited hp => insertAll_perm hp _⟩
  have htrie := isTrie_of_buildTree hc h
  exact ⟨htrie, fun tr' h' => isTrie_unique h' htrie⟩

/-! ### The number of nodes (R16, `NNODES`) -/

/-- Inserting a code adds at most a node for each of its bits, and one for its start where nothing was. -/
theorem size_insertCode_le {x : Byte} {c : Code} {t u : Tree} (h : insertCode x c t = some u) :
    u.size ≤ t.size + c.length + (if t = .absent then 1 else 0) := by
  induction c generalizing t u with
  | nil =>
    cases t with
    | absent => cases h; exact Nat.le_refl _
    | leaf _ | node _ _ => cases h
  | cons b c ih =>
    cases t with
    | leaf _ => cases h
    | absent =>
      obtain ⟨v, hv, rfl⟩ := Option.map_eq_some_iff.mp h
      have hsize := ih hv
      cases b <;> simp only [Tree.size, List.length_cons, Bool.false_eq_true, if_true, if_false] at hsize ⊢ <;> omega
    | node l r =>
      cases b with
      | false =>
        obtain ⟨v, hv, rfl⟩ := Option.map_eq_some_iff.mp h
        have hsize := ih hv
        simp only [Tree.size, List.length_cons, reduceCtorEq, if_false]
        split_ifs at hsize <;> omega
      | true =>
        obtain ⟨v, hv, rfl⟩ := Option.map_eq_some_iff.mp h
        have hsize := ih hv
        simp only [Tree.size, List.length_cons, reduceCtorEq, if_false]
        split_ifs at hsize <;> omega

/-- Inserting a list of codes of at most `n` bits adds at most `n` nodes for each. -/
theorem size_insertAll_le {n : Nat} {ct : CodeTable} {t u : Tree} (hroot : t.nodeAt [] = some .int)
    (hn : ∀ e ∈ ct, e.2.length ≤ n) (h : insertAll ct t = some u) : u.size ≤ t.size + ct.length * n := by
  induction ct generalizing t with
  | nil => cases h; exact Nat.le_add_right _ _
  | cons e ct ih =>
    obtain ⟨x, c⟩ := e
    obtain ⟨hc, hct⟩ := List.forall_mem_cons.mp hn
    obtain ⟨v, hv, hu⟩ := insertAll_cons_eq_some.mp h
    have hone := size_insertCode_le hv
    rw [if_neg (by rintro rfl; cases hroot)] at hone
    have hrest := ih ((insertCode_int_iff hv []).mpr (.inl hroot)) hct hu
    have hc : c.length ≤ n := hc
    rw [List.length_cons, Nat.succ_mul]
    omega

/-- A canonical table lists each of the 256 symbols at most once (R11). -/
theorem length_le_of_canonical {ct : CodeTable} (hc : tableCanonical ct = true) : ct.length ≤ Config.nsym := by
  have hasc : ct.Pairwise fun a b => a.1 < b.1 := of_decide_eq_true hc
  have hnodup : (ct.map Prod.fst).Nodup := List.pairwise_map.mpr (hasc.imp fun h => BitVec.ne_of_lt h)
  have hall : (ct.map Prod.fst) ⊆ Codec.byteValues := fun b _ => Codec.mem_byteValues b
  have hle := (hnodup.subperm hall).length_le
  rwa [List.length_map, Codec.byteValues, List.length_map, List.length_range] at hle

/-! ### The shape -/

/-- A proper beginning of a code goes on to another one or to the code. -/
theorem isInternal_child {ct : CodeTable} {p : Path} (hne : p ≠ []) (h : IsInternal ct p) :
    ∃ b, IsInternal ct (p ++ [b]) ∨ IsCode ct (p ++ [b]) := by
  obtain ⟨x, c, hx, ⟨r, rfl⟩, hpc⟩ := h.resolve_left hne
  obtain ⟨b, r, rfl⟩ := List.exists_cons_of_ne_nil fun hr : r = [] => hpc (by rw [hr, List.append_nil])
  rw [List.append_cons] at hx
  by_cases hr : r = []
  · rw [hr, List.append_nil] at hx
    exact ⟨b, .inr ⟨x, hx⟩⟩
  · exact ⟨b, .inl (.inr ⟨x, _, hx, List.prefix_append _ _, by simpa using hr⟩)⟩

/-- No path of the trie is longer than the longest code. -/
theorem length_le_of_isInternal {ct : CodeTable} (hl : LengthsLegal ct) {p : Path} (h : IsInternal ct p) :
    p.length ≤ Config.lmax := by
  rcases h with rfl | ⟨x, c, hx, hpc, -⟩
  · exact Nat.zero_le _
  · exact hpc.length_le.trans (hl _ (mem_of_lookupCode hx)).2

/-- Settles O38: the five properties are those of the trie, and the bare root grows by at most 255 nodes for each of
at most 256 codes. -/
theorem builtTreeHasItsShape : Obligations.BuiltTreeHasItsShape := by
  intro ct tr hc hl h
  obtain ⟨hleaf, hint⟩ := isTrie_of_buildTree hc h
  refine ⟨(hint []).mpr (.inl rfl), fun p b => nodeAt_parent, fun p hne hp => ?child, hleaf, fun p hp => ?depth, ?size⟩
  case child =>
    obtain ⟨b, hb | ⟨x, hb⟩⟩ := isInternal_child hne ((hint p).mp hp)
    · exact ⟨b, by rw [(hint _).mpr hb]; exact Option.some_ne_none _⟩
    · exact ⟨b, by rw [(hleaf _ x).mpr hb]; exact Option.some_ne_none _⟩
  case depth =>
    obtain ⟨node, hnode⟩ := Option.ne_none_iff_exists'.mp hp
    cases node with
    | int => exact length_le_of_isInternal hl ((hint p).mp hnode)
    | leaf x => exact (hl _ (mem_of_lookupCode ((hleaf p x).mp hnode))).2
  case size =>
    have hsize := size_insertAll_le bareRoot_nodeAt_nil (fun e he => (hl e he).2) h
    have hroot : Tree.bareRoot.size = 1 := rfl
    have hentries := Nat.mul_le_mul_right Config.lmax (length_le_of_canonical hc)
    rw [Config.nnodes]
    omega

end Sys2Proof.Machine
end

section
/-! PROOFS. The walk by the codes (42_decode.md, "Laws of the decode side"), in both modes. -/

namespace Sys2Proof.Machine

/-- A bit that leads neither to a code nor to a proper beginning of one finds an absent child. -/
theorem walkBit_of_absent {b : Bool} {s : State} (ht : s.walksTrie) (hcode : ¬ IsCode s.ct (s.pos ++ [b]))
    (hint : ¬ IsInternal s.ct (s.pos ++ [b])) : walkBit b s = none := by
  obtain ⟨tr, htree, hleafs, hints⟩ := ht
  rw [walkBit_eq_none, State.nodeAt, htree, Option.bind_some, Option.eq_none_iff_forall_ne_some]
  intro node hnode
  cases node with
  | int => exact hint ((hints _).mp hnode)
  | leaf x => exact hcode ⟨x, (hleafs _ x).mp hnode⟩

/-- Settles O39: under the invariant the walker's tree is the trie of the table. -/
theorem walkIsThePathFormulation : Obligations.WalkIsThePathFormulation := by
  refine ⟨fun s b hs hdec => ?_, fun s as bs hdec => walkBits_append as bs (by rw [hdec]; decide)⟩
  have ht := walksTrie_of_inv hs hdec
  exact ⟨fun x => walkBit_of_code ht, walkBit_of_isInternal ht, walkBit_of_absent ht⟩

end Sys2Proof.Machine
end

section
/-! PROOFS. The contract of the reference host's tables (45_host_codec.md section 3). -/

namespace Sys2Proof.Codec

open Sys2Proof.Machine

theorem mem_input_iff (tie : TieBreak) (input : List Byte) (b : Byte) :
    b ∈ input ↔ ∃ c, lookupCode b (codeTableFor tie input) = some c := by
  refine ⟨exists_lookupCode_codeTableFor tie, fun ⟨c, hc⟩ => ?_⟩
  have hlisted : b ∈ (codeTableFor tie input).map Prod.fst := List.mem_map_of_mem (mem_of_lookupCode hc)
  rwa [(codeTableFor_symbols tie input).mem_iff, mem_symbolsOf] at hlisted

/-- Settles O46: the leaves of the tree are the symbols of the input, and the codes the paths to them. -/
theorem hostTablesKeepTheContract : Obligations.HostTablesKeepTheContract := fun tie input =>
  ⟨codeTableFor_canonical tie input, mem_input_iff tie input, codeTableFor_lengthsLegal tie input,
    codeTableFor_prefixFree tie input⟩

end Sys2Proof.Codec
end

section
/-! PROOFS. Precise faults (60_exceptions.md section 2, R157): what a faulting command has written. -/

namespace Sys2Proof.Machine

theorem openDecode_of_fault {lim : Bool} {n : Count} {s : State} (h : (openDecode lim n s).phase = .fault) :
    openDecode lim n s = raise .corruptCodeTable s := by
  rcases openDecode_cases lim n s with ⟨_, he⟩ | ⟨tr, _, he⟩
  · exact he
  · rw [he] at h
    cases h

/-- A command that faults in a phase where it is legal has only raised the fault, unless it is `DEC`. -/
theorem effect_of_fault {i : Instr} {s : State} (hf : s.phase ≠ .fault) (hi : ∀ d, i ≠ .dec d)
    (h : (effect i s).phase = .fault) : ∃ k, effect i s = raise k s := by
  cases i with
  | nop => exact absurd h hf
  | clr | ebegin => cases h
  | ldc x c =>
    rcases loadCode_cases x c s with ⟨_, he⟩ | ⟨_, he⟩
    · exact ⟨_, he⟩
    · rw [effect, he, setCode_phase] at h
      exact absurd h hf
  | enc x =>
    rcases encodeSymbol_cases x s with ⟨_, he⟩ | ⟨c, _, he⟩
    · exact ⟨_, he⟩
    · rw [effect, he, pushBits_phase] at h
      exact absurd h hf
  | eend => cases h
  | dbegin | dbeginl _ => exact ⟨_, openDecode_of_fault h⟩
  | dec d => exact absurd rfl (hi d)
  | dend =>
    rcases endDecode_cases s with ⟨_, he⟩ | ⟨amb, he⟩
    · exact ⟨_, he⟩
    · rw [effect, he] at h
      cases h

/-- A `DEC` that runs and faults has written `ERR`, `PHASE`, `DANY`, `POS`, `DREM` and the output. -/
theorem decodeByte_of_fault {d : Byte} {s : State} (hf : s.phase ≠ .fault) (h : (decodeByte d s).phase = .fault) :
    decodeByte d s = { s with
      err := .raised .malformedPayload, phase := .fault, dany := true, pos := (decodeByte d s).pos,
      drem := (decodeByte d s).drem, out := (decodeByte d s).out } := by
  rcases walkBits_err_cases (dataBits d) (markAny s) with ⟨hp, _⟩ | ⟨_, herr⟩
  · exact absurd (hp.symm.trans h) hf
  · have herr : (decodeByte d s).err = .raised .malformedPayload := herr
    have hframe := decodeByte_frame d s
    rwa [herr, h] at hframe

/-- Settles O31: an effect that faults is `raise` alone, or `DEC`'s walk up to the bad bit. -/
theorem faultsArePrecise : Obligations.FaultsArePrecise := by
  refine ⟨fun i s t hf h ht => ?_, fun s t p rest why hf hp hd h => ?_⟩
  · rcases exec_cases h with ⟨hfault, _, _⟩ | ⟨_, hl, rfl⟩ | ⟨hl, rfl⟩
    · exact absurd hfault hf
    · refine ⟨fun _ => rfl, ?_⟩
      rintro d rfl hdec
      rw [hdec] at hl
      cases hl
    · refine ⟨fun hi => ?_, ?_⟩
      · have hdec : ∀ d, i ≠ .dec d := by
          rintro d rfl
          exact hi d rfl (eq_of_beq hl)
        obtain ⟨k, hk⟩ := effect_of_fault hf hdec ht
        rw [hk]
        rfl
      · rintro d rfl _
        obtain ⟨e, he, -⟩ := effect_emitsAtMost (.dec d) s
        exact ⟨⟨e, he.symm⟩, decodeByte_of_fault hf ht⟩
  · rw [step_of_packet hp, runPacket_of_decode_illegal (s := consume rest s) hf hd] at h
    cases h
    rfl

end Sys2Proof.Machine
end

section
/-! PROOFS. `ENC` (41_encode.md: R91, R92): what the pushed bits of a code leave in the output and the serializer. -/

namespace Sys2Proof.Machine

theorem pack_unpack (bs : List Byte) : pack (unpack bs) = bs := by
  simpa using pack_unpack_append bs []

/-- Pushed bits leave the whole bytes of the bits held and pushed in the output, and the rest in the serializer. -/
theorem pushBits_out_held (bs : Bits) (s : State) :
    ∃ w, w.length = (s.cnt.toNat + bs.length) / 8 ∧ (pushBits bs s).out = s.out ++ w ∧
      (s.heldBits ++ bs).take (8 * w.length) = unpack w ∧
      (pushBits bs s).heldBits = (s.heldBits ++ bs).drop (8 * w.length) := by
  obtain ⟨w, hout, hheld⟩ := pushBits_conserves bs s
  have hlen := congrArg List.length hheld
  rw [List.length_append, List.length_append, unpack_length, heldBits_length, heldBits_length] at hlen
  have hcnt := (pushBits bs s).cnt.isLt
  refine ⟨w, by omega, hout, ?_, ?_⟩
  · rw [← hheld, List.take_left' (unpack_length w)]
  · rw [← hheld, List.drop_left' (unpack_length w)]

theorem pushBits_cnt (bs : Bits) (s : State) : (pushBits bs s).cnt.toNat = (s.cnt.toNat + bs.length) % 8 := by
  obtain ⟨w, hw, -, -, hheld⟩ := pushBits_out_held bs s
  have hlen := congrArg List.length hheld
  rw [List.length_drop, List.length_append, heldBits_length, heldBits_length] at hlen
  omega

/-- Pushed bits are counted, as long as the count stays below 2^64 (R21). -/
theorem pushBits_counts {bs : Bits} {s : State} (h : s.ebits.toNat + bs.length < 2 ^ 64) :
    (pushBits bs s).ebits.toNat = s.ebits.toNat + bs.length ∧ (pushBits bs s).freeIdx = s.freeIdx := by
  induction bs generalizing s with
  | nil => exact ⟨rfl, rfl⟩
  | cons b bs ih =>
    rw [List.length_cons] at h
    have hone : (pushBit b s).ebits.toNat = s.ebits.toNat + 1 ∧ (pushBit b s).freeIdx = s.freeIdx := by
      rcases pushBit_cases b s with ⟨_, he⟩ | ⟨_, he⟩ <;> rw [he] <;>
        exact countPushed_of_lt (show s.ebits.toNat + 1 < 2 ^ 64 by omega)
    obtain ⟨hebits, hfree⟩ := hone
    obtain ⟨hebits', hfree'⟩ := ih (s := pushBit b s) (by omega)
    rw [pushBits, List.length_cons]
    exact ⟨by omega, hfree'.trans hfree⟩

/-- Settles O19: the phase check, the lookup of the code, and what its pushed bits leave. -/
theorem encPushesTheCode : Obligations.EncPushesTheCode := by
  refine ⟨fun _ => rfl, fun x s => ⟨fun hfault => ?_, fun hother => ?_, fun henc hx => ?_, fun henc hbound c hx => ?_⟩⟩
  · exact exec_of_fault hfault (by simp)
  · exact next_command_of_other (encodeSymbol x) hother (by decide) (by decide)
  · rw [exec_of_legal (i := .enc x) (beq_iff_eq.mpr henc), effect, encodeSymbol, hx]
    rfl
  · have hrun : exec (.enc x) s = .next (pushBits c s) := by
      rw [exec_of_legal (i := .enc x) (beq_iff_eq.mpr henc), effect, encodeSymbol, hx]
    obtain ⟨w, hw, hout, htake, hheld⟩ := pushBits_out_held c s
    refine ⟨_, w.length, hrun, hw, ?_, ?_, hheld, pushBits_cnt c s, pushBits_bound c hbound, pushBits_counts,
      pushBits_frame c s⟩
    · rw [htake, pack_unpack, hout]
    · rw [htake, pack_unpack]

end Sys2Proof.Machine
end

section
/-! PROOFS. `DEC` by the codes alone (42_decode.md, "Laws of the decode side"): the walked bits joined to the path
already walked are codes and then a path inside the tree, up to an absent child. -/

namespace Sys2Proof.Machine

/-! ### Codes and the inside of the tree (R102) -/

theorem isInternal_of_prefix {ct : CodeTable} {p q : Path} (hpq : p <+: q) (h : IsInternal ct q) :
    IsInternal ct p := by
  rcases h with rfl | ⟨x, c, hx, hqc, hne⟩
  · exact .inl (List.prefix_nil.mp hpq)
  · refine .inr ⟨x, c, hx, hpq.trans hqc, ?_⟩
    rintro rfl
    exact hne (hqc.eq_of_length_le hpq.length_le)

/-- No code is passed on the way to an internal node. -/
theorem not_code_prefix_of_isInternal {ct : CodeTable} (hpf : PrefixFree ct) (hne : ∀ e ∈ ct, e.2 ≠ []) {x : Byte}
    {c : Code} {p : Path} (hx : lookupCode x ct = some c) (h : IsInternal ct p) : ¬ c <+: p := by
  intro hcp
  rcases h with rfl | ⟨y, d, hy, hpd, hpne⟩
  · exact hne _ (mem_of_lookupCode hx) (List.prefix_nil.mp hcp)
  · by_cases hxy : x = y
    · subst hxy
      obtain rfl := Option.some.inj (hx.symm.trans hy)
      exact hpne (hpd.eq_of_length_le hcp.length_le)
    · exact hpf x y c d hx hy hxy (hcp.trans hpd)

/-- Every string of bits from inside the tree is codes and then a path inside the tree, or so up to a bit that leads
to an absent child. -/
theorem exists_decomposition (ct : CodeTable) (w : Bits) {p : Path} (hp : IsInternal ct p) :
    (∃ syms e q, spell ct syms = some e ∧ p ++ w = e ++ q ∧ IsInternal ct q) ∨
    ∃ syms e q b more, spell ct syms = some e ∧ p ++ w = e ++ q ++ b :: more ∧ IsInternal ct q ∧
      ¬ IsInternal ct (q ++ [b]) ∧ ¬ IsCode ct (q ++ [b]) := by
  induction w generalizing p with
  | nil => exact .inl ⟨[], [], p, rfl, List.append_nil p, hp⟩
  | cons b w ih =>
    by_cases hint : IsInternal ct (p ++ [b])
    · rw [List.append_cons]
      exact ih hint
    by_cases hcode : IsCode ct (p ++ [b])
    · obtain ⟨x, hx⟩ := hcode
      have hspell : ∀ {syms e}, spell ct syms = some e → spell ct (x :: syms) = some (p ++ [b] ++ e) :=
        fun he => spell_cons_eq_some.mpr ⟨_, _, hx, he, rfl⟩
      rw [List.append_cons]
      rcases ih (.inl rfl) with ⟨syms, e, q, he, hw, hq⟩ | ⟨syms, e, q, b', more, he, hw, hq⟩
      · rw [List.nil_append] at hw
        exact .inl ⟨x :: syms, _, q, hspell he, by rw [hw, ← List.append_assoc], hq⟩
      · rw [List.nil_append] at hw
        exact .inr ⟨x :: syms, _, q, b', more, hspell he, by rw [hw]; simp only [List.append_assoc], hq⟩
    · exact .inr ⟨[], [], p, b, w, rfl, rfl, hp, hint, hcode⟩

/-! ### The walk in legacy mode -/

/-- A walk that stays inside the tree moves there. -/
theorem walkBits_inside {w : Bits} {s : State} (ht : s.walksTrie) (hlim : s.lim = false)
    (h : IsInternal s.ct (s.pos ++ w)) (bs : Bits) :
    walkBits (w ++ bs) s = walkBits bs { s with pos := s.pos ++ w } := by
  induction w generalizing s with
  | nil => rw [List.append_nil]; rfl
  | cons b w ih =>
    rw [List.append_cons] at h
    rw [List.cons_append, walkBits_cons_of_legacy hlim
      (walkBit_of_isInternal ht (isInternal_of_prefix (List.prefix_append _ _) h)), List.append_cons s.pos b w]
    exact ih (s := { s with pos := s.pos ++ [b] }) ht hlim h

/-- A walk over codes and then inside the tree emits the symbols and moves there. -/
theorem walkBits_path {syms : List Byte} {e : Bits} {q : Path} {w : Bits} {s : State} (ht : s.walksTrie)
    (hlim : s.lim = false) (hpf : PrefixFree s.ct) (hne : ∀ f ∈ s.ct, f.2 ≠ []) (hpos : IsInternal s.ct s.pos)
    (he : spell s.ct syms = some e) (hw : s.pos ++ w = e ++ q) (hq : IsInternal s.ct q) :
    walkBits w s = { s with out := s.out ++ syms, pos := q } := by
  cases syms with
  | nil =>
    cases he
    have hw : s.pos ++ w = q := hw
    have hin := walkBits_inside ht hlim (hw ▸ hq) []
    rw [List.append_nil, hw] at hin
    rw [hin, List.append_nil]
    rfl
  | cons x syms =>
    obtain ⟨c, d, hc, hd, rfl⟩ := spell_cons_eq_some.mp he
    have hcw : c <+: s.pos ++ w := by rw [hw, List.append_assoc]; exact List.prefix_append _ _
    obtain ⟨r, rfl⟩ : s.pos <+: c := (List.prefix_or_prefix_of_prefix (List.prefix_append _ _) hcw).resolve_right
      (not_code_prefix_of_isInternal hpf hne hc hpos)
    have hr : r ≠ [] := by
      rintro rfl
      exact not_code_prefix_of_isInternal hpf hne hc hpos (by rw [List.append_nil])
    obtain rfl : w = r ++ (d ++ q) := by simpa [List.append_assoc] using hw
    have hin := walkBits_inside (s := { s with out := s.out ++ [x] ++ syms, pos := [] }) ht hlim (w := q) hq []
    rw [walkBits_code ht hlim hr hc,
      walkBits_spell (s := { s with out := s.out ++ [x], pos := [] }) ht hlim rfl hne hd]
    rw [List.append_nil] at hin
    rw [hin, List.append_assoc, List.singleton_append]
    rfl

/-! ### Counted mode (R106): the same walk of at most `DREM` bits, and `DREM` counts them -/

/-- The same walker in legacy mode. -/
def State.uncounted (s : State) : State := { s with lim := false, drem := 0#64 }

/-- The count allows `n` more bits. -/
def State.roomFor (s : State) (n : Nat) : Prop := s.lim = true → n ≤ s.drem.toNat

theorem walkBit_uncounted (b : Bool) (s : State) : walkBit b s.uncounted = (walkBit b s).map State.uncounted := by
  have hnode : s.uncounted.nodeAt (s.uncounted.pos ++ [b]) = s.nodeAt (s.pos ++ [b]) := rfl
  unfold walkBit
  rw [hnode]
  split <;> rfl

theorem uncounted_countWalked (s : State) : (countWalked s).uncounted = s.uncounted := by
  unfold countWalked
  split <;> rfl

theorem dremAfter_zero (s : State) : s.dremAfter 0 = s.drem := by
  unfold State.dremAfter
  split_ifs
  · exact BitVec.sub_zero _
  · rfl

theorem countWalked_dremAfter (s : State) (n : Nat) : (countWalked s).dremAfter n = s.dremAfter (n + 1) := by
  unfold State.dremAfter
  rw [countWalked_lim]
  unfold countWalked
  split_ifs
  · rw [Nat.add_comm, BitVec.ofNat_add, ← BitVec.sub_sub]
  · rfl

/-- With room for one bit more the walk goes on. -/
theorem not_exhausted_of_roomFor {s : State} {n : Nat} (h : s.roomFor (n + 1)) :
    ¬ (s.lim = true ∧ s.drem = 0#64) := by
  rintro ⟨hlim, hzero⟩
  have hle := h hlim
  rw [hzero] at hle
  exact absurd hle (Nat.not_succ_le_zero n)

theorem roomFor_countWalked {s : State} {n : Nat} (h : s.roomFor (n + 1)) : (countWalked s).roomFor n := by
  intro hlim
  rw [countWalked_lim] at hlim
  have hle := h hlim
  rw [countWalked, if_pos hlim]
  show n ≤ (s.drem - 1#64).toNat
  rw [BitVec.toNat_sub_of_le (by rw [BitVec.le_def]; exact Nat.le_trans (Nat.le_add_left 1 n) hle)]
  exact Nat.le_sub_of_add_le hle

/-- A walk within the count is the legacy walk, with the bits counted. -/
theorem walkBits_of_uncounted {bs : Bits} {s : State} (hroom : s.roomFor bs.length)
    (hsafe : (walkBits bs s.uncounted).phase ≠ .fault) :
    walkBits bs s = { walkBits bs s.uncounted with lim := s.lim, drem := s.dremAfter bs.length } := by
  induction bs generalizing s with
  | nil =>
    rw [List.length_nil, dremAfter_zero]
    rfl
  | cons b bs ih =>
    have hgo := not_exhausted_of_roomFor hroom
    have hgo' : ¬ (s.uncounted.lim = true ∧ s.uncounted.drem = 0#64) := fun h => absurd h.1 Bool.false_ne_true
    have hbit := walkBit_uncounted b s
    cases hb : walkBit b s with
    | none =>
      rw [hb, Option.map_none] at hbit
      rw [walkBits_cons_of_none hgo' hbit] at hsafe
      exact absurd (raise_phase _ _) hsafe
    | some t =>
      rw [hb, Option.map_some] at hbit
      have hlegacy : walkBits (b :: bs) s.uncounted = walkBits bs (countWalked t).uncounted := by
        rw [walkBits_cons_of_legacy rfl hbit, uncounted_countWalked]
      have hroom' : t.roomFor (bs.length + 1) := fun hlim => by
        rw [walkBit_drem hb]
        exact hroom (walkBit_lim hb ▸ hlim)
      have hdrem : t.dremAfter (bs.length + 1) = s.dremAfter (b :: bs).length := by
        rw [State.dremAfter, State.dremAfter, walkBit_lim hb, walkBit_drem hb, List.length_cons]
      rw [hlegacy] at hsafe ⊢
      rw [walkBits_cons_of_some hgo hb, ih (roomFor_countWalked hroom') hsafe, countWalked_dremAfter, hdrem,
        countWalked_lim, walkBit_lim hb]

/-- In either mode a walk over codes and then inside the tree, within the count. -/
theorem walkBits_path_counted {syms : List Byte} {e : Bits} {q : Path} {w : Bits} {s : State} (ht : s.walksTrie)
    (hroom : s.roomFor w.length) (hpf : PrefixFree s.ct) (hne : ∀ f ∈ s.ct, f.2 ≠ []) (hf : s.phase ≠ .fault)
    (hpos : IsInternal s.ct s.pos) (he : spell s.ct syms = some e) (hw : s.pos ++ w = e ++ q)
    (hq : IsInternal s.ct q) :
    walkBits w s = { s with out := s.out ++ syms, pos := q, drem := s.dremAfter w.length } := by
  have hlegacy := walkBits_path (s := s.uncounted) ht rfl hpf hne hpos he hw hq
  rw [walkBits_of_uncounted hroom (by rw [hlegacy]; exact hf), hlegacy]
  rfl

/-- A walk to an absent child faults there, with the bits before it counted. -/
theorem walkBits_to_absent {syms : List Byte} {e : Bits} {q : Path} {w more : Bits} {b : Bool} {s : State}
    (ht : s.walksTrie) (hroom : s.roomFor (w.length + 1)) (hpf : PrefixFree s.ct) (hne : ∀ f ∈ s.ct, f.2 ≠ [])
    (hf : s.phase ≠ .fault) (hpos : IsInternal s.ct s.pos) (he : spell s.ct syms = some e) (hw : s.pos ++ w = e ++ q)
    (hq : IsInternal s.ct q) (hint : ¬ IsInternal s.ct (q ++ [b])) (hcode : ¬ IsCode s.ct (q ++ [b])) :
    walkBits (w ++ b :: more) s =
      raise .malformedPayload { s with out := s.out ++ syms, pos := q, drem := s.dremAfter w.length } := by
  have hpath := walkBits_path_counted ht (fun h => Nat.le_of_succ_le (hroom h)) hpf hne hf hpos he hw hq
  have hgo : ¬ (s.lim = true ∧ s.dremAfter w.length = 0#64) := by
    rintro ⟨hlim, hzero⟩
    have hle := hroom hlim
    have hlt := s.drem.isLt
    rw [State.dremAfter, if_pos hlim] at hzero
    have hnat := congrArg BitVec.toNat hzero
    rw [BitVec.toNat_sub, BitVec.toNat_ofNat, BitVec.toNat_ofNat] at hnat
    omega
  rw [walkBits_append _ _ hf, hpath, if_neg (show s.phase ≠ .fault from hf)]
  exact walkBits_cons_of_none (s := { s with out := s.out ++ syms, pos := q, drem := s.dremAfter w.length }) hgo
    (walkBit_of_absent ht hcode hint) more

/-! ### One payload byte (R106) -/

/-- In counted mode a walk is the walk of its first `DREM` bits. -/
theorem walkBits_take_drem (bs : Bits) {s : State} (hlim : s.lim = true) :
    walkBits (bs.take s.drem.toNat) s = walkBits bs s := by
  induction bs generalizing s with
  | nil => rw [List.take_nil]
  | cons b bs ih =>
    by_cases hzero : s.drem = 0#64
    · rw [walkBits_of_exhausted ⟨hlim, hzero⟩, walkBits_of_exhausted ⟨hlim, hzero⟩]
    · have hgo : ¬ (s.lim = true ∧ s.drem = 0#64) := fun h => hzero h.2
      obtain ⟨n, hn⟩ : ∃ n, s.drem.toNat = n + 1 := Nat.exists_eq_succ_of_ne_zero fun h0 =>
        hzero (BitVec.eq_of_toNat_eq h0)
      rw [hn, List.take_succ_cons]
      cases hb : walkBit b s with
      | none => rw [walkBits_cons_of_none hgo hb, walkBits_cons_of_none hgo hb]
      | some t =>
        have htlim : t.lim = true := (walkBit_lim hb).trans hlim
        have hleft : (countWalked t).drem.toNat = n := by
          rw [countWalked, if_pos htlim]
          show (t.drem - 1#64).toNat = n
          rw [walkBit_drem hb, BitVec.toNat_sub_of_le (by rw [BitVec.le_def, hn]; exact Nat.le_add_left 1 n), hn]
          rfl
        rw [walkBits_cons_of_some hgo hb, walkBits_cons_of_some hgo hb, ← hleft]
        exact ih ((countWalked_lim t).trans htlim)

/-- `DEC` walks the walkable bits of its byte. -/
theorem decodeByte_eq (d : Byte) (s : State) : decodeByte d s = markAny (walkBits (s.walkable d) s) := by
  rw [decodeByte, dataBits, walkBits_markAny, State.walkable]
  cases hlim : s.lim with
  | true => rw [if_pos rfl, walkBits_take_drem _ hlim]
  | false => rw [if_neg (by decide), List.take_of_length_le (Nat.le_of_eq (byteBits_length d))]

theorem roomFor_walkable (d : Byte) (s : State) : s.roomFor (s.walkable d).length := by
  intro hlim
  rw [State.walkable, if_pos hlim]
  exact List.length_take_le _ _

section codes
variable {s : State} (hs : Inv s) (hdec : s.phase = .dec)
include hs hdec

/-- `DEC` of bits that are codes and then a path inside the tree. -/
theorem decodeByte_path {d : Byte} {syms : List Byte} {e : Bits} {q : Path} (he : spell s.ct syms = some e)
    (hw : s.pos ++ s.walkable d = e ++ q) (hq : IsInternal s.ct q) :
    decodeByte d s = { s with
      dany := true, out := s.out ++ syms, pos := q, drem := s.dremAfter (s.walkable d).length } := by
  rw [decodeByte_eq, walkBits_path_counted (walksTrie_of_inv hs hdec) (roomFor_walkable d s) (prefixFree_of_inv hs hdec)
    (ne_nil_of_lengthsLegal hs.lengths) (by rw [hdec]; decide) (isInternal_pos_of_inv hs hdec) he hw hq]
  rfl

/-- An absent child is not reached before the path already walked ends. -/
theorem exists_walked_of_absent {w more : Bits} {syms : List Byte} {e : Bits} {q : Path} {b : Bool}
    (he : spell s.ct syms = some e) (hw : s.pos ++ w = e ++ q ++ b :: more) (hint : ¬ IsInternal s.ct (q ++ [b])) :
    ∃ v, e ++ q = s.pos ++ v ∧ w = v ++ b :: more := by
  have hpos := isInternal_pos_of_inv hs hdec
  have hshort : ¬ e ++ (q ++ [b]) <+: s.pos := by
    intro hpre
    cases syms with
    | nil => cases he; exact hint (isInternal_of_prefix hpre hpos)
    | cons x syms =>
      obtain ⟨c, f, hc, -, rfl⟩ := spell_cons_eq_some.mp he
      rw [List.append_assoc] at hpre
      exact not_code_prefix_of_isInternal (prefixFree_of_inv hs hdec) (ne_nil_of_lengthsLegal hs.lengths) hc hpos
        ((List.prefix_append _ _).trans hpre)
  rcases List.append_eq_append_iff.mp hw with ⟨v, hv, hwv⟩ | ⟨v, hv, hwv⟩
  · exact ⟨v, hv, hwv⟩
  · cases v with
    | nil => exact ⟨[], by rw [hv, List.append_nil, List.append_nil], by rw [hwv]; rfl⟩
    | cons b' v =>
      obtain ⟨rfl, -⟩ := List.cons.inj hwv
      exact absurd ⟨v, by rw [hv]; simp⟩ hshort

/-- `DEC` of bits that lead to an absent child. -/
theorem decodeByte_absent {d : Byte} {syms : List Byte} {e : Bits} {q : Path} {b : Bool} {more : Bits}
    (he : spell s.ct syms = some e) (hw : s.pos ++ s.walkable d = e ++ q ++ b :: more) (hq : IsInternal s.ct q)
    (hint : ¬ IsInternal s.ct (q ++ [b])) (hcode : ¬ IsCode s.ct (q ++ [b])) :
    decodeByte d s = { s with
      dany := true, out := s.out ++ syms, pos := q, drem := s.dremAfter (e.length + q.length - s.pos.length),
      err := .raised .malformedPayload, phase := .fault } := by
  obtain ⟨v, hv, hwv⟩ := exists_walked_of_absent hs hdec he hw hint
  have hlen : e.length + q.length - s.pos.length = v.length := by
    rw [← List.length_append, hv, List.length_append, Nat.add_sub_cancel_left]
  have hroom : s.roomFor (v.length + 1) := fun hlim => by
    have hle := roomFor_walkable d s hlim
    rw [hwv, List.length_append, List.length_cons] at hle
    omega
  rw [decodeByte_eq, hwv, hlen, walkBits_to_absent (walksTrie_of_inv hs hdec) hroom (prefixFree_of_inv hs hdec)
    (ne_nil_of_lengthsLegal hs.lengths) (by rw [hdec]; decide) (isInternal_pos_of_inv hs hdec) he hv.symm hq hint hcode]
  rfl

end codes

theorem exec_dec_of_dec (d : Byte) {s : State} (h : s.phase = .dec) : exec (.dec d) s = .next (decodeByte d s) :=
  exec_of_legal (i := .dec d) (beq_iff_eq.mpr h)

/-- Settles O23: the phase check, and the walk of the byte's bits over codes, inside the tree or to an absent child. -/
theorem decEmitsTheCompletedCodes : Obligations.DecEmitsTheCompletedCodes := by
  refine ⟨fun _ => rfl, fun d s => ⟨fun hfault => ?_, fun hother => ?_, fun hs hdec => ⟨?_, ?_, ?_⟩⟩⟩
  · exact exec_of_fault hfault (by simp)
  · exact next_command_of_other (decodeByte d) hother (by decide) (by decide)
  · intro syms e q he hw hq
    rw [exec_dec_of_dec d hdec, decodeByte_path hs hdec he hw hq]
  · intro syms e q b more he hw hq hint hcode
    rw [exec_dec_of_dec d hdec, decodeByte_absent hs hdec he hw hq hint hcode]
  · exact exists_decomposition s.ct (s.walkable d) (isInternal_pos_of_inv hs hdec)

end Sys2Proof.Machine
end

section
/-! PROOFS. The cause of each fault (60_exceptions.md section 1, R150, R154). -/

namespace Sys2Proof.Machine

/-- On a table that meets the invariant `BuildTree` fails only where two codes clash. -/
theorem not_prefixFree_of_buildTree {s : State} (hs : Inv s) (h : buildTree s.ct = none) : ¬ PrefixFree s.ct := by
  intro hpf
  obtain ⟨tr, htr⟩ := (buildTree_isSome_iff hs.canonical (ne_nil_of_lengthsLegal hs.lengths)).mpr hpf
  cases h.symm.trans htr

/-- The only fault at the start of a decode run is that of a table that is not `PrefixFree`. -/
theorem openDecode_of_raised {lim : Bool} {n : Count} {s : State} {k : FaultKind} (hs : Inv s)
    (hnone : s.err ≠ .raised k) (herr : (openDecode lim n s).err = .raised k) :
    k = .corruptCodeTable ∧ (openDecode lim n s).phase = .fault ∧ ¬ PrefixFree s.ct := by
  rcases openDecode_cases lim n s with ⟨hb, he⟩ | ⟨tr, _, he⟩ <;> rw [he] at herr ⊢
  · cases herr
    exact ⟨rfl, rfl, not_prefixFree_of_buildTree hs hb⟩
  · exact absurd herr hnone

/-- Settles O30: each effect either keeps `ERR`, which holds no fault, or raises its fault at its cause. -/
theorem everyFaultHasItsListedCause : Obligations.EveryFaultHasItsListedCause := by
  intro i s t k hs hf h herr
  have hnone : s.err ≠ .raised k := by rw [err_none_of_inv hs hf]; simp
  rcases exec_cases h with ⟨hfault, _, _⟩ | ⟨_, hl, rfl⟩ | ⟨hl, rfl⟩
  · exact absurd hfault hf
  · cases herr
    exact ⟨rfl, hl⟩
  · cases i with
    | nop => exact absurd herr hnone
    | clr => cases herr
    | ldc x c =>
      rcases loadCode_cases x c s with ⟨rfl, he⟩ | ⟨_, he⟩ <;> rw [effect, he] at herr ⊢
      · cases herr
        exact ⟨rfl, eq_of_beq hl, .inl ⟨x, rfl⟩⟩
      · exact absurd herr hnone
    | ebegin => exact absurd herr hnone
    | enc x =>
      rcases encodeSymbol_cases x s with ⟨hx, he⟩ | ⟨c, _, he⟩ <;> rw [effect, he] at herr ⊢
      · cases herr
        exact ⟨rfl, eq_of_beq hl, x, rfl, hx⟩
      · rw [pushBits_err] at herr
        exact absurd herr hnone
    | eend =>
      rw [effect, closeEncode_eq_pack] at herr
      exact absurd herr hnone
    | dbegin =>
      obtain ⟨rfl, hp, hpf⟩ := openDecode_of_raised hs hnone herr
      exact ⟨hp, eq_of_beq hl, .inr ⟨.inl rfl, hpf⟩⟩
    | dbeginl n =>
      obtain ⟨rfl, hp, hpf⟩ := openDecode_of_raised hs hnone herr
      exact ⟨hp, eq_of_beq hl, .inr ⟨.inr ⟨n, rfl⟩, hpf⟩⟩
    | dec d =>
      have hdec : s.phase = .dec := eq_of_beq hl
      rcases exists_decomposition s.ct (s.walkable d) (isInternal_pos_of_inv hs hdec) with
        ⟨syms, e, q, hspell, hw, hq⟩ | ⟨syms, e, q, b, more, hspell, hw, hq, hint, hcode⟩
      · rw [effect, decodeByte_path hs hdec hspell hw hq] at herr
        exact absurd herr hnone
      · obtain ⟨v, hv, -⟩ := exists_walked_of_absent hs hdec hspell hw hint
        have hlen : s.pos.length ≤ e.length + q.length := by
          rw [← List.length_append, hv, List.length_append]
          exact Nat.le_add_right _ _
        rw [effect, decodeByte_absent hs hdec hspell hw hq hint hcode] at herr ⊢
        cases herr
        exact ⟨rfl, hdec, .inl ⟨d, syms, e, b, more, rfl, hspell, hw, hlen, hq, hint, hcode⟩⟩
    | dend =>
      rcases endDecode_cases s with ⟨hend, he⟩ | ⟨amb, he⟩ <;> rw [effect, he] at herr ⊢
      · cases herr
        obtain ⟨hlim, hcause⟩ := (endsEarly_iff s).mp hend
        exact ⟨rfl, eq_of_beq hl, .inr ⟨rfl, hlim, hcause⟩⟩
      · exact absurd herr hnone

end Sys2Proof.Machine
end

section
/-! PROOFS. An encode run through the command port (41_encode.md, "Pack law" and "Size law"). -/

namespace Sys2Proof

/-- Bit `7 - t` of byte `j` of a packed string is its bit `8j + t`, 0 past its end (R46, R94). -/
theorem pack_getLsbD {e : Bits} {j : Nat} {b : Byte} (h : (pack e)[j]? = some b) {t : Nat} (ht : t < 8) :
    b.getLsbD (7 - t) = e.getD (8 * j + t) false := by
  obtain ⟨hj, rfl⟩ := List.getElem?_eq_some_iff.mp h
  simp only [pack, List.getElem_map, List.getElem_range]
  rw [packByte_getLsbD _ t ht, List.getD_eq_getElem?_getD, List.getElem?_drop, ← List.getD_eq_getElem?_getD]

end Sys2Proof

namespace Sys2Proof.Machine

/-- Well-formed commands that the host sends first are taken one after another, and the rest stays on the port. -/
theorem runSteps_of_execAll {cmds : List Instr} (hwf : ∀ i ∈ cmds, i.wf = true) {s t : State} {rest : List HostEvent}
    (hport : s.port = packetsOf cmds ++ rest) (h : execAll cmds s = .next t) :
    runSteps cmds.length s = .next (consume rest t) := by
  have hrun := runSteps_packetsOf hwf h rest
  rwa [← hport] at hrun

/-- The state after `COMPRESS` in `LOAD`: the packed codes emitted, their bits in `EBITS`, the serializer empty. -/
theorem execAll_compress_eq {syms : List Byte} {e : Bits} {s : State} (hload : s.phase = .load)
    (h : spell s.ct syms = some e) (he : e.length < 2 ^ 64) :
    execAll (Pseudo.compress syms).expand s = .next { s with
      out := s.out ++ pack e, ebits := BitVec.ofNat 64 e.length, sr := 0#8, cnt := 0#3 } := by
  have hout : (pushBits e (openEncode s)).out ++ pack (pushBits e (openEncode s)).heldBits = s.out ++ pack e :=
    (congrArg State.out (closeEncode_eq_pack _)).symm.trans (closeEncode_pushBits_out rfl)
  have hstart : (openEncode s).ebits.toNat = 0 := rfl
  obtain ⟨hcount, hfree⟩ := pushBits_counts (bs := e) (s := openEncode s) (by rw [hstart]; omega)
  have hebits : (pushBits e (openEncode s)).ebits = BitVec.ofNat 64 e.length := by
    apply BitVec.eq_of_toNat_eq
    rw [hcount, hstart, Nat.zero_add, BitVec.toNat_ofNat, Nat.mod_eq_of_lt he]
  rw [execAll_compress hload h, closeEncode_eq_pack, hout, hebits, hfree, pushBits_ct, pushBits_tree, pushBits_pos,
    pushBits_lim, pushBits_drem, pushBits_dany, pushBits_amb, pushBits_err, pushBits_port, ← hload]
  rfl

/-- The first symbols of a text spell, too. -/
theorem exists_spell_take {ct : CodeTable} {syms : List Byte} {e : Bits} (h : spell ct syms = some e) (k : Nat) :
    ∃ d, spell ct (syms.take k) = some d := by
  induction syms generalizing e k with
  | nil => exact ⟨[], by rw [List.take_nil]; rfl⟩
  | cons x syms ih =>
    cases k with
    | zero => exact ⟨[], rfl⟩
    | succ k =>
      obtain ⟨c, d, hc, hd, -⟩ := spell_cons_eq_some.mp h
      obtain ⟨d', hd'⟩ := ih hd k
      exact ⟨c ++ d', spell_cons_eq_some.mpr ⟨c, d', hc, hd', rfl⟩⟩

/-- After some symbols of an encode run the whole bytes of their codes have been emitted. -/
theorem execAll_compress_prefix {syms : List Byte} {e : Bits} {s : State} (hload : s.phase = .load)
    (h : spell s.ct syms = some e) :
    ∃ t, execAll (.ebegin :: syms.map .enc) s = .next t ∧ t.out = s.out ++ pack (e.take (8 * (e.length / 8))) := by
  have hrun : execAll (syms.map .enc) (openEncode s) = .next (pushBits e (openEncode s)) := execAll_map_enc rfl h
  obtain ⟨w, hw, hout, htake, -⟩ := pushBits_out_held e (openEncode s)
  have hempty : (openEncode s).cnt.toNat = 0 := rfl
  rw [hempty, Nat.zero_add] at hw
  rw [heldBits_of_cnt_zero rfl, List.nil_append, hw] at htake
  refine ⟨_, (execAll_cons_of_next (exec_ebegin_of_load hload) _).trans hrun, ?_⟩
  rw [htake, pack_unpack, hout]
  rfl

theorem packetsOf_append (xs ys : List Instr) : packetsOf (xs ++ ys) = packetsOf xs ++ packetsOf ys :=
  List.map_append

/-- Settles O42: the whole run and each beginning of it, given to the block command by command, and the laws of
`pack`. -/
theorem encodeRunEmitsThePackedCodes : Obligations.EncodeRunEmitsThePackedCodes := by
  refine ⟨fun s syms e rest hload hspell he hport => ⟨?whole, fun k hk => ?beginning⟩, fun e => ⟨pack_length e,
    fun j b hb t ht => pack_getLsbD hb ht, take_unpack_pack e⟩⟩
  case whole =>
    have hlen : (Pseudo.compress syms).expand.length = syms.length + 2 := by simp [Pseudo.expand]
    have hrun := runSteps_of_execAll (Codec.wf_of_mem_compress syms) hport (execAll_compress_eq hload hspell he)
    rwa [hlen] at hrun
  case beginning =>
    obtain ⟨ek, hek⟩ := exists_spell_take hspell k
    obtain ⟨t, ht, hout⟩ := execAll_compress_prefix hload hek
    have hsplit : Instr.ebegin :: (syms.map .enc ++ [.eend]) =
        (.ebegin :: (syms.take k).map .enc) ++ ((syms.drop k).map .enc ++ [.eend]) := by
      rw [List.cons_append, ← List.append_assoc, ← List.map_append, List.take_append_drop]
    rw [hsplit, packetsOf_append, List.append_assoc] at hport
    have hwf : ∀ i ∈ Instr.ebegin :: (syms.take k).map .enc, i.wf = true := fun i hi =>
      Codec.wf_of_mem_compress syms i (by rw [Pseudo.expand, hsplit]; exact List.mem_append_left _ hi)
    have hlen : (Instr.ebegin :: (syms.take k).map .enc).length = k + 1 := by simp [hk]
    have hrun := runSteps_of_execAll hwf hport ht
    rw [hlen] at hrun
    exact ⟨ek, _, hek, hrun, hout⟩

end Sys2Proof.Machine
end

section
/-! PROOFS. A decode run in counted mode through the command port (42_decode.md, "Counted-mode round-trip law"), and
the run without a payload (70_reset_and_hazards.md section 3). -/

namespace Sys2Proof.Machine

theorem exec_dend_of_counted {s : State} (hdec : s.phase = .dec) (hlim : s.lim = true) (hdrem : s.drem = 0#64)
    (hpos : s.pos = []) : exec .dend s = .next { s with tree := none, pos := [], phase := .load } := by
  obtain ⟨-, hdend⟩ := dendClosesTheDecodeRun
  obtain ⟨-, -, -, hcounted, -⟩ := hdend s
  exact hcounted hdec hlim hdrem hpos

/-- The walker of an opened run has the trie of the table. -/
theorem opened_walksTrie {s : State} {tr : Tree} (lim : Bool) (n : Count) (hc : tableCanonical s.ct = true)
    (htr : buildTree s.ct = some tr) : (s.opened lim n tr).walksTrie := ⟨tr, rfl, isTrie_of_buildTree hc htr⟩

theorem exec_dbegin_opened {s : State} {tr : Tree} (hload : s.phase = .load) (htr : buildTree s.ct = some tr) :
    exec .dbegin s = .next (s.opened false 0#64 tr) := by
  rw [exec_dbegin_of_load hload, openDecode_of_some false 0#64 htr]
  rfl

theorem isEmpty_pack (e : Bits) : (pack e).isEmpty = e.isEmpty := by
  rw [Bool.eq_iff_iff, List.isEmpty_iff, List.isEmpty_iff, pack_eq_nil_iff]

/-- With `DREM` the number of its bits the walk of a packed text emits the text, and its pad bits are not walked. -/
theorem walkBits_unpack_pack_counted {syms : List Byte} {e : Bits} {s : State} (ht : s.walksTrie)
    (hlim : s.lim = true) (hdrem : s.drem = BitVec.ofNat 64 e.length) (he : e.length < 2 ^ 64) (hpf : PrefixFree s.ct)
    (hne : ∀ f ∈ s.ct, f.2 ≠ []) (hf : s.phase ≠ .fault) (hroot : s.pos = []) (h : spell s.ct syms = some e) :
    walkBits (unpack (pack e)) s = { s with out := s.out ++ syms, drem := 0#64 } := by
  have hroom : s.roomFor e.length := fun _ => by rw [hdrem, BitVec.toNat_ofNat, Nat.mod_eq_of_lt he]
  have hwalk := walkBits_path_counted ht hroom hpf hne hf (.inl hroot) h (q := []) (by rw [hroot]; simp) (.inl rfl)
  have hzero : s.dremAfter e.length = 0#64 := by
    rw [State.dremAfter, if_pos hlim, hdrem, BitVec.sub_self]
  rw [hzero] at hwalk
  rw [unpack_pack, walkBits_append _ _ hf, hwalk, if_neg hf,
    walkBits_of_exhausted (s := { s with out := s.out ++ syms, pos := [], drem := 0#64 }) ⟨hlim, rfl⟩, ← hroot]

/-- The counted run over the packed bits of a text gives the text. -/
theorem execAll_decompress {syms : List Byte} {e : Bits} {s : State} (hload : s.phase = .load)
    (hc : tableCanonical s.ct = true) (hl : LengthsLegal s.ct) (hpf : PrefixFree s.ct)
    (h : spell s.ct syms = some e) (he : e.length < 2 ^ 64) :
    execAll (Pseudo.decompress (BitVec.ofNat 64 e.length) (pack e)).expand s = .next { s with
      out := s.out ++ syms, tree := none, pos := [], lim := true, drem := 0#64, dany := !e.isEmpty, amb := false } := by
  obtain ⟨tr, htr⟩ := (buildTree_isSome_iff hc (ne_nil_of_lengthsLegal hl)).mpr hpf
  have hbegin : exec (.dbeginl (BitVec.ofNat 64 e.length)) s = .next (s.opened true (BitVec.ofNat 64 e.length) tr) :=
    (exec_dbeginl_of_load _ hload).trans (congrArg Host.Outcome.next (openDecode_of_some _ _ htr))
  have hwalk := walkBits_unpack_pack_counted (opened_walksTrie true (BitVec.ofNat 64 e.length) hc htr) rfl rfl he hpf
    (ne_nil_of_lengthsLegal hl) (fun hf => nomatch hf) rfl h
  have hbytes := execAll_map_dec (payload := pack e) rfl (by rw [hwalk]; exact fun hf => nomatch hf)
  rw [hwalk, isEmpty_pack] at hbytes
  rw [Pseudo.expand, execAll_cons_of_next hbegin, execAll_append_of_next hbytes,
    execAll_cons_of_next (exec_dend_of_counted rfl rfl rfl rfl), execAll, ← hload]
  rfl

theorem wf_of_mem_decompress (n : Count) (payload : List Byte) :
    ∀ i ∈ (Pseudo.decompress n payload).expand, i.wf = true := by
  simp [Pseudo.expand, Instr.wf, or_imp, forall_and]

/-- Settles O43: the run given to the block command by command; the invariant gives `TREE` and `POS` of `LOAD`. -/
theorem countedRunDecodesExactly : Obligations.CountedRunDecodesExactly := by
  intro s syms e rest hs hload hpf hspell he hport
  have hrun := runSteps_of_execAll (wf_of_mem_decompress _ _) hport
    (execAll_decompress hload hs.canonical hs.lengths hpf hspell he)
  have hlen : (Pseudo.decompress (BitVec.ofNat 64 e.length) (pack e)).expand.length = (pack e).length + 2 := by
    simp [Pseudo.expand]
  have htree : s.tree = none := hs.noTreeOutside (.inl hload)
  have hroot := hs.posAtRoot htree
  rw [hlen, ← htree, ← hroot] at hrun
  exact hrun

/-- In `FAULT` a sequence without `CLR` has no effect (R155). -/
theorem execAll_of_fault {cmds : List Instr} (hc : .clr ∉ cmds) {s : State} (hf : s.phase = .fault) :
    execAll cmds s = .next s := by
  induction cmds with
  | nil => rfl
  | cons i cmds ih =>
    obtain ⟨hi, hcmds⟩ := not_or.mp (mt List.mem_cons.mpr hc)
    rw [execAll_cons_of_next (exec_of_fault hf (Ne.symm hi)), ih hcmds]

/-- A decode run on a table that is not `PrefixFree`: its start faults, and the rest of it is discarded. -/
theorem execAll_openDecode_of_not_prefixFree {i : Instr} (hi : i = .dbegin ∨ ∃ n, i = .dbeginl n) {cmds : List Instr}
    (hclr : .clr ∉ cmds) {s : State} (hload : s.phase = .load) (hc : tableCanonical s.ct = true)
    (hl : LengthsLegal s.ct) (hpf : ¬ PrefixFree s.ct) :
    execAll (i :: cmds) s = .next { s with err := .raised .corruptCodeTable, phase := .fault } := by
  have hbegin : exec i s = .next { s with err := .raised .corruptCodeTable, phase := .fault } := by
    rcases hi with rfl | ⟨n, rfl⟩
    · rw [exec_dbegin_of_load hload, openDecode_of_not_prefixFree false 0#64 hc hl hpf]
    · rw [exec_dbeginl_of_load n hload, openDecode_of_not_prefixFree true n hc hl hpf]
  rw [execAll_cons_of_next hbegin, execAll_of_fault hclr rfl]

/-- Settles O45: the start of the run builds the tree or faults, and its end discards the tree. -/
theorem dryDecodeRunValidatesTheTable : Obligations.DryDecodeRunValidatesTheTable := by
  intro s rest hs hload hport
  have hwf : ∀ i ∈ [Instr.dbegin, .dend], i.wf = true := by decide
  refine ⟨fun hpf => ?_, fun hpf => ?_⟩
  · obtain ⟨tr, htr⟩ := (buildTree_isSome_iff hs.canonical (ne_nil_of_lengthsLegal hs.lengths)).mpr hpf
    have hend := (execAll_cons_of_next (exec_dbegin_opened hload htr) [.dend]).trans
      (execAll_cons_of_next (exec_dend_of_legacy rfl rfl) [])
    have htree : s.tree = none := hs.noTreeOutside (.inl hload)
    have hroot := hs.posAtRoot htree
    have hrun := runSteps_of_execAll hwf hport hend
    rw [← htree, ← hroot, ← hload] at hrun
    exact hrun
  · exact runSteps_of_execAll hwf hport
      (execAll_openDecode_of_not_prefixFree (.inl rfl) (by decide) hload hs.canonical hs.lengths hpf)

end Sys2Proof.Machine
end

section
/-! PROOFS. A decode run in legacy mode through the command port (42_decode.md, "Legacy-mode over-read law"): the zero
pad bits complete codes, or lead to an absent child. -/

namespace Sys2Proof.Machine

/-- The commands of a payload whose walk meets an absent child: those after the fault are discarded. -/
theorem execAll_map_dec_of_fault {payload : List Byte} {s : State} (hdec : s.phase = .dec)
    (hwalk : (walkBits (unpack payload) s).phase = .fault) :
    execAll (payload.map .dec) s = .next (markAny (walkBits (unpack payload) s)) := by
  induction payload generalizing s with
  | nil => exact absurd (hdec.symm.trans hwalk) (by decide)
  | cons d payload ih =>
    have happend := walkBits_append (byteBits d) (unpack payload) (s := s) (by rw [hdec]; decide)
    have hstep : exec (.dec d) s = .next (markAny (walkBits (byteBits d) s)) := by
      rw [exec_dec_of_dec d hdec, decodeByte, dataBits, walkBits_markAny]
    rw [← unpack_cons] at happend
    rw [List.map_cons, execAll_cons_of_next hstep]
    by_cases hfirst : (walkBits (byteBits d) s).phase = .fault
    · rw [if_pos hfirst] at happend
      rw [happend, execAll_of_fault (s := markAny (walkBits (byteBits d) s)) (by simp) hfirst]
    · rw [if_neg hfirst] at happend
      have hphase : (walkBits (byteBits d) s).phase = .dec :=
        ((walkBits_phase _ s).resolve_right hfirst).trans hdec
      have hrest : (walkBits (unpack payload) (markAny (walkBits (byteBits d) s))).phase = .fault := by
        rwa [walkBits_markAny, markAny_phase, ← happend]
      rw [ih (s := markAny (walkBits (byteBits d) s)) hphase hrest, walkBits_markAny, ← happend]
      rfl

/-- A text has at most as many symbols as bits. -/
theorem length_le_of_spell {ct : CodeTable} (hne : ∀ f ∈ ct, f.2 ≠ []) {syms : List Byte} {e : Bits}
    (h : spell ct syms = some e) : syms.length ≤ e.length := by
  induction syms generalizing e with
  | nil => exact Nat.zero_le _
  | cons x syms ih =>
    obtain ⟨c, d, hc, hd, rfl⟩ := spell_cons_eq_some.mp h
    have hpos := List.length_pos_iff.mpr (hne _ (mem_of_lookupCode hc))
    have hle := ih hd
    simp only [List.length_append, List.length_cons] at hpos ⊢
    omega

/-! ### A code of zeros (R108) -/

theorem replicate_prefix_replicate {m n : Nat} (h : m ≤ n) : List.replicate m false <+: List.replicate n false :=
  ⟨List.replicate (n - m) false, by rw [List.replicate_append_replicate, Nat.add_sub_cancel' h]⟩

section zeros
variable {ct : CodeTable} (hpf : PrefixFree ct) {x : Byte} {d : Nat}
  (hx : lookupCode x ct = some (List.replicate d false))
include hpf hx

/-- Where a code of zeros is loaded, a text of zeros repeats its symbol. -/
theorem eq_replicate_of_spell_zeros {syms : List Byte} {f : Bits} (h : spell ct syms = some f)
    (hz : ∀ b ∈ f, b = false) : syms = List.replicate syms.length x ∧ f.length = syms.length * d := by
  induction syms generalizing f with
  | nil => cases h; simp
  | cons y syms ih =>
    obtain ⟨c, g, hc, hg, rfl⟩ := spell_cons_eq_some.mp h
    obtain ⟨hzc, hzg⟩ := List.forall_mem_append.mp hz
    obtain ⟨hsyms, hlen⟩ := ih hg hzg
    have hcz := List.eq_replicate_of_mem hzc
    have hyx : y = x := by
      by_contra hyx
      rcases Nat.le_total c.length d with hle | hle
      · exact hpf y x c _ hc hx hyx (by rw [hcz]; exact replicate_prefix_replicate hle)
      · exact hpf x y _ c hx hc (Ne.symm hyx) (by rw [hcz]; exact replicate_prefix_replicate hle)
    subst hyx
    obtain rfl := Option.some.inj (hx.symm.trans hc)
    refine ⟨by rw [List.length_cons, List.replicate_succ, ← hsyms], ?_⟩
    rw [List.length_append, List.length_replicate, hlen, List.length_cons, Nat.succ_mul, Nat.add_comm]

variable (hne : ∀ f ∈ ct, f.2 ≠ []) {q : Path} (hq : IsInternal ct q)
include hne hq

/-- Where a code of zeros is loaded, a path of zeros inside the tree is shorter than it. -/
theorem length_lt_of_isInternal_zeros (hz : ∀ b ∈ q, b = false) : q.length < d := by
  by_contra hle
  rw [List.eq_replicate_of_mem hz] at hq
  exact not_code_prefix_of_isInternal hpf hne hx hq (replicate_prefix_replicate (Nat.le_of_not_lt hle))

/-- Where a code of zeros is loaded, no walk of zeros meets an absent child. -/
theorem isCode_of_not_isInternal_zeros (hz : ∀ b ∈ q, b = false) (hint : ¬ IsInternal ct (q ++ [false])) :
    IsCode ct (q ++ [false]) := by
  have hlt := length_lt_of_isInternal_zeros hpf hx hne hq hz
  have heq : q ++ [false] = List.replicate (q.length + 1) false := by
    rw [List.replicate_succ', ← List.eq_replicate_of_mem hz]
  rw [heq] at hint ⊢
  by_cases hd : q.length + 1 = d
  · exact ⟨x, hd ▸ hx⟩
  · refine absurd (.inr ⟨x, _, hx, replicate_prefix_replicate hlt, fun h => hd ?_⟩) hint
    simpa using congrArg List.length h

/-- Where a code of `d` zeros is loaded, `z` zeros complete it `floor(z/d)` times. -/
theorem eq_replicate_div_of_zeros {z : Nat} {syms : List Byte} {f : Bits} (h : spell ct syms = some f)
    (hfq : f ++ q = List.replicate z false) : syms = List.replicate (z / d) x := by
  have hz : ∀ b ∈ f ++ q, b = false := fun b hb => List.eq_of_mem_replicate (hfq ▸ hb)
  obtain ⟨hzf, hzq⟩ := List.forall_mem_append.mp hz
  obtain ⟨hsyms, hlen⟩ := eq_replicate_of_spell_zeros hpf hx h hzf
  have hlt := length_lt_of_isInternal_zeros hpf hx hne hq hzq
  have hsum := congrArg List.length hfq
  rw [List.length_append, List.length_replicate, hlen] at hsum
  have hdiv : z / d = syms.length := by
    rw [← hsum, Nat.add_comm, Nat.add_mul_div_right _ _ (Nat.zero_lt_of_lt hlt), Nat.div_eq_of_lt hlt, Nat.zero_add]
  rw [hdiv, ← hsyms]

end zeros

/-! ### The run -/

/-- The symbols that `n` bits complete are at most `n`. -/
theorem length_le_of_spell_prefix {ct : CodeTable} (hne : ∀ f ∈ ct, f.2 ≠ []) {syms : List Byte} {f : Bits} {n : Nat}
    (h : spell ct syms = some f) (hf : f <+: List.replicate n false) : syms.length ≤ n := by
  have hlen := hf.length_le
  rw [List.length_replicate] at hlen
  exact (length_le_of_spell hne h).trans hlen

section run
variable {s : State} {tr : Tree} {syms : List Byte} {e : Bits} (hc : tableCanonical s.ct = true)
  (hl : LengthsLegal s.ct) (hload : s.phase = .load) (htr : buildTree s.ct = some tr)
include hc hl htr

/-- The walk of a packed text is that of its pad bits once the text has been emitted. -/
theorem walkBits_unpack_pack_legacy (h : spell s.ct syms = some e) :
    walkBits (unpack (pack e)) (s.opened false 0#64 tr) =
      walkBits (List.replicate (padBits e.length) false) { s.opened false 0#64 tr with out := s.out ++ syms } := by
  rw [unpack_pack]
  exact walkBits_spell (opened_walksTrie false 0#64 hc htr) rfl rfl (ne_nil_of_lengthsLegal hl) h _

variable (hpf : PrefixFree s.ct) (h : spell s.ct syms = some e) {extra : List Byte} {f : Bits} {q : Path}
  (hextra : spell s.ct extra = some f) (hq : IsInternal s.ct q)
include hload hpf h hextra hq

/-- The legacy run over a packed text whose pad bits stay in the tree. -/
theorem execAll_legacy_of_path (hfq : List.replicate (padBits e.length) false = f ++ q) :
    execAll (Pseudo.decompressLegacy (pack e)).expand s = .next { s with
      tree := none, pos := [], lim := false, drem := 0#64, dany := !(pack e).isEmpty, amb := !(pack e).isEmpty,
      phase := .load, out := s.out ++ syms ++ extra } := by
  have hwalk := walkBits_unpack_pack_legacy hc hl htr h
  rw [walkBits_path (s := { s.opened false 0#64 tr with out := s.out ++ syms })
    (opened_walksTrie false 0#64 hc htr) rfl hpf (ne_nil_of_lengthsLegal hl) (.inl rfl) hextra hfq hq] at hwalk
  exact (execAll_cons_of_next (exec_dbegin_opened hload htr) _).trans (execAll_decs_dend rfl rfl hwalk)

/-- The legacy run over a packed text whose pad bits lead to an absent child. -/
theorem execAll_legacy_of_absent {more : Bits} (hfq : List.replicate (padBits e.length) false = f ++ q ++ false :: more)
    (hint : ¬ IsInternal s.ct (q ++ [false])) (hcode : ¬ IsCode s.ct (q ++ [false])) :
    execAll (Pseudo.decompressLegacy (pack e)).expand s = .next { s with
      tree := some tr, pos := q, lim := false, drem := 0#64, dany := true, amb := false, phase := .fault,
      err := .raised .malformedPayload, out := s.out ++ syms ++ extra } := by
  have hwalk := walkBits_unpack_pack_legacy hc hl htr h
  rw [hfq, walkBits_to_absent (w := f ++ q) (s := { s.opened false 0#64 tr with out := s.out ++ syms })
    (opened_walksTrie false 0#64 hc htr) (fun hlim => nomatch hlim) hpf (ne_nil_of_lengthsLegal hl)
    (fun hf => nomatch hf) (.inl rfl) hextra rfl hq hint hcode] at hwalk
  have hbytes := execAll_map_dec_of_fault (payload := pack e) (s := s.opened false 0#64 tr) rfl (by rw [hwalk]; rfl)
  rw [hwalk] at hbytes
  rw [Pseudo.expand, execAll_cons_of_next (exec_dbegin_opened hload htr), execAll_append_of_next hbytes,
    execAll_of_fault (by decide) rfl]
  rfl

end run

/-- Settles O44: the pad bits are codes and then a path inside the tree, or so up to an absent child. -/
theorem legacyRunOverReadsThePadBits : Obligations.LegacyRunOverReadsThePadBits := by
  intro s syms e rest hs hload hpf hspell hport
  have hne := ne_nil_of_lengthsLegal hs.lengths
  have hidle : s.err = .none := err_none_of_inv hs (by rw [hload]; decide)
  have hlen : (Pseudo.decompressLegacy (pack e)).expand.length = (pack e).length + 2 := by simp [Pseudo.expand]
  obtain ⟨tr, htr⟩ := (buildTree_isSome_iff hs.canonical hne).mpr hpf
  rcases exists_decomposition s.ct (List.replicate (padBits e.length) false) (.inl rfl) with
    ⟨extra, f, q, hextra, hfq, hq⟩ | ⟨extra, f, q, b, more, hextra, hfq, hq, hint, hcode⟩
  · rw [List.nil_append] at hfq
    have hle := length_le_of_spell_prefix hne hextra (hfq ▸ List.prefix_append _ _)
    have hrun := runSteps_of_execAll (Codec.wf_of_mem_decompressLegacy _) hport
      (execAll_legacy_of_path hs.canonical hs.lengths hload htr hpf hspell hextra hq hfq)
    rw [hlen, isEmpty_pack] at hrun
    exact ⟨_, extra, f, q, hrun, rfl, rfl, rfl, hextra, hq, hle, padBits_le_seven _,
      .inl ⟨rfl, hidle, rfl, rfl, rfl, hfq.symm⟩,
      fun hzero => ⟨List.eq_nil_of_length_eq_zero (Nat.le_zero.mp (hzero ▸ hle)), rfl⟩,
      fun x d hx => ⟨rfl, eq_replicate_div_of_zeros hpf hx hne hq hextra hfq.symm⟩⟩
  · rw [List.nil_append] at hfq
    have hzeros : ∀ c ∈ f ++ q ++ b :: more, c = false := fun c hmem => List.eq_of_mem_replicate (hfq ▸ hmem)
    obtain rfl := hzeros b (by simp)
    have hle := length_le_of_spell_prefix hne hextra ⟨q ++ false :: more, by rw [hfq, List.append_assoc]⟩
    have hrun := runSteps_of_execAll (Codec.wf_of_mem_decompressLegacy _) hport
      (execAll_legacy_of_absent hs.canonical hs.lengths hload htr hpf hspell hextra hq hfq hint hcode)
    rw [hlen] at hrun
    refine ⟨_, extra, f, q, hrun, rfl, rfl, rfl, hextra, hq, hle, padBits_le_seven _,
      .inr ⟨rfl, rfl, rfl, ⟨more, by rw [hfq]; simp⟩, hint, hcode⟩, fun hzero => ?_, fun x d hx => ?_⟩
    · rw [hzero] at hfq
      simp at hfq
    · exact absurd (isCode_of_not_isInternal_zeros hpf hx hne hq (fun c hmem => hzeros c (by simp [hmem])) hint) hcode

end Sys2Proof.Machine
end

section
/-! PROOFS. The reference host in counted mode (R128 to R131): it gives its inputs back, and reports a corrupt table
(R133). -/

namespace Sys2Proof.Codec

open Sys2Proof.Machine

theorem readContainer_container {ct : CodeTable} (hn : ct.length ≤ Config.nsym) (hl : LengthsLegal ct) (nbits : Count)
    (payload : List Byte) : readContainer (container ct nbits payload) = some (ct, nbits, payload) := by
  have hlen := bytesOfCount_length nbits
  have hroom : 8 ≤ (bytesOfCount nbits ++ payload).length := by
    rw [List.length_append, hlen]
    exact Nat.le_add_right _ _
  rw [readContainer, container, List.append_assoc, readTable_tableBytes hn hl, Option.bind_some, if_pos hroom,
    List.take_left' hlen, List.drop_left' hlen, countOfBytes_bytesOfCount]

/-! ### The round trip (45_host_codec.md section 7) -/

/-- The host's file of an input holds its table, the number of its bits and its packed codes. -/
theorem compress_eq (tie : TieBreak) {s : State} (hport : s.port = []) {input : List Byte} {e : Bits}
    (h : spell (codeTableFor tie input) input = some e) (he : e.length < 2 ^ 64) :
    compress tie s input = .ok (container (codeTableFor tie input) (BitVec.ofNat 64 e.length) (pack e)) := by
  have hrun := execAll_compress_eq (s := { resetBlock s with ct := codeTableFor tie input }) rfl h he
  have hdrive := drive_ldt_append (codeTableFor_canonical tie input) (codeTableFor_lengthsLegal tie input)
    (wf_of_mem_compress input) hport hrun rfl
  have hbytes : (s.out ++ pack e).drop s.out.length = pack e := List.drop_left
  rw [compress, compressCommands, hdrive]
  exact congrArg (fun payload => Except.ok (container _ _ payload)) hbytes

/-- The host's output for a file that a table and a text of it make. -/
theorem decompress_eq {ct : CodeTable} (hc : tableCanonical ct = true) (hl : LengthsLegal ct) (hpf : PrefixFree ct)
    {s : State} (hport : s.port = []) {text : List Byte} {e : Bits} (h : spell ct text = some e)
    (he : e.length < 2 ^ 64) : decompress s (container ct (BitVec.ofNat 64 e.length) (pack e)) = .ok text := by
  have hrun := execAll_decompress (s := { resetBlock s with ct := ct }) rfl hc hl hpf h he
  have hdrive := drive_ldt_append hc hl (wf_of_mem_decompress _ (pack e)) hport hrun rfl
  have hbytes : (s.out ++ text).drop s.out.length = text := List.drop_left
  rw [decompress, readContainer_container (length_le_of_canonical hc) hl]
  simp only [decompressCommands, hdrive]
  exact congrArg Except.ok hbytes

/-- Settles O47: the host's file of the input holds its table, its count and its packed codes, which it reads back. -/
theorem decompressOfCompressIsTheInput : Obligations.DecompressOfCompressIsTheInput := by
  intro tie s s' input hport hport' hbound
  obtain ⟨e, he⟩ := exists_spell fun _ => exists_lookupCode_codeTableFor tie (input := input)
  exact ⟨_, compress_eq tie hport he (hbound e he), decompress_eq (codeTableFor_canonical tie input)
    (codeTableFor_lengthsLegal tie input) (codeTableFor_prefixFree tie input) hport' he (hbound e he)⟩

/-! ### A corrupt table (45_host_codec.md section 6 (c)) -/

/-- A run that faults gives the host the fault, and no output (R133 (c)). -/
theorem drive_of_execAll_of_fault {cmds : List Instr} (hwf : ∀ i ∈ cmds, i.wf = true) {s t : State}
    (hport : s.port = []) (h : execAll cmds s = .next t) {k : FaultKind} (herr : t.err = .raised k) :
    drive cmds s = .error (.blockFault k) := by
  rw [drive, runCommands_of_execAll hwf hport h]
  simp only [finishRun, consume_err, herr]

/-- A decode run after the load of a table that is not `PrefixFree` gives the host `CORRUPT_CODE_TABLE`. -/
theorem drive_ldt_of_not_prefixFree {ct : CodeTable} (hc : tableCanonical ct = true) (hl : LengthsLegal ct)
    (hpf : ¬ PrefixFree ct) {i : Instr} (hi : i = .dbegin ∨ ∃ n, i = .dbeginl n) {cmds : List Instr}
    (hclr : .clr ∉ cmds) (hwf : ∀ j ∈ i :: cmds, j.wf = true) {s : State} (hport : s.port = []) :
    drive ((Pseudo.ldt ct).expand ++ i :: cmds) s = .error (.blockFault .corruptCodeTable) := by
  have hrun := execAll_openDecode_of_not_prefixFree hi hclr (s := { resetBlock s with ct := ct }) rfl hc hl hpf
  refine drive_of_execAll_of_fault (fun j hj => ?_) hport
    ((execAll_append_of_next (execAll_ldt hc (ne_nil_of_lengthsLegal hl) s) _).trans hrun) rfl
  exact (List.mem_append.mp hj).elim (wf_of_mem_ldt hl j) (hwf j)

/-- Settles O49: both hosts read the table of the file, and the start of either decode run faults on it. -/
theorem hostsReportACorruptTable : Obligations.HostsReportACorruptTable := by
  intro s ct nbits payload hport hc hl hpf
  have hclr : .clr ∉ payload.map Instr.dec ++ [.dend] := by simp
  have hn := length_le_of_canonical hc
  constructor
  · have hdrive := drive_ldt_of_not_prefixFree hc hl hpf (.inr ⟨nbits, rfl⟩) hclr
      (wf_of_mem_decompress nbits payload) hport
    rw [decompress, readContainer_container hn hl]
    simp only [decompressCommands, Pseudo.expand] at hdrive ⊢
    rw [hdrive]
    rfl
  · have hdrive := drive_ldt_of_not_prefixFree hc hl hpf (.inl rfl) hclr (wf_of_mem_decompressLegacy payload) hport
    rw [decompressLegacy, readLegacyContainer_legacyContainer hn hl]
    simp only [legacyCommands, Pseudo.expand] at hdrive ⊢
    rw [hdrive]
    rfl

end Sys2Proof.Codec
end
